-- ==== Sys2Proof/Word.lean ====
section
/-! DEFINITION. The word types of the block: the 8-bit buffer unit and the 32-bit command word. -/

namespace Sys2Proof

/-- One unit of the buffer, 8 bits, bit 0 least significant (R5 `BYTE`, R8, R21). -/
abbrev Byte := BitVec 8

/-- One command word `CMD`, 32 bits, bit 0 least significant (R27, R70, R71). -/
abbrev Word := BitVec 32

end Sys2Proof
end

