-- ==== Sys2Proof/Syntax.lean ====
section
/-! DEFINITION. The abstract syntax: one constructor for each of the 36 commands of R79 (three modes
times eleven kinds, and three control functions). A constructor carries the fields of the command
word that its row leaves free: `WIDTH` for the `UBITS` kind, `NUL` for `WR.STR` and `MS.STR`. The
operands `VAL`, `LEN`, `PIN` are not part of the word (R70): they are operand registers of `State`. -/

namespace Sys2Proof

/-- A decoded command word (R79). -/
inductive Instr where
  /-- `WR.UBITS`, write `width` bits of `VAL` (R111). -/
  | wrUbits (width : BitVec 6)
  /-- `RD.UBITS`, read `width` bits (R112). -/
  | rdUbits (width : BitVec 6)
  /-- `MS.UBITS`, measure a write of `width` bits (R113). -/
  | msUbits (width : BitVec 6)
  /-- `WR.U8`, write an unsigned 8-bit integer (R122). -/
  | wrU8
  /-- `RD.U8`, read an unsigned 8-bit integer (R123). -/
  | rdU8
  /-- `MS.U8`, measure a write of an unsigned 8-bit integer (R124). -/
  | msU8
  /-- `WR.U16`, write an unsigned 16-bit integer (R125). -/
  | wrU16
  /-- `RD.U16`, read an unsigned 16-bit integer (R126). -/
  | rdU16
  /-- `MS.U16`, measure a write of an unsigned 16-bit integer (R127). -/
  | msU16
  /-- `WR.U32`, write an unsigned 32-bit integer (R128). -/
  | wrU32
  /-- `RD.U32`, read an unsigned 32-bit integer (R129). -/
  | rdU32
  /-- `MS.U32`, measure a write of an unsigned 32-bit integer (R130). -/
  | msU32
  /-- `WR.U64`, write an unsigned 64-bit integer (R131). -/
  | wrU64
  /-- `RD.U64`, read an unsigned 64-bit integer (R132). -/
  | rdU64
  /-- `MS.U64`, measure a write of an unsigned 64-bit integer (R133). -/
  | msU64
  /-- `WR.UVAR`, write a varint (R144). -/
  | wrUvar
  /-- `RD.UVAR`, read a varint (R145). -/
  | rdUvar
  /-- `MS.UVAR`, measure a write of a varint (R146). -/
  | msUvar
  /-- `WR.F16`, write a binary16 pattern (R166). -/
  | wrF16
  /-- `RD.F16`, read a binary16 pattern (R167). -/
  | rdF16
  /-- `MS.F16`, measure a write of a binary16 pattern (R168). -/
  | msF16
  /-- `WR.F32`, write a binary32 pattern (R169). -/
  | wrF32
  /-- `RD.F32`, read a binary32 pattern (R170). -/
  | rdF32
  /-- `MS.F32`, measure a write of a binary32 pattern (R171). -/
  | msF32
  /-- `WR.F64`, write a binary64 pattern (R172). -/
  | wrF64
  /-- `RD.F64`, read a binary64 pattern (R173). -/
  | rdF64
  /-- `MS.F64`, measure a write of a binary64 pattern (R174). -/
  | msF64
  /-- `WR.STR`, write a length-prefixed byte string, or the null string when `nul` (R188). -/
  | wrStr (nul : Bool)
  /-- `RD.STR`, read a length-prefixed byte string (R189). -/
  | rdStr
  /-- `MS.STR`, measure a string write (R190). -/
  | msStr (nul : Bool)
  /-- `WR.BYTES`, write `LEN` raw bytes (R201). -/
  | wrBytes
  /-- `RD.BYTES`, read `LEN` raw bytes (R202). -/
  | rdBytes
  /-- `MS.BYTES`, measure a byte-array write (R203). -/
  | msBytes
  /-- `RESET`, set the cursor to zero (R216). -/
  | reset
  /-- `ATTACH`, bind a buffer (R217). -/
  | attach
  /-- `SETCFG`, set the configuration register (R218). -/
  | setcfg
  deriving DecidableEq, Repr

end Sys2Proof
end

