-- ==== Sys2Proof/WellFormed.lean ====
section
/-! DEFINITION. The checks on a decoded command word beyond the row of R79 it selects. -/

namespace Sys2Proof

/-- The width domain of the primitive: 1 to 32 (R74, R110). -/
def widthLegal (width : BitVec 6) : Bool :=
  decide (1 ≤ width.toNat) && decide (width.toNat ≤ 32)

/-- A decoded word is well formed when its `WIDTH`, if it has one, is in 1..32 (R74, R85). The words
of an ill-formed instruction are the reserved encodings of R82(e). -/
def Instr.wellFormed : Instr → Bool
  | .wrUbits width | .rdUbits width | .msUbits width => widthLegal width
  | .wrU8 | .rdU8 | .msU8 | .wrU16 | .rdU16 | .msU16 | .wrU32 | .rdU32 | .msU32 => true
  | .wrU64 | .rdU64 | .msU64 | .wrUvar | .rdUvar | .msUvar => true
  | .wrF16 | .rdF16 | .msF16 | .wrF32 | .rdF32 | .msF32 | .wrF64 | .rdF64 | .msF64 => true
  | .wrStr _ | .rdStr | .msStr _ | .wrBytes | .rdBytes | .msBytes => true
  | .reset | .attach | .setcfg => true

end Sys2Proof
end

