-- ==== Sys2Proof/Decode.lean ====
section
/-! DEFINITION. The command decoder (R71 to R79, R82, R85), the encoder written from the same field
table, and the opcode map of R79 as rows of match and mask. -/

namespace Sys2Proof

/-- Why a command word selects no row of R79 (the cases of R82 (a) to (d) and (f)). The block answers
every one of them with `IllegalCommand`. -/
inductive DecodeReject where
  /-- A bit of 31:13 is set (R76, R82(a)). -/
  | reservedBits
  /-- `MODE` 0 to 2 with `KIND` 11 to 15 (R73, R82(b)). -/
  | reservedKind
  /-- `MODE` 3 with `FUNC` 3 to 15 (R77, R82(c)). -/
  | reservedFunc
  /-- `WIDTH` non-zero in a command whose kind is not `UBITS` (R74, R82(d)). -/
  | widthNotZero
  /-- `NUL` set in a command other than `WR.STR` and `MS.STR` (R75, R82(f)). -/
  | nulSet
  deriving DecidableEq, Repr

/-- `MODE`, bits 1:0 (R71). -/
def modeField (w : Word) : Nat := w.toNat % 4

/-- `KIND` or `FUNC`, bits 5:2 (R71). -/
def kindField (w : Word) : Nat := w.toNat / 4 % 16

/-- `WIDTH`, bits 11:6 (R71). -/
def widthField (w : Word) : BitVec 6 := BitVec.ofNat 6 (w.toNat / 64)

/-- `NUL`, bit 12 (R71). -/
def nulField (w : Word) : Bool := decide (w.toNat / 4096 % 2 = 1)

/-- Bits 31:13, reserved (R71, R76). -/
def reservedField (w : Word) : Nat := w.toNat / 8192

/-- A row with no free field: `WIDTH` and `NUL` must be 0 (R74, R75). -/
def plainRow (w : Word) (i : Instr) : Except DecodeReject Instr :=
  if widthField w ≠ 0 then .error .widthNotZero
  else if nulField w then .error .nulSet
  else .ok i

/-- A `UBITS` row: `WIDTH` is free, `NUL` must be 0 (R74, R75). -/
def widthRow (w : Word) (i : BitVec 6 → Instr) : Except DecodeReject Instr :=
  if nulField w then .error .nulSet else .ok (i (widthField w))

/-- A `WR.STR` or `MS.STR` row: `NUL` is free, `WIDTH` must be 0 (R74, R75). -/
def nulRow (w : Word) (i : Bool → Instr) : Except DecodeReject Instr :=
  if widthField w ≠ 0 then .error .widthNotZero else .ok (i (nulField w))

/-- Decoding, total on every command word and a function of the word alone (R85). A `UBITS` word
with `WIDTH` outside 1..32 selects its row here; it is ill formed (`Instr.wellFormed`) and its meaning
raises `IllegalCommand` (R111 to R113). -/
def decode (w : Word) : Except DecodeReject Instr :=
  if reservedField w ≠ 0 then .error .reservedBits
  else match modeField w, kindField w with
    | 0, 0 => widthRow w .wrUbits
    | 0, 1 => plainRow w .wrU8
    | 0, 2 => plainRow w .wrU16
    | 0, 3 => plainRow w .wrU32
    | 0, 4 => plainRow w .wrU64
    | 0, 5 => plainRow w .wrUvar
    | 0, 6 => plainRow w .wrF16
    | 0, 7 => plainRow w .wrF32
    | 0, 8 => plainRow w .wrF64
    | 0, 9 => nulRow w .wrStr
    | 0, 10 => plainRow w .wrBytes
    | 1, 0 => widthRow w .rdUbits
    | 1, 1 => plainRow w .rdU8
    | 1, 2 => plainRow w .rdU16
    | 1, 3 => plainRow w .rdU32
    | 1, 4 => plainRow w .rdU64
    | 1, 5 => plainRow w .rdUvar
    | 1, 6 => plainRow w .rdF16
    | 1, 7 => plainRow w .rdF32
    | 1, 8 => plainRow w .rdF64
    | 1, 9 => plainRow w .rdStr
    | 1, 10 => plainRow w .rdBytes
    | 2, 0 => widthRow w .msUbits
    | 2, 1 => plainRow w .msU8
    | 2, 2 => plainRow w .msU16
    | 2, 3 => plainRow w .msU32
    | 2, 4 => plainRow w .msU64
    | 2, 5 => plainRow w .msUvar
    | 2, 6 => plainRow w .msF16
    | 2, 7 => plainRow w .msF32
    | 2, 8 => plainRow w .msF64
    | 2, 9 => nulRow w .msStr
    | 2, 10 => plainRow w .msBytes
    | 3, 0 => plainRow w .reset
    | 3, 1 => plainRow w .attach
    | 3, 2 => plainRow w .setcfg
    | 3, _ => .error .reservedFunc
    | _, _ => .error .reservedKind

/-- `CMD = MODE | (KIND << 2) | (WIDTH << 6) | (NUL << 12)` (R71). -/
def commandWord (mode kind : Nat) (width : BitVec 6) (nul : Bool) : Word :=
  BitVec.ofNat 32 (mode ||| kind <<< 2 ||| width.toNat <<< 6 ||| nul.toNat <<< 12)

/-- The command word of an instruction, from the field tables of R72, R73 and R77. -/
def encode : Instr → Word
  | .wrUbits width => commandWord 0 0 width false
  | .wrU8 => commandWord 0 1 0 false
  | .wrU16 => commandWord 0 2 0 false
  | .wrU32 => commandWord 0 3 0 false
  | .wrU64 => commandWord 0 4 0 false
  | .wrUvar => commandWord 0 5 0 false
  | .wrF16 => commandWord 0 6 0 false
  | .wrF32 => commandWord 0 7 0 false
  | .wrF64 => commandWord 0 8 0 false
  | .wrStr nul => commandWord 0 9 0 nul
  | .wrBytes => commandWord 0 10 0 false
  | .rdUbits width => commandWord 1 0 width false
  | .rdU8 => commandWord 1 1 0 false
  | .rdU16 => commandWord 1 2 0 false
  | .rdU32 => commandWord 1 3 0 false
  | .rdU64 => commandWord 1 4 0 false
  | .rdUvar => commandWord 1 5 0 false
  | .rdF16 => commandWord 1 6 0 false
  | .rdF32 => commandWord 1 7 0 false
  | .rdF64 => commandWord 1 8 0 false
  | .rdStr => commandWord 1 9 0 false
  | .rdBytes => commandWord 1 10 0 false
  | .msUbits width => commandWord 2 0 width false
  | .msU8 => commandWord 2 1 0 false
  | .msU16 => commandWord 2 2 0 false
  | .msU32 => commandWord 2 3 0 false
  | .msU64 => commandWord 2 4 0 false
  | .msUvar => commandWord 2 5 0 false
  | .msF16 => commandWord 2 6 0 false
  | .msF32 => commandWord 2 7 0 false
  | .msF64 => commandWord 2 8 0 false
  | .msStr nul => commandWord 2 9 0 nul
  | .msBytes => commandWord 2 10 0 false
  | .reset => commandWord 3 0 0 false
  | .attach => commandWord 3 1 0 false
  | .setcfg => commandWord 3 2 0 false

/-- A row of the opcode map: a word `w` selects it when `w & mask = pattern` (R79). -/
structure OpcodeRow where
  /-- The value of the fixed bits. -/
  pattern : Word
  /-- The bits that are fixed. -/
  mask : Word
  deriving DecidableEq, Repr

/-- The row of the opcode map that an instruction belongs to, `match` and `mask` as R79 lists them. -/
def Instr.row : Instr → OpcodeRow
  | .wrUbits _ => ⟨0x00000000, 0xFFFFF03F⟩
  | .wrU8 => ⟨0x00000004, 0xFFFFFFFF⟩
  | .wrU16 => ⟨0x00000008, 0xFFFFFFFF⟩
  | .wrU32 => ⟨0x0000000C, 0xFFFFFFFF⟩
  | .wrU64 => ⟨0x00000010, 0xFFFFFFFF⟩
  | .wrUvar => ⟨0x00000014, 0xFFFFFFFF⟩
  | .wrF16 => ⟨0x00000018, 0xFFFFFFFF⟩
  | .wrF32 => ⟨0x0000001C, 0xFFFFFFFF⟩
  | .wrF64 => ⟨0x00000020, 0xFFFFFFFF⟩
  | .wrStr _ => ⟨0x00000024, 0xFFFFEFFF⟩
  | .wrBytes => ⟨0x00000028, 0xFFFFFFFF⟩
  | .rdUbits _ => ⟨0x00000001, 0xFFFFF03F⟩
  | .rdU8 => ⟨0x00000005, 0xFFFFFFFF⟩
  | .rdU16 => ⟨0x00000009, 0xFFFFFFFF⟩
  | .rdU32 => ⟨0x0000000D, 0xFFFFFFFF⟩
  | .rdU64 => ⟨0x00000011, 0xFFFFFFFF⟩
  | .rdUvar => ⟨0x00000015, 0xFFFFFFFF⟩
  | .rdF16 => ⟨0x00000019, 0xFFFFFFFF⟩
  | .rdF32 => ⟨0x0000001D, 0xFFFFFFFF⟩
  | .rdF64 => ⟨0x00000021, 0xFFFFFFFF⟩
  | .rdStr => ⟨0x00000025, 0xFFFFFFFF⟩
  | .rdBytes => ⟨0x00000029, 0xFFFFFFFF⟩
  | .msUbits _ => ⟨0x00000002, 0xFFFFF03F⟩
  | .msU8 => ⟨0x00000006, 0xFFFFFFFF⟩
  | .msU16 => ⟨0x0000000A, 0xFFFFFFFF⟩
  | .msU32 => ⟨0x0000000E, 0xFFFFFFFF⟩
  | .msU64 => ⟨0x00000012, 0xFFFFFFFF⟩
  | .msUvar => ⟨0x00000016, 0xFFFFFFFF⟩
  | .msF16 => ⟨0x0000001A, 0xFFFFFFFF⟩
  | .msF32 => ⟨0x0000001E, 0xFFFFFFFF⟩
  | .msF64 => ⟨0x00000022, 0xFFFFFFFF⟩
  | .msStr _ => ⟨0x00000026, 0xFFFFEFFF⟩
  | .msBytes => ⟨0x0000002A, 0xFFFFFFFF⟩
  | .reset => ⟨0x00000003, 0xFFFFFFFF⟩
  | .attach => ⟨0x00000007, 0xFFFFFFFF⟩
  | .setcfg => ⟨0x0000000B, 0xFFFFFFFF⟩

/-- The opcode map of R79, one instruction of each row standing for it. -/
def opcodeRows : List OpcodeRow :=
  [Instr.wrUbits 1, .rdUbits 1, .msUbits 1, .wrU8, .rdU8, .msU8, .wrU16, .rdU16, .msU16].map Instr.row
  ++ [Instr.wrU32, .rdU32, .msU32, .wrU64, .rdU64, .msU64, .wrUvar, .rdUvar, .msUvar].map Instr.row
  ++ [Instr.wrF16, .rdF16, .msF16, .wrF32, .rdF32, .msF32, .wrF64, .rdF64, .msF64].map Instr.row
  ++ [Instr.wrStr false, .rdStr, .msStr false, .wrBytes, .rdBytes, .msBytes].map Instr.row
  ++ [Instr.reset, .attach, .setcfg].map Instr.row

/-- Whether a word selects a row (R79). -/
def OpcodeRow.selects (r : OpcodeRow) (w : Word) : Bool := w &&& r.mask == r.pattern

/-- The instruction read from a word of `nbits` bits numbered as the opcode table numbers them. Every
command is one 32-bit word delivered whole (R70), so bit 0 of `w` is bit 0 of `CMD`. -/
def decodeTableWord (nbits w : Nat) : Option Instr :=
  (decode (BitVec.ofNat 32 (w % 2 ^ nbits))).toOption

end Sys2Proof
end

