-- ==== Sys2Proof/Config.lean ====
section
/-! DEFINITION. What an implementation fixes: the parameters of R5 and the free values of R270.

The constants the source fixes are plain numbers. The parameters R5 calls `OPEN` are a record of
plain data, `Params`, that a state carries, so that a statement about every state is a statement
about every setting of them; `State.reset` takes the setting R5 gives as the default. The values no
rule fixes are opaque constants with no body. -/

namespace Sys2Proof

/-- `STR_MAX`, the largest string payload in bytes (R5, R187). -/
abbrev Config.strMax : Nat := 65535

/-- `VARINT_GROUP`, the payload bits of one varint byte (R5, R140). -/
abbrev Config.varintGroup : Nat := 7

/-- `SCRATCH_BYTES`, the size of the float scratch region (R5, R31). -/
abbrev Config.scratchBytes : Nat := 8

/-- `DEFAULT_BUF_BYTES`, the length of the buffer of a new stream: `OPEN`, any natural number, zero
included (R5, U6, N1). No value of it can be proved. -/
opaque Config.defaultBufBytes : Nat

/-- FREE VALUE (R270, U5). The byte that hardware reset number `epoch` left at byte index `addr` of
the buffer, until a command writes it or `ATTACH` replaces the buffer. No value of it can be proved. -/
opaque Config.unwrittenByte (epoch addr : Nat) : Byte

/-- FREE VALUE (R31, R270, U9). The byte that hardware reset number `epoch` left in `SCR[j]`. No
command's result depends on it. -/
opaque Config.scratchByte (epoch j : Nat) : Byte

/-- The `OPEN` parameters of R5 that a rule of behaviour depends on. `none` is unbounded. -/
structure Params where
  /-- `CURSOR_BITS`, the width of the cursor (R5, R26). -/
  cursorBits : Option Nat
  /-- `VARINT_BITS`, the largest varint magnitude in bits (R5, R148). -/
  varintBits : Option Nat
  /-- `BUF_CAP`, the largest buffer the block can hold, in bytes (R5, R217). -/
  bufCap : Option Nat
  /-- `DEFAULT_BUF_BYTES`, the buffer length hardware reset sets (R5, R270). -/
  defaultBufBytes : Nat
  deriving DecidableEq, Repr

/-- The setting R5 and R6 name as the default: all three capacities unbounded. -/
def Params.standard : Params :=
  { cursorBits := none, varintBits := none, bufCap := none,
    defaultBufBytes := Config.defaultBufBytes }

end Sys2Proof
end

