-- ==== Sys2Proof/Machine/State.lean ====
section
/-! DEFINITION. The state of one FBS-CORE instance as plain data, the reasons a step can stop, and the
state right after hardware reset. -/

namespace Sys2Proof.Machine

/-- Reasons the machine stops with a fault: there are none. The block has no halted state and no
error state (R212), every one of its fault kinds is a response after which the next command is
accepted (R246, R247), and every command terminates (R277). -/
inductive Fault where
  deriving DecidableEq, Repr

/-- Reasons a command is refused a meaning. -/
inductive Refusal where
  /-- Raised by an arm of `exec` whose instruction has no meaning yet, naming its mnemonic; no arm of
  this model raises it. Safe: the model stops where the block goes on. -/
  | notModelled (mnemonic : String)
  deriving DecidableEq, Repr

/-- The command record `(CMD, VAL, LEN, PIN)` (R27, R70): the four operand registers. -/
structure Command where
  /-- `CMD`, the command word. -/
  cmd : Word
  /-- `VAL`, a natural number. -/
  val : Nat
  /-- `LEN`, a 32-bit byte count. -/
  len : BitVec 32
  /-- `PIN`, the payload in. -/
  pin : List Byte
  deriving DecidableEq, Repr

/-- The response record `(FAULT, ADV, RVAL, RLEN, RNUL, POUT)` (R28): the six result registers. The
last four hold no value after a command whose rule does not list them as written. -/
structure Response where
  /-- `FAULT`, the fault code, 0 for none (R240). -/
  fault : BitVec 3
  /-- `ADV`, the number of bits the command added to `CUR`. -/
  adv : Nat
  /-- `RVAL`, the decoded value. -/
  rval : Option Nat
  /-- `RLEN`, the number of payload bytes returned. -/
  rlen : Option (BitVec 32)
  /-- `RNUL`, set when the decoded string is the null sentinel. -/
  rnul : Option Bool
  /-- `POUT`, the payload out. -/
  pout : Option (List Byte)
  deriving DecidableEq, Repr

/-- The four fault kinds of R240. -/
inductive FaultKind where
  /-- A bit of a non-empty span lies beyond the buffer (R241). -/
  | outOfBounds
  /-- A string payload longer than 65535 bytes (R242). -/
  | lengthExceeded
  /-- A command word or operand combination outside the command set (R243). -/
  | illegalCommand
  /-- A finite implementation parameter would be exceeded (R244). -/
  | capacityExceeded
  deriving DecidableEq, Repr

/-- The two states of the dispatcher (R212). -/
inductive Dispatcher where
  /-- Ready for a command record; the host may read registers and buffer. -/
  | idle
  /-- A command has been accepted into the operand registers and is to be performed. -/
  | busy
  deriving DecidableEq, Repr

/-- What the outside world does to the block: it presents a command record (R70, R275), or the
platform resets the block (R270). -/
inductive HostMove where
  /-- The host presents one command record. -/
  | command (c : Command)
  /-- Hardware reset. -/
  | hardwareReset
  deriving DecidableEq, Repr

/-- The contents of the byte buffer `BUF` (R21). `cells` lists the bytes that a command has written
or `ATTACH` has supplied, by byte index; an unlisted index reads as the free value that hardware
reset number `epoch` left there (R270). -/
structure Memory where
  /-- How many hardware resets came before the one whose leftovers unlisted bytes read as. -/
  epoch : Nat
  /-- The listed bytes, indices strictly rising. -/
  cells : List Host.Cell
  deriving DecidableEq, Repr

/-- The complete state (R20): `BUF`, `BUFLEN`, `CUR`, `CFG`, `FLT`, the scratch region `SCR`, the
dispatcher of R212, the operand and result registers, the moves the outside world has yet to make,
and the implementation's parameters. -/
structure State where
  /-- `BUF`, the byte buffer (R21). -/
  buf : Memory
  /-- `BUFLEN`, its length in bytes (R22, register 1). -/
  buflen : Nat
  /-- `CUR`, the bit cursor (R25, register 0). -/
  cur : Nat
  /-- `CFG`, whose one field is `FBE`; bits 31:1 read as 0 and are not stored (R29, register 2). -/
  cfg : BitVec 1
  /-- `FLT`, the sticky fault bits; bits 31:4 read as 0 and are not stored (R29, R251, register 3). -/
  flt : BitVec 4
  /-- `SCR[0]` to `SCR[7]`, the float scratch region (R31). -/
  scr : List Byte
  /-- The dispatcher (R212). -/
  disp : Dispatcher
  /-- The operand registers `CMD`, `VAL`, `LEN`, `PIN` (R27). -/
  op : Command
  /-- The result registers (R28); absent until the first command has responded (R270). -/
  resp : Option Response
  /-- MODEL'S OWN. The moves the outside world has yet to make, first to come first. The block has no
  queue (R275): a move is taken only in `IDLE`, one at a time. -/
  host : List HostMove
  /-- MODEL'S OWN. The setting of the `OPEN` parameters (R5); no step changes it. -/
  params : Params
  deriving DecidableEq, Repr

/-- The state right after hardware reset number 0, with nothing presented (R270). -/
def State.reset : State where
  buf := { epoch := 0, cells := [] }
  buflen := Config.defaultBufBytes
  cur := 0
  cfg := 0
  flt := 0
  scr := (List.range Config.scratchBytes).map (Config.scratchByte 0)
  disp := .idle
  op := { cmd := 0, val := 0, len := 0, pin := [] }
  resp := none
  host := []
  params := Params.standard

end Sys2Proof.Machine
end

