-- ==== Sys2Proof/Machine/Flags.lean ====
section
/-! DEFINITION. The status bits: fault codes, the sticky bits of `FLT` and the field of `CFG`. The
block has no condition codes (R35). -/

namespace Sys2Proof.Machine

/-- The code a fault returns in `FAULT` (R240). -/
def FaultKind.code : FaultKind → BitVec 3
  | .outOfBounds => 1
  | .lengthExceeded => 2
  | .illegalCommand => 3
  | .capacityExceeded => 4

/-- The sticky bit of `FLT` a fault sets: bit `code - 1` (R240, R251). -/
def FaultKind.sticky : FaultKind → BitVec 4
  | .outOfBounds => 0b0001
  | .lengthExceeded => 0b0010
  | .illegalCommand => 0b0100
  | .capacityExceeded => 0b1000

/-- `FLT` after a fault: its bit set, the others unchanged (R246(b)). -/
def fltAfter (flt : BitVec 4) (f : FaultKind) : BitVec 4 := flt ||| f.sticky

/-- `CFG.FBE`, bit 0: float byte order, set for big-endian (R29). -/
def State.fbe (s : State) : Bool := s.cfg.getLsbD 0

end Sys2Proof.Machine
end

