-- ==== Sys2Proof/Machine/Operands.lean ====
section
/-! DEFINITION. The operand forms: the width argument of the primitive, byte counts and payloads, the
size of a command's span, and the byte view of a number. -/

namespace Sys2Proof.Machine

/-- A width of the primitive, 1 to 32, as a bounded type (R110). -/
abbrev Width := { w : Nat // 1 ≤ w ∧ w ≤ 32 }

/-- Width 8. -/
def Width.w8 : Width := ⟨8, by decide⟩

/-- Width 16. -/
def Width.w16 : Width := ⟨16, by decide⟩

/-- Width 32. -/
def Width.w32 : Width := ⟨32, by decide⟩

/-- The width that a `WIDTH` field holds, when it is in the primitive's domain (R74). -/
def Width.ofField (f : BitVec 6) : Option Width :=
  if h : 1 ≤ f.toNat ∧ f.toNat ≤ 32 then some ⟨f.toNat, h⟩ else none

/-- `LEN` as a byte count (R27). -/
def State.lenBytes (s : State) : Nat := s.op.len.toNat

/-- The check `|PIN| = LEN` of `WR.STR`, `WR.BYTES` and `ATTACH` (R243(c)). -/
def State.payloadFault (s : State) : Option FaultKind :=
  if s.op.pin.length = s.lenBytes then none else some .illegalCommand

/-- The check on the null string: `LEN` must be 0 (R75, R243(d)). -/
def State.nullLenFault (s : State) (nul : Bool) : Option FaultKind :=
  if nul ∧ s.lenBytes ≠ 0 then some .illegalCommand else none

/-- The check on the payload of the null string in `WR.STR`: `PIN` must be empty (R75, R243(d)). -/
def State.nullPinFault (s : State) (nul : Bool) : Option FaultKind :=
  if nul ∧ s.op.pin.length ≠ 0 then some .illegalCommand else none

/-- The string length limit (R187, R242). -/
def State.stringFault (s : State) : Option FaultKind :=
  if Config.strMax < s.lenBytes then some .lengthExceeded else none

/-- The bounds check of a span of `k` bits at the cursor: it fails when the span is not empty and a
bit of it lies beyond the buffer (R108, R109, R241). -/
def State.boundsFault (s : State) (k : Nat) : Option FaultKind :=
  if 0 < k ∧ 8 * s.buflen < s.cur + k then some .outOfBounds else none

/-- Whether a natural number does not fit a capacity of `bits` bits; `none` is unbounded (R6, R244). -/
def overCapacity (bits : Option Nat) (v : Nat) : Bool :=
  match bits with
  | none => false
  | some n => decide (2 ^ n ≤ v)

/-- The cursor capacity check of a commit by `k` bits: the cursor never wraps (R26, R244). -/
def State.cursorFault (s : State) (k : Nat) : Option FaultKind :=
  if overCapacity s.params.cursorBits (s.cur + k) then some .capacityExceeded else none

/-- The varint magnitude check (R148, R244). -/
def State.varintFault (s : State) (v : Nat) : Option FaultKind :=
  if overCapacity s.params.varintBits v then some .capacityExceeded else none

/-- The buffer capacity check of `ATTACH` (R217, R244). -/
def State.bufCapFault (s : State) (len : Nat) : Option FaultKind :=
  match s.params.bufCap with
  | none => none
  | some cap => if cap < len then some .capacityExceeded else none

/-- The `n` low bytes of a number, least significant first (R121, R161 with `FBE` = 0). -/
def leBytes (v n : Nat) : List Byte :=
  (List.range n).map fun j => BitVec.ofNat 8 (v >>> (8 * j))

/-- The number whose bytes, least significant first, are the list (R121, R161 with `FBE` = 0). -/
def leValue : List Byte → Nat
  | [] => 0
  | b :: bs => b.toNat ||| leValue bs <<< 8

end Sys2Proof.Machine
end

