-- ==== Sys2Proof/Machine/Ops.lean ====
section
/-! DEFINITION. The named operations over buffer and registers: reading and writing one byte, the
bit-integer primitive `PackBits` and `UnpackBits` (R100, R106), byte sequences, accepting a command,
fault entry (R246), commit (R212), and hardware reset (R270). There is no return from a fault beside
fault entry, because there is none (R247): the next command is simply accepted. -/

namespace Sys2Proof.Machine

/-- The byte listed at an index, if any. -/
def lookupCell (a : Nat) : List Host.Cell → Option Byte
  | [] => none
  | c :: rest => if c.1 = a then some c.2 else lookupCell a rest

/-- List a byte at an index, in place of the byte listed there before, keeping indices rising. -/
def insertCell (a : Nat) (b : Byte) : List Host.Cell → List Host.Cell
  | [] => [(a, b)]
  | c :: rest =>
    if a < c.1 then (a, b) :: c :: rest
    else if a = c.1 then (a, b) :: rest
    else c :: insertCell a b rest

/-- `MemRead(a, 1)` (R10, R52). An unlisted byte reads as the free value that hardware reset left
there (R270, U5): what an unlisted index reads as is this definition's second case. -/
def Memory.read (m : Memory) (a : Nat) : Byte :=
  match lookupCell a m.cells with
  | some b => b
  | none => Config.unwrittenByte m.epoch a

/-- `MemWrite(a, 1, b)` (R10, R52). -/
def Memory.write (m : Memory) (a : Nat) (b : Byte) : Memory :=
  { m with cells := insertCell a b m.cells }

/-- Bit offset `o` names bit `o mod 8` of byte `o div 8` (R51). -/
def Memory.bit (m : Memory) (o : Nat) : Bool := (m.read (o / 8)).getLsbD (o % 8)

/-- The buffer that `ATTACH` supplies: byte `i` is `bytes[i]`, every byte listed (R217). -/
def Memory.ofBytes (epoch : Nat) (bytes : List Byte) : Memory :=
  { epoch := epoch, cells := bytes.zipIdx.map fun p => (p.2, p.1) }

/-- The canonical form of a buffer of `len` bytes: listed indices strictly rising, all of them below
`len` (R21, R50). No listed byte can be compared with what an unlisted one reads as, a free value, so
every byte written stays listed. -/
abbrev Memory.wf (m : Memory) (len : Nat) : Prop :=
  (m.cells.map (·.1)).Pairwise (· < ·) ∧ ∀ c ∈ m.cells, c.1 < len

/-- The loop of R100: `i` byte index, `b` bit index within the byte, `rem` bits remaining, `v`
remaining value. Each pass consumes at least one bit, so the width is fuel enough. -/
def packLoop : Nat → Memory → Nat → Nat → Nat → Nat → Memory
  | 0, m, _, _, _, _ => m
  | fuel + 1, m, i, b, rem, v =>
    if rem = 0 then m
    else
      let n := min rem (8 - b)
      let low := 2 ^ n - 1
      let mask : Byte := BitVec.ofNat 8 low <<< b
      let bits : Byte := BitVec.ofNat 8 (v &&& low)
      packLoop fuel (m.write i ((m.read i &&& ~~~mask) ||| bits <<< b)) (i + 1) 0 (rem - n) (v >>> n)

/-- `PackBits(buf, off, val, w)`: the `w` low bits of `val` at bit offset `off` (R100). The bounds of
R109 are the caller's check (R10). -/
def packBits (m : Memory) (off val : Nat) (w : Width) : Memory :=
  packLoop w.val m (off / 8) (off % 8) w.val val

/-- The loop of R106: `res` accumulating result, `sh` running output shift. -/
def unpackLoop (m : Memory) : Nat → Nat → Nat → Nat → Nat → Nat → Nat
  | 0, _, _, _, res, _ => res
  | fuel + 1, i, b, rem, res, sh =>
    if rem = 0 then res
    else
      let n := min rem (8 - b)
      let bits := ((m.read i).toNat >>> b) &&& (2 ^ n - 1)
      unpackLoop m fuel (i + 1) 0 (rem - n) (res ||| bits <<< sh) (sh + n)

/-- `UnpackBits(buf, off, w)`: the unsigned number held by the `w` bits at bit offset `off` (R106). -/
def unpackBits (m : Memory) (off : Nat) (w : Width) : Nat :=
  unpackLoop m w.val (off / 8) (off % 8) w.val 0 0

/-- Bytes packed one after another as 8-bit units, the first at `off` (R121, R185, R200). -/
def packBytes (m : Memory) (off : Nat) : List Byte → Memory
  | [] => m
  | b :: bs => packBytes (packBits m off b.toNat Width.w8) (off + 8) bs

/-- `n` bytes unpacked one after another as 8-bit units, the first at `off` (R121, R185, R200). -/
def unpackBytes (m : Memory) (off : Nat) : Nat → List Byte
  | 0 => []
  | n + 1 => BitVec.ofNat 8 (unpackBits m off Width.w8) :: unpackBytes m (off + 8) n

/-- The response of a command that commits and returns nothing but `FAULT` and `ADV` (R28). -/
def Response.done (k : Nat) : Response :=
  { fault := 0, adv := k, rval := none, rlen := none, rnul := none, pout := none }

/-- The response of a read of an integer, varint or float kind (R28). -/
def Response.value (k v : Nat) : Response := { Response.done k with rval := some v }

/-- The response of `RD.BYTES` (R28, R202). -/
def Response.bytes (k : Nat) (n : BitVec 32) (bs : List Byte) : Response :=
  { Response.done k with rlen := some n, pout := some bs }

/-- The response of `RD.STR` (R28, R189). -/
def Response.string (k : Nat) (n : BitVec 32) (nul : Bool) (bs : List Byte) : Response :=
  { Response.bytes k n bs with rnul := some nul }

/-- The response of a faulting command: only `FAULT` and `ADV` hold values (R28, R246(c)). -/
def Response.faulted (f : FaultKind) : Response := { Response.done 0 with fault := f.code }

/-- FAULT ENTRY (R246): `BUF`, `BUFLEN`, `CUR`, `CFG` as before the command, the sticky bit set, the
fault response given, the dispatcher in `IDLE`. -/
def State.raise (s : State) (f : FaultKind) : State :=
  { s with flt := fltAfter s.flt f, resp := some (Response.faulted f), disp := .idle }

/-- COMMIT (R212 step 6): the cursor advances by `ADV`, the response is given, the dispatcher returns
to `IDLE`. -/
def State.commit (s : State) (r : Response) : State :=
  { s with cur := s.cur + r.adv, resp := some r, disp := .idle }

/-- A command whose checks found `fault` and whose effect, if they found none, is `done` (R212): a
fault skips transfer and commit. A command always answers (R248, R277). -/
def State.conclude (s : State) (fault : Option FaultKind) (done : State) :
    Host.Outcome State Fault Refusal :=
  .next (match fault with
    | some f => s.raise f
    | none => done)

/-- Accepting a command record: it fills the operand registers and the dispatcher becomes `BUSY`
(R212). `rest` is what the outside world does after it. -/
def State.accept (s : State) (c : Command) (rest : List HostMove) : State :=
  { s with op := c, host := rest, disp := .busy }

/-- HARDWARE RESET of a running block (R270): every register at its reset value, the buffer a new one
of the default length with unspecified contents. The parameters are the implementation's and stay. -/
def State.hardwareReset (s : State) (rest : List HostMove) : State :=
  { buf := { epoch := s.buf.epoch + 1, cells := [] }
    buflen := s.params.defaultBufBytes
    cur := 0
    cfg := 0
    flt := 0
    scr := (List.range Config.scratchBytes).map (Config.scratchByte (s.buf.epoch + 1))
    disp := .idle
    op := { cmd := 0, val := 0, len := 0, pin := [] }
    resp := none
    host := rest
    params := s.params }

/-- `MS.*`, generic: the cursor advances by `k` bits; `BUF` and `BUFLEN` are not consulted (R215). -/
def State.measure (s : State) (k : Nat) : Host.Outcome State Fault Refusal :=
  s.conclude (s.cursorFault k) (s.commit (Response.done k))

/-- `WR.*` of a fixed size, generic: bounds, capacity, then `buf` replaces the buffer (R212, R213). -/
def State.writeFixed (s : State) (k : Nat) (buf : Memory) : Host.Outcome State Fault Refusal :=
  s.conclude ((s.boundsFault k).or (s.cursorFault k)) ({ s with buf := buf }.commit (Response.done k))

/-- `RD.*` of a fixed size, generic: bounds, capacity, then `v` is returned (R212, R214). -/
def State.readFixed (s : State) (k v : Nat) : Host.Outcome State Fault Refusal :=
  s.conclude ((s.boundsFault k).or (s.cursorFault k)) (s.commit (Response.value k v))

end Sys2Proof.Machine
end

