-- ==== Sys2Proof/Machine/Bits.lean ====
section
/-! DEFINITION. The `UBITS` commands (R111 to R113). -/

namespace Sys2Proof.Machine

/-- `WR.UBITS` (R111). -/
def execWrUbits (width : BitVec 6) (s : State) : Host.Outcome State Fault Refusal :=
  match Width.ofField width with
  | none => .next (s.raise .illegalCommand)
  | some w => s.writeFixed w.val (packBits s.buf s.cur s.op.val w)

/-- `RD.UBITS` (R112). -/
def execRdUbits (width : BitVec 6) (s : State) : Host.Outcome State Fault Refusal :=
  match Width.ofField width with
  | none => .next (s.raise .illegalCommand)
  | some w => s.readFixed w.val (unpackBits s.buf s.cur w)

/-- `MS.UBITS` (R113): `VAL` is ignored. -/
def execMsUbits (width : BitVec 6) (s : State) : Host.Outcome State Fault Refusal :=
  match Width.ofField width with
  | none => .next (s.raise .illegalCommand)
  | some w => s.measure w.val

end Sys2Proof.Machine
end

