-- ==== Sys2Proof/Machine/Bytes.lean ====
section
/-! DEFINITION. The byte-array codec and its three commands (R200 to R205). -/

namespace Sys2Proof.Machine

/-- `WR.BYTES` (R201): an empty array is never out of bounds. -/
def execWrBytes (s : State) : Host.Outcome State Fault Refusal :=
  let k := 8 * s.lenBytes
  s.conclude (s.payloadFault.or <| (s.boundsFault k).or (s.cursorFault k))
    ({ s with buf := packBytes s.buf s.cur s.op.pin }.commit (Response.done k))

/-- `RD.BYTES` (R202). -/
def execRdBytes (s : State) : Host.Outcome State Fault Refusal :=
  let k := 8 * s.lenBytes
  s.conclude ((s.boundsFault k).or (s.cursorFault k))
    (s.commit (Response.bytes k s.op.len (unpackBytes s.buf s.cur s.lenBytes)))

/-- `MS.BYTES` (R203): `PIN` is not consulted. -/
def execMsBytes (s : State) : Host.Outcome State Fault Refusal := s.measure (8 * s.lenBytes)

end Sys2Proof.Machine
end

