-- ==== Sys2Proof/Machine/Control.lean ====
section
/-! DEFINITION. The control commands (R216 to R218). -/

namespace Sys2Proof.Machine

/-- `RESET` (R216): the cursor becomes 0; buffer, `CFG` and `FLT` are untouched. -/
def execReset (s : State) : Host.Outcome State Fault Refusal :=
  s.conclude none ({ s with cur := 0 }.commit (Response.done 0))

/-- `ATTACH` (R217): `PIN` becomes the buffer and `LEN` its length; the cursor is untouched. -/
def execAttach (s : State) : Host.Outcome State Fault Refusal :=
  s.conclude (s.payloadFault.or (s.bufCapFault s.lenBytes))
    ({ s with buf := Memory.ofBytes s.buf.epoch s.op.pin, buflen := s.lenBytes }.commit
      (Response.done 0))

/-- The check of `SETCFG`: bits 31:1 of `CFG` are reserved (R218, R243(e)). -/
def State.configFault (s : State) : Option FaultKind :=
  if 1 < s.op.val then some .illegalCommand else none

/-- `SETCFG` (R218). -/
def execSetcfg (s : State) : Host.Outcome State Fault Refusal :=
  s.conclude s.configFault ({ s with cfg := BitVec.ofNat 1 s.op.val }.commit (Response.done 0))

end Sys2Proof.Machine
end

