-- ==== Sys2Proof/Machine/FixedInt.lean ====
section
/-! DEFINITION. The fixed-width integer codec and its twelve commands (R120 to R133). -/

namespace Sys2Proof.Machine

/-- `PackU64`: eight 8-bit chunks, least significant first (R121). -/
def packU64 (m : Memory) (off val : Nat) : Memory := packBytes m off (leBytes val 8)

/-- `UnpackU64`: eight 8-bit chunks, least significant first (R121). -/
def unpackU64 (m : Memory) (off : Nat) : Nat := leValue (unpackBytes m off 8)

/-- `WR.U8` (R122). -/
def execWrU8 (s : State) : Host.Outcome State Fault Refusal :=
  s.writeFixed 8 (packBits s.buf s.cur s.op.val Width.w8)

/-- `RD.U8` (R123). -/
def execRdU8 (s : State) : Host.Outcome State Fault Refusal :=
  s.readFixed 8 (unpackBits s.buf s.cur Width.w8)

/-- `MS.U8` (R124). -/
def execMsU8 (s : State) : Host.Outcome State Fault Refusal := s.measure 8

/-- `WR.U16` (R125). -/
def execWrU16 (s : State) : Host.Outcome State Fault Refusal :=
  s.writeFixed 16 (packBits s.buf s.cur s.op.val Width.w16)

/-- `RD.U16` (R126). -/
def execRdU16 (s : State) : Host.Outcome State Fault Refusal :=
  s.readFixed 16 (unpackBits s.buf s.cur Width.w16)

/-- `MS.U16` (R127). -/
def execMsU16 (s : State) : Host.Outcome State Fault Refusal := s.measure 16

/-- `WR.U32` (R128). -/
def execWrU32 (s : State) : Host.Outcome State Fault Refusal :=
  s.writeFixed 32 (packBits s.buf s.cur s.op.val Width.w32)

/-- `RD.U32` (R129). -/
def execRdU32 (s : State) : Host.Outcome State Fault Refusal :=
  s.readFixed 32 (unpackBits s.buf s.cur Width.w32)

/-- `MS.U32` (R130). -/
def execMsU32 (s : State) : Host.Outcome State Fault Refusal := s.measure 32

/-- `WR.U64` (R131). -/
def execWrU64 (s : State) : Host.Outcome State Fault Refusal :=
  s.writeFixed 64 (packU64 s.buf s.cur s.op.val)

/-- `RD.U64` (R132). -/
def execRdU64 (s : State) : Host.Outcome State Fault Refusal :=
  s.readFixed 64 (unpackU64 s.buf s.cur)

/-- `MS.U64` (R133). -/
def execMsU64 (s : State) : Host.Outcome State Fault Refusal := s.measure 64

end Sys2Proof.Machine
end

