-- ==== Sys2Proof/Machine/Float.lean ====
section
/-! DEFINITION. The float codec and its nine commands (R160 to R174). A float is its bit pattern: the
block moves bits and neither converts nor rounds (R160). -/

namespace Sys2Proof.Machine

/-- `Deposit(p, m, FBE)`: the bytes of the pattern in `SCR[0]` to `SCR[m-1]`, least significant first,
or most significant first when `fbe`; the other scratch bytes are not written (R161). -/
def deposit (scr : List Byte) (p m : Nat) (fbe : Bool) : List Byte :=
  (if fbe then (leBytes p m).reverse else leBytes p m) ++ scr.drop m

/-- `SCR` after `UnpackF` has read `m` bytes into it (R161). -/
def collect (scr : List Byte) (buf : Memory) (off m : Nat) : List Byte :=
  unpackBytes buf off m ++ scr.drop m

/-- The pattern that `SCR[0]` to `SCR[m-1]` hold under a byte order (R161). -/
def scratchValue (scr : List Byte) (m : Nat) (fbe : Bool) : Nat :=
  leValue (if fbe then (scr.take m).reverse else scr.take m)

/-- The first `m` scratch bytes packed in ascending index (R161). -/
def packScratch (buf : Memory) (off : Nat) (scr : List Byte) (m : Nat) : Memory :=
  packBytes buf off (scr.take m)

/-- `PackF(buf, off, p, m, FBE)`, the buffer it returns (R161). -/
def packF (buf : Memory) (off p m : Nat) (fbe : Bool) (scr : List Byte) : Memory :=
  packScratch buf off (deposit scr p m fbe) m

/-- `UnpackF(buf, off, m, FBE)`, the pattern it returns (R161). -/
def unpackF (buf : Memory) (off m : Nat) (fbe : Bool) (scr : List Byte) : Nat :=
  scratchValue (collect scr buf off m) m fbe

/-- `WR.F*` of `m` bytes: checks, then the deposit into `SCR` and the pack from it (R161, R166, R169,
R172). -/
def State.writeFloat (s : State) (m : Nat) : Host.Outcome State Fault Refusal :=
  s.conclude ((s.boundsFault (8 * m)).or (s.cursorFault (8 * m)))
    ({ s with
        scr := deposit s.scr s.op.val m s.fbe
        buf := packF s.buf s.cur s.op.val m s.fbe s.scr }.commit (Response.done (8 * m)))

/-- `RD.F*` of `m` bytes: checks, then the bytes read into `SCR` and reinterpreted (R161, R167, R170,
R173). -/
def State.readFloat (s : State) (m : Nat) : Host.Outcome State Fault Refusal :=
  s.conclude ((s.boundsFault (8 * m)).or (s.cursorFault (8 * m)))
    ({ s with scr := collect s.scr s.buf s.cur m }.commit
      (Response.value (8 * m) (unpackF s.buf s.cur m s.fbe s.scr)))

/-- `WR.F16` (R166). -/
def execWrF16 (s : State) : Host.Outcome State Fault Refusal := s.writeFloat 2

/-- `RD.F16` (R167). -/
def execRdF16 (s : State) : Host.Outcome State Fault Refusal := s.readFloat 2

/-- `MS.F16` (R168). -/
def execMsF16 (s : State) : Host.Outcome State Fault Refusal := s.measure 16

/-- `WR.F32` (R169). -/
def execWrF32 (s : State) : Host.Outcome State Fault Refusal := s.writeFloat 4

/-- `RD.F32` (R170). -/
def execRdF32 (s : State) : Host.Outcome State Fault Refusal := s.readFloat 4

/-- `MS.F32` (R171). -/
def execMsF32 (s : State) : Host.Outcome State Fault Refusal := s.measure 32

/-- `WR.F64` (R172). -/
def execWrF64 (s : State) : Host.Outcome State Fault Refusal := s.writeFloat 8

/-- `RD.F64` (R173). -/
def execRdF64 (s : State) : Host.Outcome State Fault Refusal := s.readFloat 8

/-- `MS.F64` (R174). -/
def execMsF64 (s : State) : Host.Outcome State Fault Refusal := s.measure 64

end Sys2Proof.Machine
end

