-- ==== Sys2Proof/Machine/Str.lean ====
section
/-! DEFINITION. The string codec and its three commands (R185 to R191). The payload is opaque bytes:
UTF-8 is the host's (R191). -/

namespace Sys2Proof.Machine

/-- The bits a string of `len` bytes occupies (R185). -/
def stringBits (len : Nat) : Nat := 16 + 8 * len

/-- The prefix packed at `off`, then the payload bytes (R185, R188). -/
def packString (m : Memory) (off len : Nat) (bs : List Byte) : Memory :=
  packBytes (packBits m off len Width.w16) (off + 16) bs

/-- `WR.STR` (R188). -/
def execWrStr (nul : Bool) (s : State) : Host.Outcome State Fault Refusal :=
  let k := stringBits s.lenBytes
  s.conclude
    ((s.nullLenFault nul).or <| (s.nullPinFault nul).or <| s.payloadFault.or <| s.stringFault.or <|
      (s.boundsFault k).or (s.cursorFault k))
    ({ s with buf := packString s.buf s.cur s.lenBytes s.op.pin }.commit (Response.done k))

/-- `RD.STR` (R189): the prefix must be in the buffer, then the payload it declares; a zero prefix is
the null sentinel (R186). -/
def execRdStr (s : State) : Host.Outcome State Fault Refusal :=
  let len := unpackBits s.buf s.cur Width.w16
  let k := stringBits len
  s.conclude ((s.boundsFault 16).or <| (s.boundsFault k).or (s.cursorFault k))
    (s.commit (Response.string k (BitVec.ofNat 32 len) (len == 0)
      (unpackBytes s.buf (s.cur + 16) len)))

/-- `MS.STR` (R190): `PIN` is not consulted. -/
def execMsStr (nul : Bool) (s : State) : Host.Outcome State Fault Refusal :=
  let k := stringBits s.lenBytes
  s.conclude ((s.nullLenFault nul).or <| s.stringFault.or (s.cursorFault k))
    (s.commit (Response.done k))

end Sys2Proof.Machine
end

