-- ==== Sys2Proof/Machine/Varint.lean ====
section
/-! DEFINITION. The varint codec and its three commands (R140 to R148). -/

namespace Sys2Proof.Machine

/-- The loop of `VarintEnc` (R141). -/
def varintEncLoop : Nat → Nat → List Byte
  | 0, _ => []
  | fuel + 1, v =>
    let rest := v >>> Config.varintGroup
    if rest = 0 then [BitVec.ofNat 8 (v &&& 0x7F)]
    else BitVec.ofNat 8 ((v &&& 0x7F) ||| 0x80) :: varintEncLoop fuel rest

/-- `VarintEnc(v)` (R141). Each pass drops seven bits, so the bit length is fuel enough. -/
def varintEnc (v : Nat) : List Byte := varintEncLoop (v.log2 + 1) v

/-- The loop of `VarintLen` (R142). -/
def varintLenLoop : Nat → Nat → Nat
  | 0, _ => 0
  | fuel + 1, v =>
    let rest := v >>> Config.varintGroup
    if rest = 0 then 1 else 1 + varintLenLoop fuel rest

/-- `VarintLen(v)`, the number of bytes `VarintEnc(v)` has, without the encoding (R142). -/
def varintLen (v : Nat) : Nat := varintLenLoop (v.log2 + 1) v

/-- The loop of `VarintDec` in a buffer of `bits` bits: byte `k` is at `off + 8 * k`, its group at bit
`7 * k` of the value (R143). -/
def varintDecLoop (m : Memory) (bits off : Nat) : Nat → Nat → Nat → Option (Nat × Nat)
  | 0, _, _ => none
  | fuel + 1, k, res =>
    if bits < off + 8 * (k + 1) then none
    else
      let byte := unpackBits m (off + 8 * k) Width.w8
      let res' := res ||| (byte &&& 0x7F) <<< (Config.varintGroup * k)
      if byte &&& 0x80 = 0 then some (res', 8 * (k + 1))
      else varintDecLoop m bits off fuel (k + 1) res'

/-- `VarintDec(buf, off)`: the value and the number of bits consumed, or `none` for `OutOfBounds`
(R143). The scan stops at the end of the buffer (R277), so its length is fuel enough. -/
def varintDec (m : Memory) (buflen off : Nat) : Option (Nat × Nat) :=
  varintDecLoop m (8 * buflen) off (buflen + 1) 0 0

/-- `WR.UVAR` (R144). -/
def execWrUvar (s : State) : Host.Outcome State Fault Refusal :=
  let e := varintEnc s.op.val
  let k := 8 * e.length
  s.conclude ((s.boundsFault k).or ((s.varintFault s.op.val).or (s.cursorFault k)))
    ({ s with buf := packBytes s.buf s.cur e }.commit (Response.done k))

/-- `RD.UVAR` (R145). -/
def execRdUvar (s : State) : Host.Outcome State Fault Refusal :=
  let r := varintDec s.buf s.buflen s.cur
  s.conclude
    (match r with
      | none => some .outOfBounds
      | some (v, k) => (s.varintFault v).or (s.cursorFault k))
    (match r with
      | none => s
      | some (v, k) => s.commit (Response.value k v))

/-- `MS.UVAR` (R146). -/
def execMsUvar (s : State) : Host.Outcome State Fault Refusal :=
  let k := 8 * varintLen s.op.val
  s.conclude ((s.varintFault s.op.val).or (s.cursorFault k)) (s.commit (Response.done k))

end Sys2Proof.Machine
end

