-- ==== Sys2Proof/Machine/Dispatch.lean ====
section
/-! DEFINITION. The dispatcher's closed enumeration (R211): one arm per command of R79, each one direct
call of that command's meaning. -/

namespace Sys2Proof.Machine

def exec (i : Instr) (s : State) : Host.Outcome State Fault Refusal :=
  match i with
  | .wrUbits width => Sys2Proof.Machine.execWrUbits width s
  | .rdUbits width => Sys2Proof.Machine.execRdUbits width s
  | .msUbits width => Sys2Proof.Machine.execMsUbits width s
  | .wrU8 => Sys2Proof.Machine.execWrU8 s
  | .rdU8 => Sys2Proof.Machine.execRdU8 s
  | .msU8 => Sys2Proof.Machine.execMsU8 s
  | .wrU16 => Sys2Proof.Machine.execWrU16 s
  | .rdU16 => Sys2Proof.Machine.execRdU16 s
  | .msU16 => Sys2Proof.Machine.execMsU16 s
  | .wrU32 => Sys2Proof.Machine.execWrU32 s
  | .rdU32 => Sys2Proof.Machine.execRdU32 s
  | .msU32 => Sys2Proof.Machine.execMsU32 s
  | .wrU64 => Sys2Proof.Machine.execWrU64 s
  | .rdU64 => Sys2Proof.Machine.execRdU64 s
  | .msU64 => Sys2Proof.Machine.execMsU64 s
  | .wrUvar => Sys2Proof.Machine.execWrUvar s
  | .rdUvar => Sys2Proof.Machine.execRdUvar s
  | .msUvar => Sys2Proof.Machine.execMsUvar s
  | .wrF16 => Sys2Proof.Machine.execWrF16 s
  | .rdF16 => Sys2Proof.Machine.execRdF16 s
  | .msF16 => Sys2Proof.Machine.execMsF16 s
  | .wrF32 => Sys2Proof.Machine.execWrF32 s
  | .rdF32 => Sys2Proof.Machine.execRdF32 s
  | .msF32 => Sys2Proof.Machine.execMsF32 s
  | .wrF64 => Sys2Proof.Machine.execWrF64 s
  | .rdF64 => Sys2Proof.Machine.execRdF64 s
  | .msF64 => Sys2Proof.Machine.execMsF64 s
  | .wrStr nul => Sys2Proof.Machine.execWrStr nul s
  | .rdStr => Sys2Proof.Machine.execRdStr s
  | .msStr nul => Sys2Proof.Machine.execMsStr nul s
  | .wrBytes => Sys2Proof.Machine.execWrBytes s
  | .rdBytes => Sys2Proof.Machine.execRdBytes s
  | .msBytes => Sys2Proof.Machine.execMsBytes s
  | .reset => Sys2Proof.Machine.execReset s
  | .attach => Sys2Proof.Machine.execAttach s
  | .setcfg => Sys2Proof.Machine.execSetcfg s

end Sys2Proof.Machine
end

