-- ==== Sys2Proof/Machine/Step.lean ====
section
/-! DEFINITION. One step of the machine (R212): in `IDLE` it takes the next move of the outside world,
and a command, once accepted, is decoded and performed in the same step, so that no state in between
can be observed (R57). -/

namespace Sys2Proof.Machine

/-- Perform the command held in the operand registers: decode its word and give its meaning; a word
that selects no row of R79 raises `IllegalCommand` (R85, R212, R243(a)). -/
def State.perform (s : State) : Host.Outcome State Fault Refusal :=
  match decode s.op.cmd with
  | .ok i => exec i s
  | .error _ => .next (s.raise .illegalCommand)

/-- One step. In `BUSY` the accepted command is performed. In `IDLE` the outside world's next move is
taken: a command is accepted and performed, a hardware reset resets the block, and with no move
presented the block stays as it is. -/
def step (s : State) : Host.Outcome State Fault Refusal :=
  match s.disp, s.host with
  | .busy, _ => s.perform
  | .idle, [] => .next s
  | .idle, .command c :: rest => (s.accept c rest).perform
  | .idle, .hardwareReset :: rest => .next (s.hardwareReset rest)

/-- `s` with the command word of the table's bits presented as the next move, `VAL` and `LEN` 0 and
`PIN` empty, and the dispatcher ready to accept it. -/
def State.withFetchWord (s : State) (nbits w : Nat) : State :=
  { s with
    disp := .idle
    host := .command { cmd := BitVec.ofNat 32 (w % 2 ^ nbits), val := 0, len := 0, pin := [] } :: s.host }

end Sys2Proof.Machine
end

