-- ==== Sys2Proof/Machine/FloatValue.lean ====
section
/-! DEFINITION. The number a float pattern denotes (R164, R165). It is the meaning of a pattern for
the host: no command computes it, and no other definition of the model uses it (R160). -/

namespace Sys2Proof.Machine

/-- A number, an infinity or a NaN, as a pattern denotes it (R164). The sign is kept for a zero. -/
inductive FloatValue where
  /-- `sign * magnitude`. -/
  | finite (negative : Bool) (magnitude : Rat)
  /-- `sign * infinity`. -/
  | infinity (negative : Bool)
  /-- Not a number. -/
  | nan
  deriving DecidableEq, Repr

/-- The value of a pattern with `eb` exponent bits and `fb` fraction bits: sign on top, then the
exponent field with bias `2^(eb-1) - 1`, then the fraction (R164; R165). -/
def floatValue (eb fb : Nat) (p : Nat) : FloatValue :=
  let s := p.testBit (eb + fb)
  let e := p / 2 ^ fb % 2 ^ eb
  let f := p % 2 ^ fb
  let bias : Int := 2 ^ (eb - 1) - 1
  if e = 0 then .finite s ((f : Rat) * (2 : Rat) ^ (1 - bias - fb))
  else if e = 2 ^ eb - 1 then if f = 0 then .infinity s else .nan
  else .finite s ((1 + (f : Rat) / (2 ^ fb : Nat)) * (2 : Rat) ^ ((e : Int) - bias))

/-- `F16Value(p)`: 1 sign bit, 5 exponent bits, 10 mantissa bits (R164). -/
def f16Value (p : Nat) : FloatValue := floatValue 5 10 p

/-- The value of a binary32 pattern (R165, PRESUMED: the layout is general knowledge, G1). -/
def f32Value (p : Nat) : FloatValue := floatValue 8 23 p

/-- The value of a binary64 pattern (R165, PRESUMED: the layout is general knowledge, G1). -/
def f64Value (p : Nat) : FloatValue := floatValue 11 52 p

end Sys2Proof.Machine
end

