-- ==== Sys2Proof/Machine/HostView.lean ====
section
/-! DEFINITION. What the host sees and writes between commands: the numbered registers (R29), the
buffer (R30), the size it computes (R219), and the pseudo-commands of R80. None of it is a step. -/

namespace Sys2Proof.Machine

/-- A read of a numbered register (R29). The host reads registers only in `IDLE` (R275, U10): in
`BUSY` it has no such move, and there is no value. There are no registers but 0 to 3. -/
def State.readReg (s : State) (n : Nat) : Option Nat :=
  match s.disp, n with
  | .idle, 0 => some s.cur
  | .idle, 1 => some s.buflen
  | .idle, 2 => some s.cfg.toNat
  | .idle, 3 => some s.flt.toNat
  | _, _ => none

/-- The host's read of `BUF[i]`, in `IDLE`, for an index the buffer has (R30). -/
def State.readBuf (s : State) (i : Nat) : Option Byte :=
  match s.disp with
  | .idle => if i < s.buflen then some (s.buf.read i) else none
  | .busy => none

/-- The pseudo-command `SIZE`: the bytes a buffer needs for the bits counted by the cursor,
`ceil(CUR / 8)` (R80, R219, R276). -/
def State.requiredBytes (s : State) : Nat := (s.cur + 7) / 8

/-- The command record of an instruction with its operands (R70, R81). -/
def commandOf (i : Instr) (val : Nat) (len : BitVec 32) (pin : List Byte) : Command :=
  { cmd := encode i, val := val, len := len, pin := pin }

/-- `ATTACH [b0, ...]` as a command record (R81). -/
def attachCommand (bytes : List Byte) : Command :=
  commandOf .attach 0 (BitVec.ofNat 32 bytes.length) bytes

/-- `RESET` as a command record (R81). -/
def resetCommand : Command := commandOf .reset 0 0 []

/-- The pseudo-command `INIT [b0, ...]`: construct a stream over a buffer (R80). -/
def pseudoInit (bytes : List Byte) : List HostMove :=
  [.command (attachCommand bytes), .command resetCommand]

/-- The pseudo-command `ALLOC n`: a zeroed buffer, the cursor untouched (R80). -/
def pseudoAlloc (n : Nat) : List HostMove := [.command (attachCommand (List.replicate n 0))]

/-- The pseudo-command `REALLOC n`: a zeroed buffer, the cursor reset (R80). -/
def pseudoRealloc (n : Nat) : List HostMove := pseudoInit (List.replicate n 0)

end Sys2Proof.Machine
end

