-- ==== Sys2Proof/Safety.lean ====
section
/-! DEFINITION. The terms the claims are stated in: the invariant of the machine, what a fault and a
commit leave behind written out register by register, what it is for a buffer to hold a span of bits,
the room conditions of R241 and R244, and the reserved and illegal cases of R82 and R243. -/

namespace Sys2Proof.Machine

/-- A legal response: a code of R240 (5 to 7 are never returned), and after a fault no value but
`FAULT` and `ADV` = 0 (R28, R246(c)). -/
def Response.Legal (r : Response) : Prop :=
  r.fault.toNat ≤ 4 ∧
    (r.fault ≠ 0 → r = { fault := r.fault, adv := 0, rval := none, rlen := none, rnul := none, pout := none })

/-- The invariant of the machine. -/
structure State.Inv (s : State) : Prop where
  /-- The buffer is in canonical form and lists no index at or above `BUFLEN` (R21, R50). -/
  buf_wf : s.buf.wf s.buflen
  /-- `SCR` is `SCR[0]` to `SCR[7]` (R31). -/
  scr_length : s.scr.length = 8
  /-- `CUR` is below `2^CURSOR_BITS` (R26, R29). -/
  cur_lt : ∀ n, s.params.cursorBits = some n → s.cur < 2 ^ n
  /-- `BUFLEN` is at most `BUF_CAP` (R29). -/
  buflen_le : ∀ cap, s.params.bufCap = some cap → s.buflen ≤ cap
  /-- `DEFAULT_BUF_BYTES` is at most `BUF_CAP` (U6). -/
  default_le : ∀ cap, s.params.bufCap = some cap → s.params.defaultBufBytes ≤ cap
  /-- The last response is a legal one. -/
  resp_legal : ∀ r, s.resp = some r → r.Legal

/-- No fault has been recorded since hardware reset (R251). -/
def State.noFaultRecorded (s : State) : Prop := s.flt = 0

/-- A run is safe when no step stops: every outcome is a next state. -/
def State.answers (s : State) : Prop := ∃ t, step s = .next t

/-- The code in `FAULT` after a command, if the outcome is a next state that holds a response. -/
def faultCode : Host.Outcome State Fault Refusal → Option (BitVec 3)
  | .next t => t.resp.map (·.fault)
  | .fault _ | .refused _ => none

/-- `ADV` after a command, if the outcome is a next state that holds a response. -/
def advance : Host.Outcome State Fault Refusal → Option Nat
  | .next t => t.resp.map (·.adv)
  | .fault _ | .refused _ => none

/-- R246 written out: the state after a fault with a code and a sticky bit. -/
def State.afterFault (s : State) (code : BitVec 3) (sticky : BitVec 4) : State :=
  { s with
    flt := s.flt ||| sticky
    resp := some { fault := code, adv := 0, rval := none, rlen := none, rnul := none, pout := none }
    disp := .idle }

/-- After `OutOfBounds`: code 1, bit 0 of `FLT` (R240). -/
def State.afterOutOfBounds (s : State) : State := s.afterFault 1 0b0001

/-- After `LengthExceeded`: code 2, bit 1 of `FLT` (R240). -/
def State.afterLengthExceeded (s : State) : State := s.afterFault 2 0b0010

/-- After `IllegalCommand`: code 3, bit 2 of `FLT` (R240). -/
def State.afterIllegalCommand (s : State) : State := s.afterFault 3 0b0100

/-- After `CapacityExceeded`: code 4, bit 3 of `FLT` (R240). -/
def State.afterCapacityExceeded (s : State) : State := s.afterFault 4 0b1000

/-- R212 step 6 written out: `CUR` and `ADV` by `k`, `FAULT` 0, the result registers as given. -/
def State.afterCommit (s : State) (k : Nat) (rval : Option Nat) (rlen : Option (BitVec 32))
    (rnul : Option Bool) (pout : Option (List Byte)) : State :=
  { s with
    cur := s.cur + k
    resp := some { fault := 0, adv := k, rval := rval, rlen := rlen, rnul := rnul, pout := pout }
    disp := .idle }

/-- A commit that returns nothing but `FAULT` and `ADV`. -/
def State.afterAdvance (s : State) (k : Nat) : State := s.afterCommit k none none none none

/-- A commit that returns `RVAL`. -/
def State.afterValue (s : State) (k v : Nat) : State := s.afterCommit k (some v) none none none

/-- Every bit of the span of `k` bits at `CUR` is in the buffer (R241). -/
def State.SpanFits (s : State) (k : Nat) : Prop := s.cur + k ≤ 8 * s.buflen

/-- The cursor has room for a commit by `k` bits (R26, R244). -/
def State.CursorRoom (s : State) (k : Nat) : Prop :=
  ∀ n, s.params.cursorBits = some n → s.cur + k < 2 ^ n

/-- A varint value is below `2^VARINT_BITS` (R148, R244). -/
def State.VarintRoom (s : State) (v : Nat) : Prop := ∀ n, s.params.varintBits = some n → v < 2 ^ n

/-- A buffer length is at most `BUF_CAP` (R217, R244). -/
def State.BufferRoom (s : State) (len : Nat) : Prop := ∀ cap, s.params.bufCap = some cap → len ≤ cap

/-- All three capacities are unbounded (R6). -/
def State.Unbounded (s : State) : Prop :=
  s.params.cursorBits = none ∧ s.params.varintBits = none ∧ s.params.bufCap = none

/-- `m'` is `m` with bit `i` of the span of `k` bits at `off` equal to `bits i`, and nothing else
changed: every other bit, and every byte no bit of the span lies in, reads as before (R105, R213). -/
def SpanHolds (m m' : Memory) (off k : Nat) (bits : Nat → Bool) : Prop :=
  (∀ i, i < k → m'.bit (off + i) = bits i) ∧
  (∀ o, o < off ∨ off + k ≤ o → m'.bit o = m.bit o) ∧
  (∀ a, k = 0 ∨ 8 * a + 8 ≤ off ∨ off + k ≤ 8 * a → m'.read a = m.read a)

/-- `v` is the number below `2^k` whose bit `i` is the bit at `off + i` (R107). -/
def HeldAt (m : Memory) (off k v : Nat) : Prop :=
  v < 2 ^ k ∧ ∀ i, i < k → v.testBit i = m.bit (off + i)

/-- `bs` are the `n` bytes held one after another at `off`, least significant bit first (R200). -/
def BytesHeldAt (m : Memory) (off n : Nat) (bs : List Byte) : Prop :=
  bs.length = n ∧ ∀ j, j < n → ∀ b, b < 8 → (bs.getD j 0).getLsbD b = m.bit (off + 8 * j + b)

/-- Bit `i` of a sequence of bytes, least significant bit of the first byte first (R200). -/
def bitOfBytes (bs : List Byte) (i : Nat) : Bool := (bs.getD (i / 8) 0).getLsbD (i % 8)

/-- The number of bytes of the varint encoding, in closed form (R142). -/
def varintBytes (v : Nat) : Nat := if v = 0 then 1 else (v.size + 6) / 7

/-- Bit `i` of the varint encoding: bits 6:0 of byte `j` are bits `7j+6 : 7j` of the value, bit 7 is
the continuation flag (R140). -/
def varintBit (v i : Nat) : Bool :=
  if i % 8 < 7 then v.testBit (7 * (i / 8) + i % 8) else decide (i / 8 + 1 < varintBytes v)

/-- The varint at the cursor ends with byte `k`: the continuation flag is set in the bytes before it
and clear in it (R143). -/
def State.VarintEndsAt (s : State) (k : Nat) : Prop :=
  (∀ j, j < k → s.buf.bit (s.cur + 8 * j + 7) = true) ∧ s.buf.bit (s.cur + 8 * k + 7) = false

/-- `v` is the value of the `k + 1` varint bytes at the cursor: group `j` at bits `7j+6 : 7j`, no limit
on the shift (R143). -/
def State.VarintValue (s : State) (k v : Nat) : Prop :=
  v < 2 ^ (7 * (k + 1)) ∧
    ∀ j, j ≤ k → ∀ b, b < 7 → v.testBit (7 * j + b) = s.buf.bit (s.cur + 8 * j + b)

/-- The index of the pattern's byte that is packed as byte `j` of `m` under a byte order (R161). -/
def floatByteIndex (bigEndian : Bool) (m j : Nat) : Nat := if bigEndian then m - 1 - j else j

/-- Bit `i` of the encoding of a float pattern of `m` bytes (R161, R162). -/
def floatBit (bigEndian : Bool) (m p i : Nat) : Bool :=
  p.testBit (8 * floatByteIndex bigEndian m (i / 8) + i % 8)

/-- The size table of R215, for the write and measure commands. -/
def spanSize (i : Instr) (c : Command) : Nat :=
  match i with
  | .wrUbits w | .msUbits w => w.toNat
  | .wrU8 | .msU8 => 8
  | .wrU16 | .msU16 | .wrF16 | .msF16 => 16
  | .wrU32 | .msU32 | .wrF32 | .msF32 => 32
  | .wrU64 | .msU64 | .wrF64 | .msF64 => 64
  | .wrUvar | .msUvar => 8 * varintBytes c.val
  | .wrStr _ | .msStr _ => 16 + 8 * c.len.toNat
  | .wrBytes | .msBytes => 8 * c.len.toNat
  | .rdUbits _ | .rdU8 | .rdU16 | .rdU32 | .rdU64 | .rdUvar | .rdF16 | .rdF32 | .rdF64 => 0
  | .rdStr | .rdBytes | .reset | .attach | .setcfg => 0

/-- The measure command and the write command of one kind (R72, R73). -/
def measureWritePairs : List (Instr × Instr) :=
  [(.msU8, .wrU8), (.msU16, .wrU16), (.msU32, .wrU32), (.msU64, .wrU64), (.msUvar, .wrUvar)]
  ++ [(.msF16, .wrF16), (.msF32, .wrF32), (.msF64, .wrF64), (.msBytes, .wrBytes)]
  ++ [(.msStr false, .wrStr false), (.msStr true, .wrStr true)]
  ++ (List.range 64).map fun w => (.msUbits (BitVec.ofNat 6 w), .wrUbits (BitVec.ofNat 6 w))

/-- The reserved encodings of R82, cases (a) to (f), from the bits of the word. -/
def ReservedWord (w : Word) : Prop :=
  let mode := w.toNat % 4
  let kind := w.toNat / 4 % 16
  let width := w.toNat / 64 % 64
  let nul := w.toNat / 4096 % 2
  w.toNat / 8192 ≠ 0 ∨
  (mode < 3 ∧ 11 ≤ kind) ∨
  (mode = 3 ∧ 3 ≤ kind) ∨
  (width ≠ 0 ∧ (mode = 3 ∨ kind ≠ 0)) ∨
  (mode < 3 ∧ kind = 0 ∧ (width = 0 ∨ 32 < width)) ∨
  (nul = 1 ∧ ¬(kind = 9 ∧ (mode = 0 ∨ mode = 2)))

/-- The cases of R243, (a) to (e), decided from the command record alone. -/
def IllegalRecord (c : Command) : Prop :=
  ReservedWord c.cmd ∨
  ((c.cmd = 0x24 ∨ c.cmd = 0x1024 ∨ c.cmd = 0x28 ∨ c.cmd = 0x07) ∧ c.pin.length ≠ c.len.toNat) ∨
  ((c.cmd = 0x1024 ∨ c.cmd = 0x1026) ∧ c.len ≠ 0) ∨
  (c.cmd = 0x1024 ∧ c.pin ≠ []) ∨
  (c.cmd = 0x0B ∧ 1 < c.val)

end Sys2Proof.Machine
end

