-- ==== Sys2Proof/Certificates/Slice0/Obligations.lean ====
section
/-! DEFINITION. The statements for the provers. Each says which rules of the spec it formalises. -/

open Sys2Proof Sys2Proof.Machine

/-! ### Encoding -/

/-- R71, R79, R85. Decoding and encoding agree both ways: every instruction, with `WIDTH` and `NUL` at
every value the fields admit, decodes back to itself, and every word that decodes is the word of the
instruction it decodes to, so that each word has one meaning. -/
def Obligations.DecodeInvertsEncode : Prop :=
  (∀ i, decode (encode i) = .ok i) ∧ ∀ w i, decode w = .ok i → encode i = w

/-- R79. A word decodes to an instruction exactly when it selects a row, the row it selects is that
instruction's, and no word selects two of the 36 rows. -/
def Obligations.DecodeSelectsTheRow : Prop :=
  opcodeRows.length = 36 ∧
  (∀ w, (∃ i, decode w = .ok i) ↔ ∃ r ∈ opcodeRows, r.selects w = true) ∧
  (∀ w i, decode w = .ok i → i.row ∈ opcodeRows ∧ i.row.selects w = true) ∧
  opcodeRows.Pairwise fun r r' => ∀ w, ¬(r.selects w = true ∧ r'.selects w = true)

/-- R82. A word is reserved exactly when it does not decode to a well-formed instruction. -/
def Obligations.ReservedIffNotWellFormed : Prop :=
  ∀ w, ReservedWord w ↔ ¬∃ i, decode w = .ok i ∧ i.wellFormed = true

/-- R82. Every reserved encoding raises `IllegalCommand` and changes no state but `FLT`: the operand
registers hold the command presented, and the response is the fault's. -/
def Obligations.ReservedWordRaisesIllegal : Prop :=
  ∀ s c rest, s.disp = .idle → s.host = .command c :: rest → ReservedWord c.cmd →
    step s = .next { s.afterIllegalCommand with op := c, host := rest }

/-- R79, R82. Words written out from the field tables decode to the commands they stand for, and
reserved ones to nothing. -/
def Obligations.WrittenWordsDecode : Prop :=
  decode 0x000000C0 = .ok (.wrUbits 3) ∧ decode 0x00000801 = .ok (.rdUbits 32) ∧
  decode 0x00000012 = .ok .msU64 ∧ decode 0x00000014 = .ok .wrUvar ∧
  decode 0x0000001D = .ok .rdF32 ∧ decode 0x00001024 = .ok (.wrStr true) ∧
  decode 0x00000029 = .ok .rdBytes ∧ decode 0x0000000B = .ok .setcfg ∧
  decode 0x0000002C = .error .reservedKind ∧ decode 0x0000000F = .error .reservedFunc ∧
  decode 0x00000044 = .error .widthNotZero ∧ decode 0x00001025 = .error .nulSet ∧
  decode 0x80000003 = .error .reservedBits

/-! ### The step -/

/-- R70, R212, R226. When the next move is a command whose word decodes to `i`, the step is `exec i`
on the state that has accepted it: its record in the operand registers, the dispatcher `BUSY`, the
moves after it remaining. A block that has accepted a command performs it whatever else is to come,
and a block with no command presented stays as it is. -/
def Obligations.StepRunsDecodedCommand : Prop :=
  (∀ s c rest i, s.disp = .idle → s.host = .command c :: rest → decode c.cmd = .ok i →
    step s = exec i { s with op := c, host := rest, disp := .busy }) ∧
  (∀ s i, s.disp = .busy → decode s.op.cmd = .ok i → step s = exec i s) ∧
  (∀ s, s.disp = .idle → s.host = [] → step s = .next s)

/-- R270. Hardware reset of a running block: `CUR`, `CFG` and `FLT` are 0, `BUFLEN` is
`DEFAULT_BUF_BYTES`, the dispatcher is `IDLE`, the result registers hold no value, and no byte of the
buffer has a value the model names (none is listed). -/
def Obligations.HardwareResetSetsState : Prop :=
  ∀ s rest, s.disp = .idle → s.host = .hardwareReset :: rest →
    ∃ t, step s = .next t ∧ t.cur = 0 ∧ t.cfg = 0 ∧ t.flt = 0 ∧
      t.buflen = s.params.defaultBufBytes ∧ t.disp = .idle ∧ t.resp = none ∧ t.buf.cells = [] ∧
      t.scr.length = 8 ∧ t.host = rest ∧ t.params = s.params

/-- R270. The state after hardware reset: the values the spec gives. -/
def Obligations.ResetValues : Prop :=
  State.reset.cur = 0 ∧ State.reset.buflen = Config.defaultBufBytes ∧ State.reset.cfg = 0 ∧
  State.reset.flt = 0 ∧ State.reset.disp = .idle ∧ State.reset.resp = none ∧
  State.reset.buf.cells = [] ∧ State.reset.Unbounded

/-- R277, R246(d), R212, R226. Every step of every state answers a next state; the dispatcher is then
`IDLE`; and the moves of the outside world are taken one at a time, in order. -/
def Obligations.EveryStepAnswers : Prop :=
  ∀ s, ∃ t, step s = .next t ∧ t.disp = .idle ∧ t.params = s.params ∧
    (s.disp = .idle → t.host = s.host.tail) ∧ (s.disp = .busy → t.host = s.host)

/-! ### The bit-integer primitive -/

/-- R105. The closed form of pack: bit `i` of the value at bit offset `off + i`, every other bit of the
buffer as before; and no other buffer agrees, bit for bit, with that description. -/
def Obligations.PackBitsClosedForm : Prop :=
  ∀ m off val w, SpanHolds m (packBits m off val w) off w.val (fun i => val.testBit i) ∧
    ∀ m', SpanHolds m m' off w.val (fun i => val.testBit i) →
      ∀ a, m'.read a = (packBits m off val w).read a

/-- R107. The closed form of unpack, and the round trip. -/
def Obligations.UnpackBitsClosedForm : Prop :=
  ∀ m off w, HeldAt m off w.val (unpackBits m off w) ∧
    ∀ val, unpackBits (packBits m off val w) off w = val % 2 ^ w.val

/-- R102, R103. A second pack of the same span leaves the buffer as if the first had not been, and
only the low `w` bits of the value are used. -/
def Obligations.PackBitsOverwritesAndTruncates : Prop :=
  ∀ m len off v1 v2 w, m.wf len → off + w.val ≤ 8 * len →
    packBits (packBits m off v1 w) off v2 w = packBits m off v2 w ∧
    packBits m off v1 w = packBits m off (v1 % 2 ^ w.val) w

/-- R114. Packing `w1` bits and then the next `w2` bits is packing them together, and likewise for
unpacking. -/
def Obligations.PackBitsConcatenates : Prop :=
  ∀ m len off val (w1 w2 w : Width), w.val = w1.val + w2.val → m.wf len → off + w.val ≤ 8 * len →
    packBits (packBits m off val w1) (off + w1.val) (val >>> w1.val) w2 = packBits m off val w ∧
    unpackBits m off w1 ||| unpackBits m (off + w1.val) w2 <<< w1.val = unpackBits m off w

/-! ### The codecs -/

/-- R121, R114. The 64-bit codec: bit `i` of the value at bit offset `off + i`, and back. -/
def Obligations.U64ChunksLayout : Prop :=
  ∀ m off val, SpanHolds m (packU64 m off val) off 64 (fun i => val.testBit i) ∧
    HeldAt m off 64 (unpackU64 m off)

/-- R135. At a byte-aligned offset the 16, 32 and 64-bit codecs store the value little-endian: byte
`off / 8 + j` receives bits `8j+7 : 8j`. -/
def Obligations.AlignedLittleEndian : Prop :=
  ∀ m a val,
    (∀ j, j < 2 → (packBits m (8 * a) val Width.w16).read (a + j) = BitVec.ofNat 8 (val >>> (8 * j))) ∧
    (∀ j, j < 4 → (packBits m (8 * a) val Width.w32).read (a + j) = BitVec.ofNat 8 (val >>> (8 * j))) ∧
    (∀ j, j < 8 → (packU64 m (8 * a) val).read (a + j) = BitVec.ofNat 8 (val >>> (8 * j)))

/-- R140, R141, R142. The varint encoding: `VarintLen` bytes, which is 1 for 0 and the ceiling of the
bit length over 7 otherwise; bit by bit the groups of the value with their continuation flags; and
the last byte non-zero unless the value is 0. -/
def Obligations.VarintEncodingShape : Prop :=
  ∀ v, (varintEnc v).length = varintLen v ∧ varintLen v = varintBytes v ∧
    (∀ i, i < 8 * varintBytes v → bitOfBytes (varintEnc v) i = varintBit v i) ∧
    (v ≠ 0 → (varintEnc v).getD (varintBytes v - 1) 0 ≠ 0)

/-- R150. The varint round trip: a value packed at `off` is decoded there, with its length in bits, in
every buffer long enough to hold the encoding. -/
def Obligations.VarintDecodesItsEncoding : Prop :=
  ∀ m len off v, off + 8 * varintLen v ≤ 8 * len →
    varintDec (packBytes m off (varintEnc v)) len off = some (v, 8 * varintLen v)

/-- R147. A non-minimal encoding is accepted and its trailing zero groups contribute nothing: the
value's own bytes with every continuation flag set, then any number of `0x80` bytes, then `0x00`. -/
def Obligations.NonMinimalVarintAccepted : Prop :=
  ∀ m len off v n,
    let body := (varintEnc v).map (· ||| 0x80)
    off + 8 * (body.length + n + 1) ≤ 8 * len →
      varintDec (packBytes m off (body ++ List.replicate n 0x80 ++ [0x00])) len off =
        some (v, 8 * (body.length + n + 1))

/-- R162. The closed form of the float codec, for 2, 4 and 8 bytes: with `FBE` = 0 it is the integer
codec of the same width; with `FBE` = 1 it is the codec of `FBE` = 0 on the pattern with its bytes
reversed. The scratch region the command starts with does not matter. -/
def Obligations.FloatCodecClosedForm : Prop :=
  ∀ m len off p scr, m.wf len →
    (off + 16 ≤ 8 * len → packF m off p 2 false scr = packBits m off p Width.w16) ∧
    (off + 32 ≤ 8 * len → packF m off p 4 false scr = packBits m off p Width.w32) ∧
    packF m off p 8 false scr = packU64 m off p ∧
    unpackF m off 2 false scr = unpackBits m off Width.w16 ∧
    unpackF m off 4 false scr = unpackBits m off Width.w32 ∧
    unpackF m off 8 false scr = unpackU64 m off ∧
    ∀ n, packF m off p n true scr = packF m off (leValue (leBytes p n).reverse) n false scr

/-- R163. A float of 2, 4 or 8 bytes written under one byte order and read under the other comes back
with its bytes reversed; read under the same order it comes back as written, reduced to its width. -/
def Obligations.FloatByteOrderMismatch : Prop :=
  ∀ m off p scr scr' order, ∀ n ∈ [2, 4, 8],
    unpackF (packF m off p n order scr) off n order scr' = p % 2 ^ (8 * n) ∧
    unpackF (packF m off p n order scr) off n (!order) scr' = leValue (leBytes p n).reverse

/-- R164. The number a binary16 pattern denotes, by its sign bit, exponent field and mantissa field. -/
def Obligations.Binary16Value : Prop :=
  ∀ s e f : Nat, s < 2 → e < 32 → f < 1024 →
    let p := 32768 * s + 1024 * e + f
    let negative := decide (s = 1)
    (e = 0 → f16Value p = .finite negative ((f : Rat) * (1 / 16777216))) ∧
    (e = 31 → f = 0 → f16Value p = .infinity negative) ∧
    (e = 31 → f ≠ 0 → f16Value p = .nan) ∧
    (0 < e → e < 15 → f16Value p = .finite negative ((1 + (f : Rat) / 1024) / (2 : Rat) ^ (15 - e))) ∧
    (15 ≤ e → e < 31 → f16Value p = .finite negative ((1 + (f : Rat) / 1024) * (2 : Rat) ^ (e - 15)))

/-! ### The write commands -/

/-- A write of `k` bits with command word `cmd`, every outcome of its rule: `OutOfBounds` when the
span does not fit the buffer, else `CapacityExceeded` when the cursor has no room, else the span of
`k` bits at the cursor holds `bits`, the cursor has advanced by `k`, and nothing else has changed. -/
def Sys2Proof.Machine.WritesSpan (cmd : Word) (i : Instr) (k : Nat) (bits : State → Nat → Bool) : Prop :=
  decode cmd = .ok i ∧ ∀ s : State,
    (¬s.SpanFits k → exec i s = .next s.afterOutOfBounds) ∧
    (s.SpanFits k → ¬s.CursorRoom k → exec i s = .next s.afterCapacityExceeded) ∧
    (s.SpanFits k → s.CursorRoom k →
      ∃ m, exec i s = .next { s.afterAdvance k with buf := m } ∧ SpanHolds s.buf m s.cur k (bits s))

/-- R111. `WR.UBITS`: a width of 0 or above 32 raises `IllegalCommand` before anything else; otherwise
the low `w` bits of `VAL` are written. -/
def Obligations.WriteUbitsRule : Prop :=
  (∀ width s, width.toNat = 0 ∨ 32 < width.toNat →
    exec (.wrUbits width) s = .next s.afterIllegalCommand) ∧
  ∀ width, 1 ≤ width.toNat → width.toNat ≤ 32 →
    WritesSpan (BitVec.ofNat 32 (0x00 ||| width.toNat <<< 6)) (.wrUbits width) width.toNat
      fun s i => s.op.val.testBit i

/-- R122, R125, R128, R131. `WR.U8`, `WR.U16`, `WR.U32`, `WR.U64`: the low 8, 16, 32, 64 bits of `VAL`
are written. -/
def Obligations.WriteFixedIntegerRules : Prop :=
  WritesSpan 0x04 .wrU8 8 (fun s i => s.op.val.testBit i) ∧
  WritesSpan 0x08 .wrU16 16 (fun s i => s.op.val.testBit i) ∧
  WritesSpan 0x0C .wrU32 32 (fun s i => s.op.val.testBit i) ∧
  WritesSpan 0x10 .wrU64 64 (fun s i => s.op.val.testBit i)

/-- R144. `WR.UVAR`: `OutOfBounds` before the varint ceiling before the cursor's; then the bytes of the
encoding of `VAL`. -/
def Obligations.WriteVarintRule : Prop :=
  decode 0x14 = .ok .wrUvar ∧ ∀ s : State,
    let k := 8 * varintBytes s.op.val
    (¬s.SpanFits k → exec .wrUvar s = .next s.afterOutOfBounds) ∧
    (s.SpanFits k → ¬(s.VarintRoom s.op.val ∧ s.CursorRoom k) →
      exec .wrUvar s = .next s.afterCapacityExceeded) ∧
    (s.SpanFits k → s.VarintRoom s.op.val → s.CursorRoom k →
      ∃ m, exec .wrUvar s = .next { s.afterAdvance k with buf := m } ∧
        SpanHolds s.buf m s.cur k (varintBit s.op.val))

/-- R161, R166, R169, R172. A float write of `n` bytes with command word `cmd`: the checks of a write
of `8n` bits; then the bytes of the pattern in the order `CFG.FBE` selects, deposited in `SCR[0]` to
`SCR[n-1]` and packed. -/
def Sys2Proof.Machine.WritesFloat (cmd : Word) (i : Instr) (n : Nat) : Prop :=
  decode cmd = .ok i ∧ ∀ s : State,
    let big := decide (s.cfg = 1)
    (¬s.SpanFits (8 * n) → exec i s = .next s.afterOutOfBounds) ∧
    (s.SpanFits (8 * n) → ¬s.CursorRoom (8 * n) → exec i s = .next s.afterCapacityExceeded) ∧
    (s.SpanFits (8 * n) → s.CursorRoom (8 * n) →
      ∃ m scr, exec i s = .next { s.afterAdvance (8 * n) with buf := m, scr := scr } ∧
        SpanHolds s.buf m s.cur (8 * n) (floatBit big n s.op.val) ∧
        scr.drop n = s.scr.drop n ∧
        ∀ j, j < n → scr[j]? = some (BitVec.ofNat 8 (s.op.val >>> (8 * floatByteIndex big n j))))

/-- R166, R169, R172. `WR.F16`, `WR.F32`, `WR.F64`. -/
def Obligations.WriteFloatRules : Prop :=
  WritesFloat 0x18 .wrF16 2 ∧ WritesFloat 0x1C .wrF32 4 ∧ WritesFloat 0x20 .wrF64 8

/-- R188, R186. `WR.STR`: the operand checks, the length limit, the bounds and the capacity, in that
order; then the 16-bit prefix and the payload. The null string and the empty string write the same. -/
def Obligations.WriteStringRule : Prop :=
  (∀ nul : Bool, decode (BitVec.ofNat 32 (0x24 ||| nul.toNat <<< 12)) = .ok (.wrStr nul)) ∧
  ∀ (nul : Bool) (s : State),
    let len := s.op.len.toNat
    let k := 16 + 8 * len
    let legal := (nul = true → len = 0 ∧ s.op.pin = []) ∧ s.op.pin.length = len
    (¬legal → exec (.wrStr nul) s = .next s.afterIllegalCommand) ∧
    (legal → 65535 < len → exec (.wrStr nul) s = .next s.afterLengthExceeded) ∧
    (legal → len ≤ 65535 → ¬s.SpanFits k → exec (.wrStr nul) s = .next s.afterOutOfBounds) ∧
    (legal → len ≤ 65535 → s.SpanFits k → ¬s.CursorRoom k →
      exec (.wrStr nul) s = .next s.afterCapacityExceeded) ∧
    (legal → len ≤ 65535 → s.SpanFits k → s.CursorRoom k →
      ∃ m, exec (.wrStr nul) s = .next { s.afterAdvance k with buf := m } ∧
        SpanHolds s.buf m s.cur k fun i =>
          if i < 16 then len.testBit i else bitOfBytes s.op.pin (i - 16))

/-- R201. `WR.BYTES`: the payload check, the bounds of a non-empty span, the capacity; then the bytes.
An empty array is never out of bounds and changes no byte. -/
def Obligations.WriteBytesRule : Prop :=
  decode 0x28 = .ok .wrBytes ∧ ∀ s : State,
    let len := s.op.len.toNat
    let k := 8 * len
    (s.op.pin.length ≠ len → exec .wrBytes s = .next s.afterIllegalCommand) ∧
    (s.op.pin.length = len → 0 < len → ¬s.SpanFits k → exec .wrBytes s = .next s.afterOutOfBounds) ∧
    (s.op.pin.length = len → (len = 0 ∨ s.SpanFits k) → ¬s.CursorRoom k →
      exec .wrBytes s = .next s.afterCapacityExceeded) ∧
    (s.op.pin.length = len → (len = 0 ∨ s.SpanFits k) → s.CursorRoom k →
      ∃ m, exec .wrBytes s = .next { s.afterAdvance k with buf := m } ∧
        SpanHolds s.buf m s.cur k (bitOfBytes s.op.pin))

/-! ### The read commands -/

/-- A read of `k` bits with command word `cmd`, every outcome of its rule: the checks of a write of `k`
bits, else `RVAL` is the number held by the span, the cursor has advanced by `k`, and nothing else has
changed. -/
def Sys2Proof.Machine.ReadsSpan (cmd : Word) (i : Instr) (k : Nat) : Prop :=
  decode cmd = .ok i ∧ ∀ s : State,
    (¬s.SpanFits k → exec i s = .next s.afterOutOfBounds) ∧
    (s.SpanFits k → ¬s.CursorRoom k → exec i s = .next s.afterCapacityExceeded) ∧
    (s.SpanFits k → s.CursorRoom k →
      ∃ v, exec i s = .next (s.afterValue k v) ∧ HeldAt s.buf s.cur k v)

/-- R112. `RD.UBITS`: a width of 0 or above 32 raises `IllegalCommand` before anything else; otherwise
the `w` bits at the cursor are read, unsigned. -/
def Obligations.ReadUbitsRule : Prop :=
  (∀ width s, width.toNat = 0 ∨ 32 < width.toNat →
    exec (.rdUbits width) s = .next s.afterIllegalCommand) ∧
  ∀ width, 1 ≤ width.toNat → width.toNat ≤ 32 →
    ReadsSpan (BitVec.ofNat 32 (0x01 ||| width.toNat <<< 6)) (.rdUbits width) width.toNat

/-- R123, R126, R129, R132. `RD.U8`, `RD.U16`, `RD.U32`, `RD.U64`. -/
def Obligations.ReadFixedIntegerRules : Prop :=
  ReadsSpan 0x05 .rdU8 8 ∧ ReadsSpan 0x09 .rdU16 16 ∧ ReadsSpan 0x0D .rdU32 32 ∧
  ReadsSpan 0x11 .rdU64 64

/-- R145, R143. `RD.UVAR`: when the continuation chain ends with byte `k` and that byte is in the
buffer, the value of its groups is returned, unless a ceiling is exceeded; when no byte inside the
buffer ends the chain, `OutOfBounds`. -/
def Obligations.ReadVarintRule : Prop :=
  decode 0x15 = .ok .rdUvar ∧
  (∀ (s : State) k, s.VarintEndsAt k → s.SpanFits (8 * (k + 1)) →
    ∃ v, s.VarintValue k v ∧
      (¬(s.VarintRoom v ∧ s.CursorRoom (8 * (k + 1))) →
        exec .rdUvar s = .next s.afterCapacityExceeded) ∧
      (s.VarintRoom v → s.CursorRoom (8 * (k + 1)) →
        exec .rdUvar s = .next (s.afterValue (8 * (k + 1)) v))) ∧
  (∀ s : State, (∀ k, s.VarintEndsAt k → ¬s.SpanFits (8 * (k + 1))) →
    exec .rdUvar s = .next s.afterOutOfBounds)

/-- R161, R167, R170, R173. A float read of `n` bytes with command word `cmd`: the checks of a read of
`8n` bits; then the bytes at the cursor, collected in `SCR[0]` to `SCR[n-1]`, are the pattern's in the
order `CFG.FBE` selects. -/
def Sys2Proof.Machine.ReadsFloat (cmd : Word) (i : Instr) (n : Nat) : Prop :=
  decode cmd = .ok i ∧ ∀ s : State,
    let big := decide (s.cfg = 1)
    (¬s.SpanFits (8 * n) → exec i s = .next s.afterOutOfBounds) ∧
    (s.SpanFits (8 * n) → ¬s.CursorRoom (8 * n) → exec i s = .next s.afterCapacityExceeded) ∧
    (s.SpanFits (8 * n) → s.CursorRoom (8 * n) →
      ∃ v scr, exec i s = .next { s.afterValue (8 * n) v with scr := scr } ∧
        v < 2 ^ (8 * n) ∧ (∀ b, b < 8 * n → s.buf.bit (s.cur + b) = floatBit big n v b) ∧
        scr.drop n = s.scr.drop n ∧ BytesHeldAt s.buf s.cur n (scr.take n))

/-- R167, R170, R173. `RD.F16`, `RD.F32`, `RD.F64`. -/
def Obligations.ReadFloatRules : Prop :=
  ReadsFloat 0x19 .rdF16 2 ∧ ReadsFloat 0x1D .rdF32 4 ∧ ReadsFloat 0x21 .rdF64 8

/-- R189, R186. `RD.STR`: the prefix must be in the buffer, then the payload it declares, then the
cursor must have room; the length, the payload and the null sentinel (exactly for a zero prefix) are
returned. -/
def Obligations.ReadStringRule : Prop :=
  decode 0x25 = .ok .rdStr ∧ ∀ s : State,
    (¬s.SpanFits 16 → exec .rdStr s = .next s.afterOutOfBounds) ∧
    (s.SpanFits 16 → ∃ len, HeldAt s.buf s.cur 16 len ∧
      (¬s.SpanFits (16 + 8 * len) → exec .rdStr s = .next s.afterOutOfBounds) ∧
      (s.SpanFits (16 + 8 * len) → ¬s.CursorRoom (16 + 8 * len) →
        exec .rdStr s = .next s.afterCapacityExceeded) ∧
      (s.SpanFits (16 + 8 * len) → s.CursorRoom (16 + 8 * len) →
        ∃ bs, BytesHeldAt s.buf (s.cur + 16) len bs ∧
          exec .rdStr s = .next (s.afterCommit (16 + 8 * len) none (some (BitVec.ofNat 32 len))
            (some (decide (len = 0))) (some bs))))

/-- R202. `RD.BYTES`: the bounds of a non-empty span, the capacity; then `LEN` bytes are returned. -/
def Obligations.ReadBytesRule : Prop :=
  decode 0x29 = .ok .rdBytes ∧ ∀ s : State,
    let len := s.op.len.toNat
    let k := 8 * len
    (0 < len → ¬s.SpanFits k → exec .rdBytes s = .next s.afterOutOfBounds) ∧
    ((len = 0 ∨ s.SpanFits k) → ¬s.CursorRoom k → exec .rdBytes s = .next s.afterCapacityExceeded) ∧
    ((len = 0 ∨ s.SpanFits k) → s.CursorRoom k →
      ∃ bs, BytesHeldAt s.buf s.cur len bs ∧
        exec .rdBytes s = .next (s.afterCommit k none (some s.op.len) none (some bs)))

/-! ### The measure and control commands -/

/-- A measure by `k` bits with command word `cmd`, every outcome of its rule: `CapacityExceeded` when
the cursor has no room, else the cursor advances by `k` and nothing else changes, whatever `BUFLEN`
is. -/
def Sys2Proof.Machine.Measures (cmd : Word) (i : Instr) (k : State → Nat) : Prop :=
  decode cmd = .ok i ∧ ∀ s : State,
    (¬s.CursorRoom (k s) → exec i s = .next s.afterCapacityExceeded) ∧
    (s.CursorRoom (k s) → exec i s = .next (s.afterAdvance (k s)))

/-- R124, R127, R130, R133, R168, R171, R174, R203. The measures of the fixed-width integers and
floats and of the byte array. -/
def Obligations.MeasureFixedRules : Prop :=
  Measures 0x06 .msU8 (fun _ => 8) ∧ Measures 0x0A .msU16 (fun _ => 16) ∧
  Measures 0x0E .msU32 (fun _ => 32) ∧ Measures 0x12 .msU64 (fun _ => 64) ∧
  Measures 0x1A .msF16 (fun _ => 16) ∧ Measures 0x1E .msF32 (fun _ => 32) ∧
  Measures 0x22 .msF64 (fun _ => 64) ∧ Measures 0x2A .msBytes (fun s => 8 * s.op.len.toNat)

/-- R113. `MS.UBITS`: a width of 0 or above 32 raises `IllegalCommand` before anything else. -/
def Obligations.MeasureUbitsRule : Prop :=
  (∀ width s, width.toNat = 0 ∨ 32 < width.toNat →
    exec (.msUbits width) s = .next s.afterIllegalCommand) ∧
  ∀ width, 1 ≤ width.toNat → width.toNat ≤ 32 →
    Measures (BitVec.ofNat 32 (0x02 ||| width.toNat <<< 6)) (.msUbits width) fun _ => width.toNat

/-- R146. `MS.UVAR`: the one integer kind whose measure depends on the value. -/
def Obligations.MeasureVarintRule : Prop :=
  decode 0x16 = .ok .msUvar ∧ ∀ s : State,
    let k := 8 * varintBytes s.op.val
    (¬(s.VarintRoom s.op.val ∧ s.CursorRoom k) → exec .msUvar s = .next s.afterCapacityExceeded) ∧
    (s.VarintRoom s.op.val → s.CursorRoom k → exec .msUvar s = .next (s.afterAdvance k))

/-- R190. `MS.STR`: it refuses what the write refuses but for the payload, which it does not consult. -/
def Obligations.MeasureStringRule : Prop :=
  (∀ nul : Bool, decode (BitVec.ofNat 32 (0x26 ||| nul.toNat <<< 12)) = .ok (.msStr nul)) ∧
  ∀ (nul : Bool) (s : State),
    let len := s.op.len.toNat
    let k := 16 + 8 * len
    (nul = true → len ≠ 0 → exec (.msStr nul) s = .next s.afterIllegalCommand) ∧
    ((nul = true → len = 0) → 65535 < len → exec (.msStr nul) s = .next s.afterLengthExceeded) ∧
    ((nul = true → len = 0) → len ≤ 65535 → ¬s.CursorRoom k →
      exec (.msStr nul) s = .next s.afterCapacityExceeded) ∧
    ((nul = true → len = 0) → len ≤ 65535 → s.CursorRoom k →
      exec (.msStr nul) s = .next (s.afterAdvance k))

/-- R216. `RESET`: the cursor is 0 and nothing else changes: not the buffer, not `CFG`, not `FLT`. -/
def Obligations.ResetRule : Prop :=
  decode 0x03 = .ok .reset ∧ ∀ s : State, exec .reset s = .next { s.afterAdvance 0 with cur := 0 }

/-- R217. `ATTACH`: the payload check, the buffer capacity; then the buffer is `PIN`, byte for byte,
and `BUFLEN` is `LEN`; the cursor, `CFG` and `FLT` are untouched. -/
def Obligations.AttachRule : Prop :=
  decode 0x07 = .ok .attach ∧ ∀ s : State,
    let len := s.op.len.toNat
    (s.op.pin.length ≠ len → exec .attach s = .next s.afterIllegalCommand) ∧
    (s.op.pin.length = len → ¬s.BufferRoom len → exec .attach s = .next s.afterCapacityExceeded) ∧
    (s.op.pin.length = len → s.BufferRoom len →
      ∃ m, exec .attach s = .next { s.afterAdvance 0 with buf := m, buflen := len } ∧
        ∀ i, i < len → some (m.read i) = s.op.pin[i]?)

/-- R218. `SETCFG`: a value above 1 raises `IllegalCommand`; otherwise `CFG` is `VAL`. `CFG` affects the
float transfers and nothing else: every command but those and `SETCFG` does the same under the other
setting. -/
def Obligations.SetcfgRule : Prop :=
  decode 0x0B = .ok .setcfg ∧
  (∀ s : State,
    (1 < s.op.val → exec .setcfg s = .next s.afterIllegalCommand) ∧
    (s.op.val ≤ 1 →
      ∃ c : BitVec 1, c.toNat = s.op.val ∧ exec .setcfg s = .next { s.afterAdvance 0 with cfg := c })) ∧
  ∀ i s t c, i ∉ [Instr.wrF16, .rdF16, .wrF32, .rdF32, .wrF64, .rdF64, .setcfg] →
    exec i s = .next t → exec i { s with cfg := c } = .next { t with cfg := c }

/-! ### Faults -/

/-- R246, R240. Fault entry, for every accepted command, the word that selects no row included: a
non-zero `FAULT` is a code 1 to 4; `ADV` is 0 and no other result register holds a value; bit
`code - 1` of `FLT` is set and its others are as before; the dispatcher is `IDLE`; and everything else
is as before the command. -/
def Obligations.FaultChangesOnlyFlt : Prop :=
  ∀ (s t : State) r, s.perform = .next t → t.resp = some r → r.fault ≠ 0 →
    r.fault.toNat ≤ 4 ∧ t = s.afterFault r.fault (1#4 <<< (r.fault.toNat - 1))

/-- R243. `IllegalCommand` is raised exactly in the cases of the rule, decided from the command record
alone. -/
def Obligations.IllegalCommandExactly : Prop :=
  ∀ s c rest, s.disp = .idle → s.host = .command c :: rest →
    (faultCode (step s) = some 3 ↔ IllegalRecord c)

/-- R242. `LengthExceeded` is raised by a string write or measure exactly when its operands are legal
and `LEN` is above 65535, and by no other command. -/
def Obligations.LengthExceededExactly : Prop :=
  (∀ nul s, faultCode (exec (.msStr nul) s) = some 2 ↔
    (nul = true → s.op.len = 0) ∧ 65535 < s.op.len.toNat) ∧
  (∀ nul s, faultCode (exec (.wrStr nul) s) = some 2 ↔
    (nul = true → s.op.len = 0) ∧ s.op.pin.length = s.op.len.toNat ∧ 65535 < s.op.len.toNat) ∧
  ∀ i s, faultCode (exec i s) = some 2 → ∃ nul, i = .wrStr nul ∨ i = .msStr nul

/-- R241, R6, R244. `MS.*` and the control commands never raise `OutOfBounds`; and with all three
capacities unbounded no command raises `CapacityExceeded`. -/
def Obligations.FaultsNeverRaised : Prop :=
  (∀ i s, faultCode (exec i s) = some 1 → modeField (encode i) = 0 ∨ modeField (encode i) = 1) ∧
  ∀ i s, s.Unbounded → faultCode (exec i s) ≠ some 4

/-- R251, R246(b). `FLT` accumulates: every step that is not a hardware reset keeps every bit that was
set, and a step that performs a command sets at most the bit of the fault it answers. -/
def Obligations.FltIsSticky : Prop :=
  ∀ s t, step s = .next t → (∀ rest, ¬(s.disp = .idle ∧ s.host = .hardwareReset :: rest)) →
    t.flt = s.flt ∨ ∃ r, t.resp = some r ∧ r.fault ≠ 0 ∧ t.flt = s.flt ||| 1#4 <<< (r.fault.toNat - 1)

/-! ### Laws of the whole machine -/

/-- R222. The cursor invariant, for every accepted command: `RESET` leaves 0, every other command adds
exactly its `ADV` and so never moves the cursor back, and a faulting command leaves the cursor. -/
def Obligations.CursorMovesByAdv : Prop :=
  ∀ s : State, ∃ t r, s.perform = .next t ∧ t.resp = some r ∧
    (decode s.op.cmd = .ok .reset → t.cur = 0) ∧
    (decode s.op.cmd ≠ .ok .reset → t.cur = s.cur + r.adv ∧ s.cur ≤ t.cur) ∧
    (r.fault ≠ 0 → t.cur = s.cur)

/-- R22, R29, R50, R31. What each kind of command can change: `BUFLEN` only `ATTACH`, `CFG` only
`SETCFG`, the buffer only the write commands and `ATTACH`, the scratch region only the float writes and
reads; the operand registers, the moves to come and the parameters no command. -/
def Obligations.CommandsChangeOnlyTheirState : Prop :=
  ∀ i s t, exec i s = .next t →
    (i ≠ .attach → t.buflen = s.buflen) ∧ (i ≠ .setcfg → t.cfg = s.cfg) ∧
    (modeField (encode i) ≠ 0 → i ≠ .attach → t.buf = s.buf) ∧
    (i ∉ [Instr.wrF16, .rdF16, .wrF32, .rdF32, .wrF64, .rdF64] → t.scr = s.scr) ∧
    t.op = s.op ∧ t.host = s.host ∧ t.params = s.params

/-- R215. A measure neither reads nor writes the buffer and does not consult `BUFLEN`: on any other
buffer of any other length it does the same. -/
def Obligations.MeasureIgnoresBuffer : Prop :=
  ∀ i s t m n, modeField (encode i) = 2 → exec i s = .next t →
    exec i { s with buf := m, buflen := n } = .next { t with buf := m, buflen := n }

/-- R35, R247, R251. No command reads `FLT` or the response before it: with other sticky bits and
another response it does the same, so a fault changes nothing for the commands after it. -/
def Obligations.NoCommandReadsFlt : Prop :=
  ∀ i s t f resp, exec i s = .next t →
    exec i { s with flt := s.flt ||| f, resp := resp } = .next { t with flt := t.flt ||| f }

/-- R31. The scratch region is not observable: with anything else in it a command does the same, but
for the scratch region it leaves. -/
def Obligations.ScratchIsUnobservable : Prop :=
  ∀ i s t x, exec i s = .next t → ∃ y, exec i { s with scr := x } = .next { t with scr := y }

/-- R27, R78. An operand a command does not use has no effect: which of `VAL`, `LEN` and `PIN` each
command uses, and the command word none once decoded. -/
def Obligations.UnusedOperandsIgnored : Prop :=
  ∀ i s t o, exec i s = .next t →
    (i ∈ [Instr.wrU8, .wrU16, .wrU32, .wrU64, .wrUvar, .msUvar, .wrF16, .wrF32, .wrF64, .setcfg] ∨
      (∃ w, i = .wrUbits w) → o.val = s.op.val) →
    (i ∈ [Instr.rdBytes, .msBytes, .wrBytes, .attach] ∨
      (∃ nul, i = .wrStr nul ∨ i = .msStr nul) → o.len = s.op.len) →
    (i ∈ [Instr.wrBytes, .attach] ∨ (∃ nul, i = .wrStr nul) → o.pin = s.op.pin) →
    exec i { s with op := o } = .next { t with op := o }

/-- R220. Measure and write agree. For each kind and every state: the measure command, when it
commits, advances by the size table of R215, which looks at the operands alone; and when the write
command does not answer `OutOfBounds`, the two answer the same code and advance by the same number of
bits, provided `|PIN|` = `LEN` where the write checks it. When the write answers `OutOfBounds` the
measure does not refuse the operands as illegal or too long; it may answer `CapacityExceeded`, in its
`VARINT_BITS` form too. That exception to R220(a) is the model's reading (log entry 19, DEDUCED): R144
and R245 put the bounds before the varint ceiling in a write. -/
def Obligations.MeasureAgreesWithWrite : Prop :=
  ∀ p ∈ measureWritePairs, ∀ s : State,
    (faultCode (exec p.1 s) = some 0 → advance (exec p.1 s) = some (spanSize p.1 s.op)) ∧
    (faultCode (exec p.2 s) = some 0 → advance (exec p.2 s) = some (spanSize p.2 s.op)) ∧
    spanSize p.1 s.op = spanSize p.2 s.op ∧
    ((p.2 = .wrBytes ∨ (∃ nul, p.2 = .wrStr nul) → s.op.pin.length = s.op.len.toNat) →
      (faultCode (exec p.2 s) ≠ some 1 →
        faultCode (exec p.2 s) = faultCode (exec p.1 s) ∧ advance (exec p.2 s) = advance (exec p.1 s)) ∧
      (faultCode (exec p.2 s) = some 1 →
        faultCode (exec p.1 s) = some 0 ∨ faultCode (exec p.1 s) = some 4))

/-- A write that commits at a cursor, then the read of the same kind at the same cursor on the
resulting buffer: the read commits, advances by as much, leaves the buffer alone, and its response is
as `expected` says of the state the write started from. -/
def Sys2Proof.Machine.ReadsBack (wr rd : Instr) (expected : State → Response → Prop) : Prop :=
  ∀ s t r, exec wr s = .next t → t.resp = some r → r.fault = 0 →
    ∃ u q, exec rd { t with cur := s.cur } = .next u ∧ u.resp = some q ∧ q.fault = 0 ∧
      q.adv = r.adv ∧ u.cur = t.cur ∧ u.buf = t.buf ∧ expected s q

/-- R221. The round trip, for all eleven kinds: integers and float patterns come back reduced to their
width, varints whole, byte arrays and non-empty strings byte for byte, and the empty and the null
string both as the null sentinel (R186, C2). -/
def Obligations.ReadInvertsWrite : Prop :=
  (∀ w, ReadsBack (.wrUbits w) (.rdUbits w) fun s q => q.rval = some (s.op.val % 2 ^ w.toNat)) ∧
  ReadsBack .wrU8 .rdU8 (fun s q => q.rval = some (s.op.val % 2 ^ 8)) ∧
  ReadsBack .wrU16 .rdU16 (fun s q => q.rval = some (s.op.val % 2 ^ 16)) ∧
  ReadsBack .wrU32 .rdU32 (fun s q => q.rval = some (s.op.val % 2 ^ 32)) ∧
  ReadsBack .wrU64 .rdU64 (fun s q => q.rval = some (s.op.val % 2 ^ 64)) ∧
  ReadsBack .wrUvar .rdUvar (fun s q => q.rval = some s.op.val) ∧
  ReadsBack .wrF16 .rdF16 (fun s q => q.rval = some (s.op.val % 2 ^ 16)) ∧
  ReadsBack .wrF32 .rdF32 (fun s q => q.rval = some (s.op.val % 2 ^ 32)) ∧
  ReadsBack .wrF64 .rdF64 (fun s q => q.rval = some (s.op.val % 2 ^ 64)) ∧
  (∀ nul, ReadsBack (.wrStr nul) .rdStr fun s q =>
    q.rlen = some s.op.len ∧ q.rnul = some (decide (s.op.len = 0)) ∧ q.pout = some s.op.pin) ∧
  ReadsBack .wrBytes .rdBytes (fun s q => q.rlen = some s.op.len ∧ q.pout = some s.op.pin)

/-- Commands performed one after another, each with its own operands, as long as each of them commits. -/
def Sys2Proof.Machine.performAll : List (Instr × Command) → State → Option State
  | [], s => some s
  | (i, c) :: rest, s =>
    match exec i { s with op := c } with
    | .next t => if faultCode (.next t) = some 0 then performAll rest t else none
    | .fault _ | .refused _ => none

/-- R193, R206. A byte array write that commits is the `WR.U8` commands of its bytes one after another,
and a string write that commits is `WR.U16` of its length and then the `WR.U8` commands of its bytes:
those commit too, and leave the same buffer and cursor. -/
def Obligations.PayloadWritesAreSequences : Prop :=
  let byte (b : Byte) : Instr × Command := (.wrU8, commandOf .wrU8 b.toNat 0 [])
  (∀ s t, exec .wrBytes s = .next t → faultCode (.next t) = some 0 →
    ∃ u, performAll (s.op.pin.map byte) s = some u ∧ u.buf = t.buf ∧ u.cur = t.cur) ∧
  ∀ nul s t, exec (.wrStr nul) s = .next t → faultCode (.next t) = some 0 →
    ∃ u, performAll ((.wrU16, commandOf .wrU16 s.op.len.toNat 0 []) :: s.op.pin.map byte) s = some u ∧
      u.buf = t.buf ∧ u.cur = t.cur

/-- R224, R220. The lifecycle: when a measure pass over any sequence of fields, started at cursor 0,
commits throughout, then the write pass over the same fields, started at cursor 0 over any buffer of
exactly the bytes the measured cursor requires, commits throughout and ends at the same cursor. -/
def Obligations.MeasurePassSizesWritePass : Prop :=
  ∀ (fields : List ((Instr × Instr) × Command)) (s t : State) (m : Memory),
    (∀ f ∈ fields, f.1 ∈ measureWritePairs ∧
      (f.1.2 = .wrBytes ∨ (∃ nul, f.1.2 = .wrStr nul) → f.2.pin.length = f.2.len.toNat)) →
    s.cur = 0 → performAll (fields.map fun f => (f.1.1, f.2)) s = some t →
    ∃ u, performAll (fields.map fun f => (f.1.2, f.2))
        { s with buf := m, buflen := t.requiredBytes } = some u ∧ u.cur = t.cur

/-- R223, R58. Overwrite: a second write of the same size at the same cursor leaves the buffer exactly
as it alone would have left it; so repeating a write changes nothing. -/
def Obligations.SecondWriteOverwrites : Prop :=
  ∀ i s o t u v k, modeField (encode i) = 0 → s.buf.wf s.buflen →
    exec i s = .next t → faultCode (.next t) = some 0 → advance (.next t) = some k →
    exec i { t with cur := s.cur, op := o } = .next u → faultCode (.next u) = some 0 →
    advance (.next u) = some k → exec i { s with op := o } = .next v → u.buf = v.buf

/-- R138. `WR.U64 v` has the effect on the buffer of `WR.U32 v[31:0]` and then `WR.U32 v[63:32]`; and
the fixed-width commands of 8, 16 and 32 bits are the `UBITS` commands of those widths. -/
def Obligations.FixedWidthEquivalences : Prop :=
  (∀ s : State, exec .wrU8 s = exec (.wrUbits 8) s ∧ exec .wrU16 s = exec (.wrUbits 16) s ∧
    exec .wrU32 s = exec (.wrUbits 32) s ∧ exec .rdU8 s = exec (.rdUbits 8) s ∧
    exec .rdU16 s = exec (.rdUbits 16) s ∧ exec .rdU32 s = exec (.rdUbits 32) s ∧
    exec .msU8 s = exec (.msUbits 8) s ∧ exec .msU16 s = exec (.msUbits 16) s ∧
    exec .msU32 s = exec (.msUbits 32) s) ∧
  ∀ m len off v, m.wf len → off + 64 ≤ 8 * len →
    packU64 m off v = packBits (packBits m off v Width.w32) (off + 32) (v >>> 32) Width.w32

/-- R29, R30, R219. In `IDLE` the host reads `CUR`, `BUFLEN`, `CFG` and `FLT` as registers 0 to 3, and
byte `i` of the buffer as what `BUF[i]` holds, for every `i` below `BUFLEN`; `CFG` reads 0 or 1 and
`FLT` 0 to 15; and the size it computes is the least number of bytes that holds the bits counted. The
model's choice (log entry 11, DESIGN CHOICE; U10): in `BUSY` no read has a value, nor in any state one
of another register or of a byte at or above `BUFLEN`. -/
def Obligations.HostViewInIdle : Prop :=
  (∀ s : State, s.disp = .idle →
    s.readReg 0 = some s.cur ∧ s.readReg 1 = some s.buflen ∧
    s.readReg 2 = some s.cfg.toNat ∧ s.cfg.toNat ≤ 1 ∧
    s.readReg 3 = some s.flt.toNat ∧ s.flt.toNat ≤ 15 ∧
    (∀ i, i < s.buflen → s.readBuf i = some (s.buf.read i))) ∧
  (∀ s : State, s.cur ≤ 8 * s.requiredBytes ∧ ∀ n, s.cur ≤ 8 * n → s.requiredBytes ≤ n) ∧
  (∀ s : State, s.disp = .busy → (∀ n, s.readReg n = none) ∧ ∀ i, s.readBuf i = none) ∧
  ∀ s : State, (∀ n, 3 < n → s.readReg n = none) ∧ ∀ i, s.buflen ≤ i → s.readBuf i = none

/-- The invariant of the machine holds right after hardware reset. -/
def Obligations.InvariantAtReset : Prop := State.reset.Inv

/-- The invariant of the machine is kept by every step from every state that has it: the buffer stays
in canonical form below `BUFLEN` (R21), the scratch region stays 8 bytes (R31), `CUR` stays below
`2^CURSOR_BITS` without wrapping (R26), `BUFLEN` at most `BUF_CAP` (R29), and every response is a legal
one (R28, R240, R246). -/
def Obligations.StepKeepsInvariant : Prop :=
  ∀ s t, s.Inv → step s = .next t → t.Inv
end

