-- ==== Sys2Proof/Laws/State.lean ====
section
/-! SUPPORT. One lemma per field per update of the state, so that no later proof unfolds an update. -/

namespace Sys2Proof.Machine

section
variable (s : State) (f : FaultKind) (r : Response) (c : Command) (rest : List HostMove)

@[simp] theorem State.raise_buf : (s.raise f).buf = s.buf := rfl
@[simp] theorem State.raise_buflen : (s.raise f).buflen = s.buflen := rfl
@[simp] theorem State.raise_cur : (s.raise f).cur = s.cur := rfl
@[simp] theorem State.raise_cfg : (s.raise f).cfg = s.cfg := rfl
@[simp] theorem State.raise_flt : (s.raise f).flt = fltAfter s.flt f := rfl
@[simp] theorem State.raise_scr : (s.raise f).scr = s.scr := rfl
@[simp] theorem State.raise_disp : (s.raise f).disp = .idle := rfl
@[simp] theorem State.raise_op : (s.raise f).op = s.op := rfl
@[simp] theorem State.raise_resp : (s.raise f).resp = some (Response.faulted f) := rfl
@[simp] theorem State.raise_host : (s.raise f).host = s.host := rfl
@[simp] theorem State.raise_params : (s.raise f).params = s.params := rfl

@[simp] theorem State.commit_buf : (s.commit r).buf = s.buf := rfl
@[simp] theorem State.commit_buflen : (s.commit r).buflen = s.buflen := rfl
@[simp] theorem State.commit_cur : (s.commit r).cur = s.cur + r.adv := rfl
@[simp] theorem State.commit_cfg : (s.commit r).cfg = s.cfg := rfl
@[simp] theorem State.commit_flt : (s.commit r).flt = s.flt := rfl
@[simp] theorem State.commit_scr : (s.commit r).scr = s.scr := rfl
@[simp] theorem State.commit_disp : (s.commit r).disp = .idle := rfl
@[simp] theorem State.commit_op : (s.commit r).op = s.op := rfl
@[simp] theorem State.commit_resp : (s.commit r).resp = some r := rfl
@[simp] theorem State.commit_host : (s.commit r).host = s.host := rfl
@[simp] theorem State.commit_params : (s.commit r).params = s.params := rfl

@[simp] theorem State.accept_buf : (s.accept c rest).buf = s.buf := rfl
@[simp] theorem State.accept_buflen : (s.accept c rest).buflen = s.buflen := rfl
@[simp] theorem State.accept_cur : (s.accept c rest).cur = s.cur := rfl
@[simp] theorem State.accept_cfg : (s.accept c rest).cfg = s.cfg := rfl
@[simp] theorem State.accept_flt : (s.accept c rest).flt = s.flt := rfl
@[simp] theorem State.accept_scr : (s.accept c rest).scr = s.scr := rfl
@[simp] theorem State.accept_disp : (s.accept c rest).disp = .busy := rfl
@[simp] theorem State.accept_op : (s.accept c rest).op = c := rfl
@[simp] theorem State.accept_resp : (s.accept c rest).resp = s.resp := rfl
@[simp] theorem State.accept_host : (s.accept c rest).host = rest := rfl
@[simp] theorem State.accept_params : (s.accept c rest).params = s.params := rfl

@[simp] theorem State.hardwareReset_buf : (s.hardwareReset rest).buf = { epoch := s.buf.epoch + 1, cells := [] } := rfl
@[simp] theorem State.hardwareReset_buflen : (s.hardwareReset rest).buflen = s.params.defaultBufBytes := rfl
@[simp] theorem State.hardwareReset_cur : (s.hardwareReset rest).cur = 0 := rfl
@[simp] theorem State.hardwareReset_cfg : (s.hardwareReset rest).cfg = 0 := rfl
@[simp] theorem State.hardwareReset_flt : (s.hardwareReset rest).flt = 0 := rfl
@[simp] theorem State.hardwareReset_scr : (s.hardwareReset rest).scr = (List.range Config.scratchBytes).map (Config.scratchByte (s.buf.epoch + 1)) := rfl
@[simp] theorem State.hardwareReset_disp : (s.hardwareReset rest).disp = .idle := rfl
@[simp] theorem State.hardwareReset_op : (s.hardwareReset rest).op = { cmd := 0, val := 0, len := 0, pin := [] } := rfl
@[simp] theorem State.hardwareReset_resp : (s.hardwareReset rest).resp = none := rfl
@[simp] theorem State.hardwareReset_host : (s.hardwareReset rest).host = rest := rfl
@[simp] theorem State.hardwareReset_params : (s.hardwareReset rest).params = s.params := rfl

end

@[simp] theorem Response.done_fault (k : Nat) : (Response.done k).fault = 0 := rfl
@[simp] theorem Response.done_adv (k : Nat) : (Response.done k).adv = k := rfl
@[simp] theorem Response.value_fault (k v : Nat) : (Response.value k v).fault = 0 := rfl
@[simp] theorem Response.value_adv (k v : Nat) : (Response.value k v).adv = k := rfl
@[simp] theorem Response.bytes_fault (k : Nat) (n : BitVec 32) (bs : List Byte) :
    (Response.bytes k n bs).fault = 0 := rfl
@[simp] theorem Response.bytes_adv (k : Nat) (n : BitVec 32) (bs : List Byte) :
    (Response.bytes k n bs).adv = k := rfl
@[simp] theorem Response.string_fault (k : Nat) (n : BitVec 32) (nul : Bool) (bs : List Byte) :
    (Response.string k n nul bs).fault = 0 := rfl
@[simp] theorem Response.string_adv (k : Nat) (n : BitVec 32) (nul : Bool) (bs : List Byte) :
    (Response.string k n nul bs).adv = k := rfl
@[simp] theorem Response.faulted_fault (f : FaultKind) : (Response.faulted f).fault = f.code := rfl
@[simp] theorem Response.faulted_adv (f : FaultKind) : (Response.faulted f).adv = 0 := rfl

@[simp] theorem Width.w8_val : Width.w8.val = 8 := rfl
@[simp] theorem Width.w16_val : Width.w16.val = 16 := rfl
@[simp] theorem Width.w32_val : Width.w32.val = 32 := rfl

/-- A `WIDTH` field outside 1..32 is no width of the primitive (R74, R110). -/
theorem Width.ofField_eq_none {f : BitVec 6} (h : f.toNat = 0 ∨ 32 < f.toNat) : Width.ofField f = none :=
  dif_neg (by omega)

/-- A `WIDTH` field in 1..32 is that width (R74, R110). -/
theorem Width.ofField_eq_some {f : BitVec 6} (h1 : 1 ≤ f.toNat) (h2 : f.toNat ≤ 32) :
    Width.ofField f = some ⟨f.toNat, h1, h2⟩ := dif_pos ⟨h1, h2⟩

/-- No fault kind has the code of a command that commits (R240). -/
theorem FaultKind.code_ne_zero (f : FaultKind) : f.code ≠ 0 := by cases f <;> decide

end Sys2Proof.Machine
end

