-- ==== Sys2Proof/Laws/Memory.lean ====
section
/-! SUPPORT. The laws of the buffer: a read after a write, the canonical form, and when two buffers
are equal. -/

namespace Sys2Proof.Machine

theorem lookup_insert_same (a : Nat) (b : Byte) (l : List Host.Cell) :
    lookupCell a (insertCell a b l) = some b := by
  induction l with
  | nil => simp [insertCell, lookupCell]
  | cons c rest ih =>
    simp only [insertCell]
    split
    · simp [lookupCell]
    · split
      · simp [lookupCell]
      · next h => simp [lookupCell, Ne.symm h, ih]

theorem lookup_insert_other {a x : Nat} (b : Byte) (l : List Host.Cell) (h : x ≠ a) :
    lookupCell x (insertCell a b l) = lookupCell x l := by
  induction l with
  | nil => simp [insertCell, lookupCell, h.symm]
  | cons c rest ih =>
    simp only [insertCell]
    split
    · simp [lookupCell, h.symm]
    · split
      · next hc => simp [lookupCell, h.symm, ← hc]
      · simp [lookupCell, ih]

/-- A read after a write to the same byte gives the byte written. -/
@[simp] theorem Memory.read_write_same (m : Memory) (a : Nat) (b : Byte) : (m.write a b).read a = b := by
  simp [Memory.read, Memory.write, lookup_insert_same]

/-- A write leaves every other byte alone. -/
theorem Memory.read_write_other (m : Memory) {a x : Nat} (b : Byte) (h : x ≠ a) :
    (m.write a b).read x = m.read x := by
  simp [Memory.read, Memory.write, lookup_insert_other b _ h]

@[simp] theorem Memory.write_epoch (m : Memory) (a : Nat) (b : Byte) : (m.write a b).epoch = m.epoch := rfl

/-- What a byte write does to every bit. -/
theorem Memory.bit_write (m : Memory) (a o : Nat) (b : Byte) :
    (m.write a b).bit o = if o / 8 = a then b.getLsbD (o % 8) else m.bit o := by
  by_cases h : o / 8 = a
  · subst h; simp [Memory.bit]
  · simp [Memory.bit, Memory.read_write_other m b h, h]

/-- Two bytes with the same eight bits in the buffer are the same byte. -/
theorem Memory.read_eq_of_bits {m m' : Memory} {a : Nat}
    (h : ∀ j, j < 8 → m.bit (8 * a + j) = m'.bit (8 * a + j)) : m.read a = m'.read a := by
  apply BitVec.eq_of_getLsbD_eq
  intro j hj
  have := h j hj
  rwa [Memory.bit, Memory.bit, show (8 * a + j) / 8 = a by omega, show (8 * a + j) % 8 = j by omega] at this

theorem insert_head_le (a : Nat) (b : Byte) (l : List Host.Cell) (lo : Nat)
    (hl : ∀ c ∈ l, lo < c.1) (ha : lo < a) : ∀ c ∈ insertCell a b l, lo < c.1 := by
  induction l with
  | nil => simpa [insertCell] using ha
  | cons c rest ih =>
    have hr : ∀ c ∈ rest, lo < c.1 := fun d hd => hl d (List.mem_cons_of_mem _ hd)
    have hc := hl c List.mem_cons_self
    simp only [insertCell]
    split
    · intro d hd
      rcases List.mem_cons.1 hd with rfl | hd
      · exact ha
      · exact hl d hd
    · split
      · intro d hd
        rcases List.mem_cons.1 hd with rfl | hd
        · exact ha
        · exact hr d hd
      · intro d hd
        rcases List.mem_cons.1 hd with rfl | hd
        · exact hc
        · exact ih hr d hd

theorem insert_rising (a : Nat) (b : Byte) (l : List Host.Cell)
    (h : (l.map (·.1)).Pairwise (· < ·)) : ((insertCell a b l).map (·.1)).Pairwise (· < ·) := by
  induction l with
  | nil => simp [insertCell]
  | cons c rest ih =>
    rw [List.map_cons, List.pairwise_cons] at h
    have hlt : ∀ d ∈ rest, c.1 < d.1 := fun d hd => h.1 _ (List.mem_map_of_mem hd)
    simp only [insertCell]
    split
    · next hac =>
      rw [List.map_cons, List.pairwise_cons]
      refine ⟨?_, by rw [List.map_cons, List.pairwise_cons]; exact h⟩
      intro x hx
      obtain ⟨d, hd, rfl⟩ := List.mem_map.1 hx
      rcases List.mem_cons.1 hd with rfl | hd
      · exact hac
      · exact Nat.lt_trans hac (hlt d hd)
    · split
      · next hac =>
        rw [List.map_cons, List.pairwise_cons]
        exact ⟨by simpa [hac] using h.1, h.2⟩
      · next h1 h2 =>
        rw [List.map_cons, List.pairwise_cons]
        refine ⟨?_, ih h.2⟩
        intro x hx
        obtain ⟨d, hd, rfl⟩ := List.mem_map.1 hx
        exact insert_head_le a b rest c.1 hlt (by omega) d hd

theorem mem_insert {a : Nat} {b : Byte} {l : List Host.Cell} {d : Host.Cell}
    (h : d ∈ insertCell a b l) : d = (a, b) ∨ d ∈ l := by
  induction l with
  | nil => simpa [insertCell] using h
  | cons c rest ih =>
    simp only [insertCell] at h
    split at h
    · simpa using h
    · split at h
      · rcases List.mem_cons.1 h with h | h
        · exact .inl h
        · exact .inr (List.mem_cons_of_mem _ h)
      · rcases List.mem_cons.1 h with h | h
        · exact .inr (h ▸ List.mem_cons_self)
        · exact (ih h).imp id (List.mem_cons_of_mem _)

/-- A write below the length keeps the canonical form. -/
theorem Memory.write_wf {m : Memory} {len a : Nat} (b : Byte) (h : m.wf len) (ha : a < len) :
    (m.write a b).wf len := by
  refine ⟨insert_rising a b _ h.1, fun c hc => ?_⟩
  rcases mem_insert hc with rfl | hc
  · exact ha
  · exact h.2 c hc

/-- The buffer that `ATTACH` supplies is in canonical form. -/
theorem Memory.ofBytes_wf (epoch : Nat) (bs : List Byte) : (Memory.ofBytes epoch bs).wf bs.length := by
  constructor
  · have : (Memory.ofBytes epoch bs).cells.map (·.1) = List.range bs.length := by
      simp [Memory.ofBytes, List.map_map, Function.comp_def, List.zipIdx_map_snd, List.range_eq_range']
    rw [this]
    exact List.pairwise_lt_range
  · intro c hc
    simp only [Memory.ofBytes, List.mem_map] at hc
    obtain ⟨p, hp, rfl⟩ := hc
    have := List.snd_lt_add_of_mem_zipIdx hp
    simpa using this

/-- A buffer with nothing listed is in canonical form, whatever its length. -/
theorem Memory.empty_wf (epoch len : Nat) : Memory.wf { epoch := epoch, cells := [] } len :=
  ⟨List.Pairwise.nil, fun _ h => absurd h List.not_mem_nil⟩

/-- The buffer after hardware reset is in canonical form. -/
theorem State.reset_wf : State.reset.buf.wf State.reset.buflen := Memory.empty_wf _ _

/-- The pack loop keeps the canonical form of a buffer that holds its whole span. -/
theorem packLoop_wf {len : Nat} (fuel : Nat) {m : Memory} {i b rem v : Nat} (h : m.wf len)
    (hb : b < 8) (hlen : 8 * i + b + rem ≤ 8 * len) : (packLoop fuel m i b rem v).wf len := by
  induction fuel generalizing m i b rem v with
  | zero => exact h
  | succ fuel ih =>
    simp only [packLoop]
    split
    · exact h
    · exact ih (Memory.write_wf _ h (by omega)) (by omega) (by omega)

/-- `PackBits` of a span inside the buffer keeps the canonical form. -/
theorem packBits_wf {m : Memory} {len off : Nat} (val : Nat) (w : Width) (h : m.wf len)
    (hlen : off + w.val ≤ 8 * len) : (packBits m off val w).wf len :=
  packLoop_wf _ h (by omega) (by omega)

/-- Packing bytes inside the buffer keeps the canonical form. -/
theorem packBytes_wf {len : Nat} (bs : List Byte) {m : Memory} {off : Nat} (h : m.wf len)
    (hlen : off + 8 * bs.length ≤ 8 * len ∨ bs = []) : (packBytes m off bs).wf len := by
  induction bs generalizing m off with
  | nil => exact h
  | cons b bs ih =>
    have hl : off + 8 * (bs.length + 1) ≤ 8 * len := by simpa using hlen
    have h8 : off + Width.w8.val ≤ 8 * len := by show off + 8 ≤ 8 * len; omega
    exact ih (packBits_wf _ _ h h8) (.inl (by omega))

theorem packLoop_epoch (fuel : Nat) (m : Memory) (i b rem v : Nat) :
    (packLoop fuel m i b rem v).epoch = m.epoch := by
  induction fuel generalizing m i b rem v with
  | zero => rfl
  | succ fuel ih =>
    simp only [packLoop]
    split
    · rfl
    · rw [ih]; rfl

@[simp] theorem packBits_epoch (m : Memory) (off val : Nat) (w : Width) :
    (packBits m off val w).epoch = m.epoch := packLoop_epoch ..

@[simp] theorem packBytes_epoch (bs : List Byte) (m : Memory) (off : Nat) :
    (packBytes m off bs).epoch = m.epoch := by
  induction bs generalizing m off with
  | nil => rfl
  | cons b bs ih => simp [packBytes, ih]

theorem lookup_below {a : Nat} {l : List Host.Cell} (h : ∀ c ∈ l, a < c.1) : lookupCell a l = none := by
  induction l with
  | nil => rfl
  | cons c rest ih =>
    have := h c List.mem_cons_self
    simp [lookupCell, show c.1 ≠ a by omega, ih fun d hd => h d (List.mem_cons_of_mem _ hd)]

theorem cells_ext {l l' : List Host.Cell} (h : (l.map (·.1)).Pairwise (· < ·))
    (h' : (l'.map (·.1)).Pairwise (· < ·)) (e : ∀ a, lookupCell a l = lookupCell a l') : l = l' := by
  induction l generalizing l' with
  | nil =>
    cases l' with
    | nil => rfl
    | cons c' r' => simpa [lookupCell] using e c'.1
  | cons c r ih =>
    rw [List.map_cons, List.pairwise_cons] at h
    have hlt : ∀ d ∈ r, c.1 < d.1 := fun d hd => h.1 _ (List.mem_map_of_mem hd)
    cases l' with
    | nil => simpa [lookupCell] using (e c.1).symm
    | cons c' r' =>
      rw [List.map_cons, List.pairwise_cons] at h'
      have hlt' : ∀ d ∈ r', c'.1 < d.1 := fun d hd => h'.1 _ (List.mem_map_of_mem hd)
      have hk : c.1 = c'.1 := by
        by_contra hne
        rcases Nat.lt_or_gt_of_ne hne with hl | hl
        · have := e c.1
          rw [lookup_below (l := c' :: r') (by
            intro d hd
            rcases List.mem_cons.1 hd with rfl | hd
            · exact hl
            · exact Nat.lt_trans hl (hlt' d hd))] at this
          simp [lookupCell] at this
        · have := e c'.1
          rw [lookup_below (l := c :: r) (by
            intro d hd
            rcases List.mem_cons.1 hd with rfl | hd
            · exact hl
            · exact Nat.lt_trans hl (hlt d hd))] at this
          simp [lookupCell] at this
      have hv : c.2 = c'.2 := by simpa [lookupCell, hk] using e c.1
      have hc : c = c' := Prod.ext hk hv
      subst hc
      congr 1
      apply ih h.2 h'.2
      intro a
      by_cases ha : c.1 = a
      · subst ha
        rw [lookup_below hlt, lookup_below hlt']
      · simpa [lookupCell, ha] using e a

/-- Two buffers in canonical form that list the same bytes are the same data. -/
theorem Memory.ext_of_lookup {m m' : Memory} {len : Nat} (h : m.wf len) (h' : m'.wf len)
    (he : m.epoch = m'.epoch) (e : ∀ a, lookupCell a m.cells = lookupCell a m'.cells) : m = m' := by
  cases m; cases m'
  simp only [Memory.mk.injEq]
  exact ⟨he, cells_ext h.1 h'.1 e⟩

end Sys2Proof.Machine
end

