-- ==== Sys2Proof/Laws/Ops.lean ====
section
/-! SUPPORT. One lemma per shared operation that says once everything it can do. -/

namespace Sys2Proof.Machine

/-- Every way a command can end: with the fault its checks found, or with its effect. -/
theorem State.conclude_cases {s done t : State} {fault : Option FaultKind}
    (h : s.conclude fault done = .next t) :
    (∃ f, fault = some f ∧ t = s.raise f) ∨ (fault = none ∧ t = done) := by
  cases fault with
  | none => exact .inr ⟨rfl, by simpa [State.conclude] using h.symm⟩
  | some f => exact .inl ⟨f, rfl, by simpa [State.conclude] using h.symm⟩

@[simp] theorem State.conclude_some (s done : State) (f : FaultKind) :
    s.conclude (some f) done = .next (s.raise f) := rfl

@[simp] theorem State.conclude_none (s done : State) : s.conclude none done = .next done := rfl

/-- The bounds check raises `OutOfBounds` or nothing, and when. -/
theorem State.boundsFault_eq (s : State) (k : Nat) :
    (s.boundsFault k = some .outOfBounds ∧ 0 < k ∧ 8 * s.buflen < s.cur + k) ∨
      (s.boundsFault k = none ∧ (k = 0 ∨ s.cur + k ≤ 8 * s.buflen)) := by
  unfold State.boundsFault
  split
  · next h => exact .inl ⟨rfl, h.1, h.2⟩
  · next h => exact .inr ⟨rfl, by omega⟩

/-- A capacity is exceeded when it is finite and the number does not fit. -/
theorem overCapacity_iff (bits : Option Nat) (v : Nat) :
    overCapacity bits v = true ↔ ∃ n, bits = some n ∧ 2 ^ n ≤ v := by
  cases bits <;> simp [overCapacity]

/-- The cursor check raises `CapacityExceeded` or nothing, and when. -/
theorem State.cursorFault_eq (s : State) (k : Nat) :
    (s.cursorFault k = some .capacityExceeded ∧ ∃ n, s.params.cursorBits = some n ∧ 2 ^ n ≤ s.cur + k) ∨
      (s.cursorFault k = none ∧ ∀ n, s.params.cursorBits = some n → s.cur + k < 2 ^ n) := by
  unfold State.cursorFault
  split
  · next h => exact .inl ⟨rfl, (overCapacity_iff ..).1 h⟩
  · next h =>
    refine .inr ⟨rfl, fun n hn => ?_⟩
    by_contra hlt
    exact h ((overCapacity_iff ..).2 ⟨n, hn, by omega⟩)

/-- The varint check raises `CapacityExceeded` or nothing, and when. -/
theorem State.varintFault_eq (s : State) (v : Nat) :
    (s.varintFault v = some .capacityExceeded ∧ ∃ n, s.params.varintBits = some n ∧ 2 ^ n ≤ v) ∨
      (s.varintFault v = none ∧ ∀ n, s.params.varintBits = some n → v < 2 ^ n) := by
  unfold State.varintFault
  split
  · next h => exact .inl ⟨rfl, (overCapacity_iff ..).1 h⟩
  · next h =>
    refine .inr ⟨rfl, fun n hn => ?_⟩
    by_contra hlt
    exact h ((overCapacity_iff ..).2 ⟨n, hn, by omega⟩)

/-- The buffer capacity check raises `CapacityExceeded` or nothing, and when. -/
theorem State.bufCapFault_eq (s : State) (len : Nat) :
    (s.bufCapFault len = some .capacityExceeded ∧ ∃ cap, s.params.bufCap = some cap ∧ cap < len) ∨
      (s.bufCapFault len = none ∧ ∀ cap, s.params.bufCap = some cap → len ≤ cap) := by
  unfold State.bufCapFault
  split
  · next h => exact .inr ⟨rfl, by simp [h]⟩
  · next cap h =>
    split
    · next hc => exact .inl ⟨rfl, cap, h, hc⟩
    · next hc => exact .inr ⟨rfl, fun n hn => by rw [h] at hn; cases hn; omega⟩

/-- Everything a measure can do. -/
theorem State.measure_cases {s t : State} {k : Nat} (h : s.measure k = .next t) :
    (t = s.raise .capacityExceeded ∧ s.cursorFault k = some .capacityExceeded) ∨
      (t = s.commit (Response.done k) ∧ s.cursorFault k = none) := by
  rcases State.conclude_cases h with ⟨f, hf, rfl⟩ | ⟨hf, rfl⟩
  · rcases s.cursorFault_eq k with ⟨hc, -⟩ | ⟨hc, -⟩
    · rw [hc] at hf; cases hf; exact .inl ⟨rfl, hc⟩
    · rw [hc] at hf; cases hf
  · exact .inr ⟨rfl, hf⟩

/-- The two checks of a span, together: which fault they find and when. -/
theorem State.spanFault_cases (s : State) (k : Nat) :
    ((s.boundsFault k).or (s.cursorFault k) = some .outOfBounds ∧ 0 < k ∧ 8 * s.buflen < s.cur + k) ∨
      ((s.boundsFault k).or (s.cursorFault k) = some .capacityExceeded ∧
        (k = 0 ∨ s.cur + k ≤ 8 * s.buflen) ∧
        ∃ n, s.params.cursorBits = some n ∧ 2 ^ n ≤ s.cur + k) ∨
      ((s.boundsFault k).or (s.cursorFault k) = none ∧ (k = 0 ∨ s.cur + k ≤ 8 * s.buflen) ∧
        ∀ n, s.params.cursorBits = some n → s.cur + k < 2 ^ n) := by
  rcases s.boundsFault_eq k with ⟨hb, h⟩ | ⟨hb, h⟩
  · exact .inl ⟨by simp [hb], h⟩
  · rcases s.cursorFault_eq k with ⟨hc, h'⟩ | ⟨hc, h'⟩
    · exact .inr (.inl ⟨by simp [hb, hc], h, h'⟩)
    · exact .inr (.inr ⟨by simp [hb, hc], h, h'⟩)

/-- Everything a write of a fixed size can do. -/
theorem State.writeFixed_cases {s t : State} {k : Nat} {buf : Memory} (h : s.writeFixed k buf = .next t) :
    (∃ f, t = s.raise f ∧ (f = .outOfBounds ∨ f = .capacityExceeded)) ∨
      (t = { s with buf := buf }.commit (Response.done k) ∧ (k = 0 ∨ s.cur + k ≤ 8 * s.buflen) ∧
        ∀ n, s.params.cursorBits = some n → s.cur + k < 2 ^ n) := by
  rcases State.conclude_cases h with ⟨f, hf, rfl⟩ | ⟨hf, rfl⟩ <;>
    rcases s.spanFault_cases k with ⟨hc, h'⟩ | ⟨hc, h'⟩ | ⟨hc, h'⟩ <;> rw [hc] at hf <;> cases hf
  · exact .inl ⟨_, rfl, .inl rfl⟩
  · exact .inl ⟨_, rfl, .inr rfl⟩
  · exact .inr ⟨rfl, h'⟩

/-- Everything a read of a fixed size can do. -/
theorem State.readFixed_cases {s t : State} {k v : Nat} (h : s.readFixed k v = .next t) :
    (∃ f, t = s.raise f ∧ (f = .outOfBounds ∨ f = .capacityExceeded)) ∨
      (t = s.commit (Response.value k v) ∧ (k = 0 ∨ s.cur + k ≤ 8 * s.buflen) ∧
        ∀ n, s.params.cursorBits = some n → s.cur + k < 2 ^ n) := by
  rcases State.conclude_cases h with ⟨f, hf, rfl⟩ | ⟨hf, rfl⟩ <;>
    rcases s.spanFault_cases k with ⟨hc, h'⟩ | ⟨hc, h'⟩ | ⟨hc, h'⟩ <;> rw [hc] at hf <;> cases hf
  · exact .inl ⟨_, rfl, .inl rfl⟩
  · exact .inl ⟨_, rfl, .inr rfl⟩
  · exact .inr ⟨rfl, h'⟩

@[simp] theorem leBytes_length (v n : Nat) : (leBytes v n).length = n := by simp [leBytes]

@[simp] theorem unpackBytes_length (m : Memory) (off n : Nat) : (unpackBytes m off n).length = n := by
  induction n generalizing off with
  | zero => rfl
  | succ n ih => simp [unpackBytes, ih]

/-- The deposit keeps the size of the scratch region. -/
theorem deposit_length {scr : List Byte} {m : Nat} (p : Nat) (fbe : Bool) (h : m ≤ scr.length) :
    (deposit scr p m fbe).length = scr.length := by
  cases fbe <;> simp [deposit] <;> omega

/-- A read into the scratch region keeps its size. -/
theorem collect_length {scr : List Byte} {m : Nat} (buf : Memory) (off : Nat) (h : m ≤ scr.length) :
    (collect scr buf off m).length = scr.length := by
  simp [collect]; omega

end Sys2Proof.Machine
end

