-- ==== Sys2Proof/Laws/Exec.lean ====
section
/-! SUPPORT. Everything a command can do, said once: each command is the fault its checks find, or else
one commit that leaves a given buffer, buffer length, cursor, `CFG`, scratch region and response. -/

namespace Sys2Proof.Machine

/-- What one command finds and would leave: the fault of its checks, and the values its commit gives
to the state it may change. -/
structure Effect where
  /-- The first fault its checks find. -/
  fault : Option FaultKind
  /-- `BUF` after the commit. -/
  buf : Memory
  /-- `BUFLEN` after the commit. -/
  buflen : Nat
  /-- `CUR` after the commit. -/
  cur : Nat
  /-- `CFG` after the commit. -/
  cfg : BitVec 1
  /-- `SCR` after the commit. -/
  scr : List Byte
  /-- The response of the commit. -/
  resp : Response

/-- The state a commit leaves. -/
def Effect.done (e : Effect) (s : State) : State :=
  { s with
    buf := e.buf, buflen := e.buflen, cur := e.cur, cfg := e.cfg, scr := e.scr
    resp := some e.resp, disp := .idle }

/-- A commit by `k` bits that changes nothing else. -/
def State.advanceEffect (s : State) (fault : Option FaultKind) (k : Nat) : Effect :=
  { fault := fault, buf := s.buf, buflen := s.buflen, cur := s.cur + k, cfg := s.cfg, scr := s.scr
    resp := Response.done k }

/-- The two checks of a span of `k` bits. -/
def State.spanFault (s : State) (k : Nat) : Option FaultKind := (s.boundsFault k).or (s.cursorFault k)

/-- The effect of a write of a fixed size. -/
def State.writeEffect (s : State) (k : Nat) (m : Memory) : Effect :=
  { s.advanceEffect (s.spanFault k) k with buf := m }

/-- The effect of a read of a fixed size. -/
def State.readEffect (s : State) (k v : Nat) : Effect :=
  { s.advanceEffect (s.spanFault k) k with resp := Response.value k v }

/-- The effect of a measure of a fixed size. -/
def State.measureEffect (s : State) (k : Nat) : Effect := s.advanceEffect (s.cursorFault k) k

/-- The effect of a float write of `n` bytes. -/
def State.writeFloatEffect (s : State) (n : Nat) : Effect :=
  { s.writeEffect (8 * n) (packF s.buf s.cur s.op.val n s.fbe s.scr) with
    scr := deposit s.scr s.op.val n s.fbe }

/-- The effect of a float read of `n` bytes. -/
def State.readFloatEffect (s : State) (n : Nat) : Effect :=
  { s.readEffect (8 * n) (unpackF s.buf s.cur n s.fbe s.scr) with scr := collect s.scr s.buf s.cur n }

/-- The effect of a `UBITS` command of a legal width, or `IllegalCommand`. -/
def State.widthEffect (s : State) (field : BitVec 6) (effect : Width → Effect) : Effect :=
  match Width.ofField field with
  | none => s.advanceEffect (some .illegalCommand) 0
  | some w => effect w

/-- The effect of `WR.UVAR`. -/
def State.writeVarintEffect (s : State) : Effect :=
  let e := varintEnc s.op.val
  let k := 8 * e.length
  { s.advanceEffect ((s.boundsFault k).or ((s.varintFault s.op.val).or (s.cursorFault k))) k with
    buf := packBytes s.buf s.cur e }

/-- The effect of `RD.UVAR`. -/
def State.readVarintEffect (s : State) : Effect :=
  match varintDec s.buf s.buflen s.cur with
  | none => s.advanceEffect (some .outOfBounds) 0
  | some (v, k) =>
    { s.advanceEffect ((s.varintFault v).or (s.cursorFault k)) k with resp := Response.value k v }

/-- The effect of `WR.STR`. -/
def State.writeStringEffect (s : State) (nul : Bool) : Effect :=
  let k := stringBits s.lenBytes
  { s.advanceEffect ((s.nullLenFault nul).or <| (s.nullPinFault nul).or <| s.payloadFault.or <|
      s.stringFault.or (s.spanFault k)) k with
    buf := packString s.buf s.cur s.lenBytes s.op.pin }

/-- The effect of `RD.STR`. -/
def State.readStringEffect (s : State) : Effect :=
  let len := unpackBits s.buf s.cur Width.w16
  let k := stringBits len
  { s.advanceEffect ((s.boundsFault 16).or (s.spanFault k)) k with
    resp := Response.string k (BitVec.ofNat 32 len) (len == 0) (unpackBytes s.buf (s.cur + 16) len) }

/-- The effect of each command. -/
def effectOf (i : Instr) (s : State) : Effect :=
  match i with
  | .wrUbits f => s.widthEffect f fun w => s.writeEffect w.val (packBits s.buf s.cur s.op.val w)
  | .rdUbits f => s.widthEffect f fun w => s.readEffect w.val (unpackBits s.buf s.cur w)
  | .msUbits f => s.widthEffect f fun w => s.measureEffect w.val
  | .wrU8 => s.writeEffect 8 (packBits s.buf s.cur s.op.val Width.w8)
  | .wrU16 => s.writeEffect 16 (packBits s.buf s.cur s.op.val Width.w16)
  | .wrU32 => s.writeEffect 32 (packBits s.buf s.cur s.op.val Width.w32)
  | .wrU64 => s.writeEffect 64 (packU64 s.buf s.cur s.op.val)
  | .rdU8 => s.readEffect 8 (unpackBits s.buf s.cur Width.w8)
  | .rdU16 => s.readEffect 16 (unpackBits s.buf s.cur Width.w16)
  | .rdU32 => s.readEffect 32 (unpackBits s.buf s.cur Width.w32)
  | .rdU64 => s.readEffect 64 (unpackU64 s.buf s.cur)
  | .msU8 => s.measureEffect 8
  | .msU16 | .msF16 => s.measureEffect 16
  | .msU32 | .msF32 => s.measureEffect 32
  | .msU64 | .msF64 => s.measureEffect 64
  | .wrUvar => s.writeVarintEffect
  | .rdUvar => s.readVarintEffect
  | .msUvar =>
    let k := 8 * varintLen s.op.val
    s.advanceEffect ((s.varintFault s.op.val).or (s.cursorFault k)) k
  | .wrF16 => s.writeFloatEffect 2
  | .wrF32 => s.writeFloatEffect 4
  | .wrF64 => s.writeFloatEffect 8
  | .rdF16 => s.readFloatEffect 2
  | .rdF32 => s.readFloatEffect 4
  | .rdF64 => s.readFloatEffect 8
  | .wrStr nul => s.writeStringEffect nul
  | .rdStr => s.readStringEffect
  | .msStr nul =>
    let k := stringBits s.lenBytes
    s.advanceEffect ((s.nullLenFault nul).or <| s.stringFault.or (s.cursorFault k)) k
  | .wrBytes =>
    let k := 8 * s.lenBytes
    { s.advanceEffect (s.payloadFault.or (s.spanFault k)) k with buf := packBytes s.buf s.cur s.op.pin }
  | .rdBytes =>
    let k := 8 * s.lenBytes
    { s.advanceEffect (s.spanFault k) k with
      resp := Response.bytes k s.op.len (unpackBytes s.buf s.cur s.lenBytes) }
  | .msBytes => s.measureEffect (8 * s.lenBytes)
  | .reset => { s.advanceEffect none 0 with cur := 0 }
  | .attach =>
    { s.advanceEffect (s.payloadFault.or (s.bufCapFault s.lenBytes)) 0 with
      buf := Memory.ofBytes s.buf.epoch s.op.pin, buflen := s.lenBytes }
  | .setcfg => { s.advanceEffect s.configFault 0 with cfg := BitVec.ofNat 1 s.op.val }

/-- A command is its effect: the fault it finds, or its commit. -/
theorem exec_eq_effect (i : Instr) (s : State) :
    exec i s = s.conclude (effectOf i s).fault ((effectOf i s).done s) := by
  cases i
  case wrUbits f =>
    simp only [exec, execWrUbits, effectOf, State.widthEffect]
    cases Width.ofField f <;> rfl
  case rdUbits f =>
    simp only [exec, execRdUbits, effectOf, State.widthEffect]
    cases Width.ofField f <;> rfl
  case msUbits f =>
    simp only [exec, execMsUbits, effectOf, State.widthEffect]
    cases Width.ofField f <;> rfl
  case rdUvar =>
    simp only [exec, execRdUvar, effectOf, State.readVarintEffect]
    rcases varintDec s.buf s.buflen s.cur with _ | ⟨v, k⟩ <;> rfl
  all_goals rfl

/-- Everything a command can do: it raises the fault its checks find, or they find none and it commits. -/
theorem exec_cases {i : Instr} {s t : State} (h : exec i s = .next t) :
    (∃ f, (effectOf i s).fault = some f ∧ t = s.raise f) ∨
      ((effectOf i s).fault = none ∧ t = (effectOf i s).done s) :=
  State.conclude_cases (exec_eq_effect i s ▸ h)

end Sys2Proof.Machine
end

