-- ==== Sys2Proof/Laws/PerInstr.lean ====
section
/-! SUPPORT. Statements made once per instruction, with one lemma per constructor. -/

namespace Sys2Proof.Laws

/-- The word the encoder gives an instruction selects that instruction's own row of R79. -/
def EncodesRow.Statement (i : Instr) : Prop := i.row.selects (encode i) = true

theorem EncodesRow.wrUbits (width : BitVec 6) : EncodesRow.Statement (.wrUbits width) := by
  revert width; unfold EncodesRow.Statement; decide

theorem EncodesRow.rdUbits (width : BitVec 6) : EncodesRow.Statement (.rdUbits width) := by
  revert width; unfold EncodesRow.Statement; decide

theorem EncodesRow.msUbits (width : BitVec 6) : EncodesRow.Statement (.msUbits width) := by
  revert width; unfold EncodesRow.Statement; decide

theorem EncodesRow.wrU8 : EncodesRow.Statement .wrU8 := rfl

theorem EncodesRow.rdU8 : EncodesRow.Statement .rdU8 := rfl

theorem EncodesRow.msU8 : EncodesRow.Statement .msU8 := rfl

theorem EncodesRow.wrU16 : EncodesRow.Statement .wrU16 := rfl

theorem EncodesRow.rdU16 : EncodesRow.Statement .rdU16 := rfl

theorem EncodesRow.msU16 : EncodesRow.Statement .msU16 := rfl

theorem EncodesRow.wrU32 : EncodesRow.Statement .wrU32 := rfl

theorem EncodesRow.rdU32 : EncodesRow.Statement .rdU32 := rfl

theorem EncodesRow.msU32 : EncodesRow.Statement .msU32 := rfl

theorem EncodesRow.wrU64 : EncodesRow.Statement .wrU64 := rfl

theorem EncodesRow.rdU64 : EncodesRow.Statement .rdU64 := rfl

theorem EncodesRow.msU64 : EncodesRow.Statement .msU64 := rfl

theorem EncodesRow.wrUvar : EncodesRow.Statement .wrUvar := rfl

theorem EncodesRow.rdUvar : EncodesRow.Statement .rdUvar := rfl

theorem EncodesRow.msUvar : EncodesRow.Statement .msUvar := rfl

theorem EncodesRow.wrF16 : EncodesRow.Statement .wrF16 := rfl

theorem EncodesRow.rdF16 : EncodesRow.Statement .rdF16 := rfl

theorem EncodesRow.msF16 : EncodesRow.Statement .msF16 := rfl

theorem EncodesRow.wrF32 : EncodesRow.Statement .wrF32 := rfl

theorem EncodesRow.rdF32 : EncodesRow.Statement .rdF32 := rfl

theorem EncodesRow.msF32 : EncodesRow.Statement .msF32 := rfl

theorem EncodesRow.wrF64 : EncodesRow.Statement .wrF64 := rfl

theorem EncodesRow.rdF64 : EncodesRow.Statement .rdF64 := rfl

theorem EncodesRow.msF64 : EncodesRow.Statement .msF64 := rfl

theorem EncodesRow.wrStr (nul : Bool) : EncodesRow.Statement (.wrStr nul) := by
  cases nul <;> rfl

theorem EncodesRow.rdStr : EncodesRow.Statement .rdStr := rfl

theorem EncodesRow.msStr (nul : Bool) : EncodesRow.Statement (.msStr nul) := by
  cases nul <;> rfl

theorem EncodesRow.wrBytes : EncodesRow.Statement .wrBytes := rfl

theorem EncodesRow.rdBytes : EncodesRow.Statement .rdBytes := rfl

theorem EncodesRow.msBytes : EncodesRow.Statement .msBytes := rfl

theorem EncodesRow.reset : EncodesRow.Statement .reset := rfl

theorem EncodesRow.attach : EncodesRow.Statement .attach := rfl

theorem EncodesRow.setcfg : EncodesRow.Statement .setcfg := rfl

end Sys2Proof.Laws
end

