-- ==== Sys2Proof/Tests/Slice0.lean ====
section
/-! SUPPORT. Tests of the model on the spec's own vectors, and a witness for the hypotheses of every
statement. An identifier such as `UB7` or `P4` names the vector of `spec/95_test_vectors.md` that the
expected result is taken from. -/

namespace Sys2Proof.Tests

open Sys2Proof.Machine

/-! ### Helpers -/

/-- A block in `IDLE` with these bytes attached, this cursor, and one command presented. -/
def present (bytes : List Byte) (cur : Nat) (cmd : Word) (val : Nat := 0) (len : BitVec 32 := 0)
    (pin : List Byte := []) : State :=
  { State.reset with
    buf := Memory.ofBytes 0 bytes, buflen := bytes.length, cur := cur
    scr := List.replicate 8 0
    host := [.command { cmd := cmd, val := val, len := len, pin := pin }] }

/-- `SETCFG 1` has been done. -/
def bigEndian (s : State) : State := { s with cfg := 1 }

/-- `CURSOR_BITS` is finite. -/
def cursorBits (n : Nat) (s : State) : State := { s with params := { s.params with cursorBits := some n } }

/-- The buffer, the cursor and the response after one step. -/
def seen (s : State) : Option (List Byte × Nat × Option Response) :=
  match step s with
  | .next t => some ((List.range t.buflen).map t.buf.read, t.cur, t.resp)
  | .fault _ | .refused _ => none

/-- A commit that returns nothing but `ADV`. -/
def wrote (bytes : List Byte) (cur adv : Nat) : Option (List Byte × Nat × Option Response) :=
  some (bytes, cur, some { fault := 0, adv := adv, rval := none, rlen := none, rnul := none, pout := none })

/-- A commit that returns a value. -/
def gave (bytes : List Byte) (cur adv rval : Nat) : Option (List Byte × Nat × Option Response) :=
  some (bytes, cur, some { fault := 0, adv := adv, rval := some rval, rlen := none, rnul := none, pout := none })

/-- A commit that returns a payload. -/
def gavePayload (bytes : List Byte) (cur adv : Nat) (rlen : BitVec 32) (rnul : Option Bool)
    (pout : List Byte) : Option (List Byte × Nat × Option Response) :=
  some (bytes, cur, some { fault := 0, adv := adv, rval := none, rlen := some rlen, rnul := rnul, pout := some pout })

/-- A fault response. -/
def faulted (bytes : List Byte) (cur : Nat) (code : BitVec 3) : Option (List Byte × Nat × Option Response) :=
  some (bytes, cur, some { fault := code, adv := 0, rval := none, rlen := none, rnul := none, pout := none })

/-! ### Well-formedness: an ill-formed term for each check, and the ends of the legal range -/

theorem test_wrUbits_width_0_is_ill_formed : (Instr.wrUbits 0).wellFormed = false := by decide
theorem test_wrUbits_width_33_is_ill_formed : (Instr.wrUbits 33).wellFormed = false := by decide
theorem test_rdUbits_width_0_is_ill_formed : (Instr.rdUbits 0).wellFormed = false := by decide
theorem test_rdUbits_width_63_is_ill_formed : (Instr.rdUbits 63).wellFormed = false := by decide
theorem test_msUbits_width_0_is_ill_formed : (Instr.msUbits 0).wellFormed = false := by decide
theorem test_msUbits_width_40_is_ill_formed : (Instr.msUbits 40).wellFormed = false := by decide
theorem test_widths_1_and_32_are_well_formed :
    ((Instr.wrUbits 1).wellFormed && (Instr.rdUbits 32).wellFormed && (Instr.msUbits 32).wellFormed) = true := by
  decide

/-! ### Decoding: words written out bit by bit, `reserved_NUL_WIDTH_KIND_MODE` (R71, R72, R73, R77) -/

theorem test_decode_ubits :
    decode 0b0000000000000000000_0_000011_0000_00 = .ok (.wrUbits 3) ∧
    decode 0b0000000000000000000_0_100000_0000_01 = .ok (.rdUbits 32) ∧
    decode 0b0000000000000000000_0_010001_0000_10 = .ok (.msUbits 17) := ⟨rfl, rfl, rfl⟩

theorem test_decode_u8_u16 :
    decode 0b0000000000000000000_0_000000_0001_00 = .ok .wrU8 ∧
    decode 0b0000000000000000000_0_000000_0001_01 = .ok .rdU8 ∧
    decode 0b0000000000000000000_0_000000_0001_10 = .ok .msU8 ∧
    decode 0b0000000000000000000_0_000000_0010_00 = .ok .wrU16 ∧
    decode 0b0000000000000000000_0_000000_0010_01 = .ok .rdU16 ∧
    decode 0b0000000000000000000_0_000000_0010_10 = .ok .msU16 := ⟨rfl, rfl, rfl, rfl, rfl, rfl⟩

theorem test_decode_u32_u64 :
    decode 0b0000000000000000000_0_000000_0011_00 = .ok .wrU32 ∧
    decode 0b0000000000000000000_0_000000_0011_01 = .ok .rdU32 ∧
    decode 0b0000000000000000000_0_000000_0011_10 = .ok .msU32 ∧
    decode 0b0000000000000000000_0_000000_0100_00 = .ok .wrU64 ∧
    decode 0b0000000000000000000_0_000000_0100_01 = .ok .rdU64 ∧
    decode 0b0000000000000000000_0_000000_0100_10 = .ok .msU64 := ⟨rfl, rfl, rfl, rfl, rfl, rfl⟩

theorem test_decode_uvar :
    decode 0b0000000000000000000_0_000000_0101_00 = .ok .wrUvar ∧
    decode 0b0000000000000000000_0_000000_0101_01 = .ok .rdUvar ∧
    decode 0b0000000000000000000_0_000000_0101_10 = .ok .msUvar := ⟨rfl, rfl, rfl⟩

theorem test_decode_floats :
    decode 0b0000000000000000000_0_000000_0110_00 = .ok .wrF16 ∧
    decode 0b0000000000000000000_0_000000_0110_01 = .ok .rdF16 ∧
    decode 0b0000000000000000000_0_000000_0110_10 = .ok .msF16 ∧
    decode 0b0000000000000000000_0_000000_0111_00 = .ok .wrF32 ∧
    decode 0b0000000000000000000_0_000000_0111_01 = .ok .rdF32 ∧
    decode 0b0000000000000000000_0_000000_0111_10 = .ok .msF32 ∧
    decode 0b0000000000000000000_0_000000_1000_00 = .ok .wrF64 ∧
    decode 0b0000000000000000000_0_000000_1000_01 = .ok .rdF64 ∧
    decode 0b0000000000000000000_0_000000_1000_10 = .ok .msF64 :=
  ⟨rfl, rfl, rfl, rfl, rfl, rfl, rfl, rfl, rfl⟩

theorem test_decode_str :
    decode 0b0000000000000000000_0_000000_1001_00 = .ok (.wrStr false) ∧
    decode 0b0000000000000000000_1_000000_1001_00 = .ok (.wrStr true) ∧
    decode 0b0000000000000000000_0_000000_1001_01 = .ok .rdStr ∧
    decode 0b0000000000000000000_0_000000_1001_10 = .ok (.msStr false) ∧
    decode 0b0000000000000000000_1_000000_1001_10 = .ok (.msStr true) := ⟨rfl, rfl, rfl, rfl, rfl⟩

theorem test_decode_bytes :
    decode 0b0000000000000000000_0_000000_1010_00 = .ok .wrBytes ∧
    decode 0b0000000000000000000_0_000000_1010_01 = .ok .rdBytes ∧
    decode 0b0000000000000000000_0_000000_1010_10 = .ok .msBytes := ⟨rfl, rfl, rfl⟩

theorem test_decode_control :
    decode 0b0000000000000000000_0_000000_0000_11 = .ok .reset ∧
    decode 0b0000000000000000000_0_000000_0001_11 = .ok .attach ∧
    decode 0b0000000000000000000_0_000000_0010_11 = .ok .setcfg := ⟨rfl, rfl, rfl⟩

/-- The reserved encodings, one word for each name (FI26, CT8 to CT12, ST18). -/
theorem test_decode_reserved :
    decode 0x00002004 = .error .reservedBits ∧ decode 0x80000003 = .error .reservedBits ∧
    decode 0x0000002C = .error .reservedKind ∧ decode 0x0000000F = .error .reservedFunc ∧
    decode 0x00000044 = .error .widthNotZero ∧ decode 0x00000043 = .error .widthNotZero ∧
    decode 0x00001025 = .error .nulSet := ⟨rfl, rfl, rfl, rfl, rfl, rfl, rfl⟩

theorem test_decodeTableWord_reads_the_row : decodeTableWord 32 0x29 = some .rdBytes := by decide

/-! ### One step of each command -/

/-- UB7. -/
theorem test_wrUbits_straddles_bytes :
    seen (present [0x00, 0x00] 6 0x100 0xB) = wrote [0xC0, 0x02] 10 4 := by decide
/-- UB6. -/
theorem test_wrUbits_keeps_neighbours :
    seen (present [0xFF, 0xFF, 0xFF, 0xFF, 0xFF] 1 0x800 0) = wrote [0x01, 0, 0, 0, 0xFE] 33 32 := by decide
/-- UB18. -/
theorem test_rdUbits_unaligned :
    seen (present [0x12, 0x34, 0x56, 0x78, 0x9A] 4 0x801) =
      gave [0x12, 0x34, 0x56, 0x78, 0x9A] 36 32 0xA7856341 := by decide
/-- UB21. -/
theorem test_rdUbits_one_bit_beyond_the_buffer :
    seen (present [0xA5] 1 0x201) = faulted [0xA5] 1 1 := by decide
/-- UB23. -/
theorem test_msUbits_ignores_the_buffer : seen (present [] 5 0x442 9) = wrote [] 22 17 := by decide
/-- UB27. -/
theorem test_msUbits_refuses_width_40 : seen (present [] 0 0xA02) = faulted [] 0 3 := by decide
/-- FI3. -/
theorem test_wrU8_clears_only_its_span : seen (present [0xFF, 0xFF] 4 0x04 0) = wrote [0x0F, 0xF0] 12 8 := by
  decide
/-- FI4. -/
theorem test_wrU8_truncates : seen (present [0, 0] 0 0x04 0x1A5) = wrote [0xA5, 0] 8 8 := by decide
/-- FI15. -/
theorem test_rdU8_straddles : seen (present [0x55, 0xA3] 3 0x05) = gave [0x55, 0xA3] 11 8 0x6A := by decide
/-- FI25. -/
theorem test_msU8_advances_8 : seen (present [] 7 0x06) = wrote [] 15 8 := by decide
/-- PR5. -/
theorem test_msU8_never_wraps : seen (cursorBits 8 (present [] 250 0x06)) = faulted [] 250 4 := by decide
/-- FI5. -/
theorem test_wrU16_little_endian : seen (present [0, 0] 0 0x08 0x1234) = wrote [0x34, 0x12] 16 16 := by decide
/-- FI17. -/
theorem test_rdU16_little_endian : seen (present [0x34, 0x12] 0 0x09) = gave [0x34, 0x12] 16 16 0x1234 := by
  decide
/-- FI22. -/
theorem test_rdU16_half_a_field : seen (present [0xFF] 0 0x09) = faulted [0xFF] 0 1 := by decide
/-- FI25. -/
theorem test_msU16_advances_16 : seen (present [] 15 0x0A) = wrote [] 31 16 := by decide
/-- FI8. -/
theorem test_wrU32_unaligned :
    seen (present [0, 0, 0, 0, 0] 4 0x0C 0xDEADBEEF) = wrote [0xF0, 0xEE, 0xDB, 0xEA, 0x0D] 36 32 := by decide
/-- FI18. -/
theorem test_rdU32_unaligned :
    seen (present [0xF0, 0xEE, 0xDB, 0xEA, 0x0D] 4 0x0D) =
      gave [0xF0, 0xEE, 0xDB, 0xEA, 0x0D] 36 32 0xDEADBEEF := by decide
/-- FI25. -/
theorem test_msU32_advances_32 : seen (present [] 31 0x0E) = wrote [] 63 32 := by decide
/-- FI11. -/
theorem test_wrU64_bits_0_and_63 :
    seen (present [0, 0, 0, 0, 0, 0, 0, 0, 0] 3 0x10 0x8000000000000001) =
      wrote [0x08, 0, 0, 0, 0, 0, 0, 0, 0x04] 67 64 := by decide
/-- FI13. -/
theorem test_wrU64_writes_no_chunk_on_a_fault :
    seen (present [0xEE, 0xEE, 0xEE, 0xEE, 0xEE, 0xEE, 0xEE, 0xEE] 1 0x10 0) =
      faulted [0xEE, 0xEE, 0xEE, 0xEE, 0xEE, 0xEE, 0xEE, 0xEE] 1 1 := by decide
/-- FI19. -/
theorem test_rdU64_little_endian :
    seen (present [0xEF, 0xCD, 0xAB, 0x89, 0x67, 0x45, 0x23, 0x01] 0 0x11) =
      gave [0xEF, 0xCD, 0xAB, 0x89, 0x67, 0x45, 0x23, 0x01] 64 64 0x0123456789ABCDEF := by decide
/-- FI25. -/
theorem test_msU64_advances_64 : seen (present [] 63 0x12) = wrote [] 127 64 := by decide
/-- The example of R144. -/
theorem test_wrUvar_300_unaligned :
    seen (present [0x05, 0x00, 0x00] 3 0x14 300) = wrote [0x65, 0x15, 0x00] 19 16 := by decide
/-- Table VE, `2^64 - 1` in ten bytes. -/
theorem test_varintEnc_ten_bytes :
    varintEnc 0xFFFFFFFFFFFFFFFF = [0xFF, 0xFF, 0xFF, 0xFF, 0xFF, 0xFF, 0xFF, 0xFF, 0xFF, 0x01] := by decide
/-- The example of R145. -/
theorem test_rdUvar_300_unaligned :
    seen (present [0x65, 0x15, 0x00] 3 0x15) = gave [0x65, 0x15, 0x00] 19 16 300 := by decide
/-- R147: the non-minimal encoding of 300 in 24 bits. -/
theorem test_rdUvar_accepts_non_minimal :
    seen (present [0xAC, 0x82, 0x00] 0 0x15) = gave [0xAC, 0x82, 0x00] 24 24 300 := by decide
/-- P6 step 5. -/
theorem test_msUvar_beyond_64_bits : seen (present [] 105 0x16 (2 ^ 64)) = wrote [] 185 80 := by decide
/-- FL3. -/
theorem test_wrF16_unaligned : seen (present [0x05, 0, 0] 3 0x18 0xD46A) = wrote [0x55, 0xA3, 0x06] 19 16 := by
  decide
/-- FL4. -/
theorem test_wrF16_big_endian_unaligned :
    seen (bigEndian (present [0x05, 0, 0] 3 0x18 0xD46A)) = wrote [0xA5, 0x56, 0x03] 19 16 := by decide
/-- FL13. -/
theorem test_rdF16_unaligned :
    seen (present [0x55, 0xA3, 0x06] 3 0x19) = gave [0x55, 0xA3, 0x06] 19 16 0xD46A := by decide
/-- FL15. -/
theorem test_rdF16_other_byte_order :
    seen (bigEndian (present [0x6A, 0xD4] 0 0x19)) = gave [0x6A, 0xD4] 16 16 0x6AD4 := by decide
/-- FL22. -/
theorem test_msF16_advances_16 : seen (bigEndian (present [] 0 0x1A)) = wrote [] 16 16 := by decide
/-- FL7. -/
theorem test_wrF32_big_endian_unaligned :
    seen (bigEndian (present [0, 0, 0, 0, 0] 4 0x1C 0x42B6AE92)) = wrote [0x20, 0x64, 0xEB, 0x2A, 0x09] 36 32 := by
  decide
/-- FL16. -/
theorem test_rdF32_big_endian :
    seen (bigEndian (present [0x42, 0xB6, 0xAE, 0x92] 0 0x1D)) =
      gave [0x42, 0xB6, 0xAE, 0x92] 32 32 0x42B6AE92 := by decide
/-- FL22. -/
theorem test_msF32_advances_32 : seen (present [] 16 0x1E) = wrote [] 48 32 := by decide
/-- FL10. -/
theorem test_wrF64_unaligned :
    seen (present [0, 0, 0, 0, 0, 0, 0, 0, 0] 1 0x20 0x3FF0000000000000) =
      wrote [0, 0, 0, 0, 0, 0, 0xE0, 0x7F, 0] 65 64 := by decide
/-- FL9. -/
theorem test_wrF64_big_endian :
    seen (bigEndian (present [0, 0, 0, 0, 0, 0, 0, 0] 0 0x20 0xC051A80000000000)) =
      wrote [0xC0, 0x51, 0xA8, 0, 0, 0, 0, 0] 64 64 := by decide
/-- FL17. -/
theorem test_rdF64_little_endian :
    seen (present [0, 0, 0, 0, 0, 0xA8, 0x51, 0xC0] 0 0x21) =
      gave [0, 0, 0, 0, 0, 0xA8, 0x51, 0xC0] 64 64 0xC051A80000000000 := by decide
/-- FL22. -/
theorem test_msF64_advances_64 : seen (present [] 48 0x22) = wrote [] 112 64 := by decide
/-- ST2. -/
theorem test_wrStr_unaligned :
    seen (present [0xFF, 0xFF, 0xFF, 0xFF, 0xFF] 3 0x24 0 1 [0x41]) =
      wrote [0x0F, 0x00, 0x08, 0xFA, 0xFF] 27 24 := by decide
/-- ST7: `NUL` with a payload. -/
theorem test_wrStr_null_with_payload : seen (present [0, 0] 0 0x1024 0 1 [0x41]) = faulted [0, 0] 0 3 := by
  decide
/-- ST3. -/
theorem test_rdStr_unaligned :
    seen (present [0x0F, 0x00, 0x08, 0xFA, 0xFF] 3 0x25) =
      gavePayload [0x0F, 0x00, 0x08, 0xFA, 0xFF] 27 24 1 (some false) [0x41] := by decide
/-- S3 step 5: the empty string reads back as null. -/
theorem test_rdStr_zero_prefix_is_null :
    seen (present [0, 0, 0, 0] 16 0x25) =
      gavePayload [0, 0, 0, 0] 32 16 0 (some true) [] := by decide
/-- ST14. -/
theorem test_msStr_longest : seen (present [] 0 0x26 0 65535) = wrote [] 524296 524296 := by decide
/-- ST15. -/
theorem test_msStr_too_long : seen (present [] 0 0x26 0 65536) = faulted [] 0 2 := by decide
/-- BY1. -/
theorem test_wrBytes_unaligned :
    seen (present [0x05, 0, 0] 3 0x28 0 2 [0xFF, 0x01]) = wrote [0xFD, 0x0F, 0x00] 19 16 := by decide
/-- BY4: an empty span is never out of bounds (C8). -/
theorem test_wrBytes_empty_beyond_the_buffer : seen (present [0, 0] 99 0x28) = wrote [0, 0] 99 0 := by decide
/-- BY6. -/
theorem test_rdBytes_unaligned :
    seen (present [0xFD, 0x0F, 0x00] 3 0x29 0 2) =
      gavePayload [0xFD, 0x0F, 0x00] 19 16 2 none [0xFF, 0x01] := by decide
/-- BY9. -/
theorem test_msBytes_advances : seen (present [] 7 0x2A 0 5) = wrote [] 47 40 := by decide
/-- CT1. -/
theorem test_reset_keeps_buffer_and_flt :
    step { present [1, 2, 3] 59 0x03 with flt := 1 } =
      .next { present [1, 2, 3] 59 0x03 with
        flt := 1, cur := 0, host := [], op := { cmd := 0x03, val := 0, len := 0, pin := [] }
        resp := some { fault := 0, adv := 0, rval := none, rlen := none, rnul := none, pout := none } } := rfl
/-- CT3. -/
theorem test_attach_placeholder : seen (present [1, 2, 3] 59 0x07) = wrote [] 59 0 := by decide
/-- CT5. -/
theorem test_attach_length_mismatch : seen (present [1, 2, 3] 5 0x07 0 2 [9]) = faulted [1, 2, 3] 5 3 := by decide

/-- `CFG` and `FLT` after one step. -/
def status (s : State) : Option (BitVec 1 × BitVec 4) :=
  match step s with
  | .next t => some (t.cfg, t.flt)
  | .fault _ | .refused _ => none

/-- CT6. -/
theorem test_setcfg_sets_fbe : status (present [] 0 0x0B 1) = some (1, 0) := by decide
/-- CT7. -/
theorem test_setcfg_2_is_illegal : status (bigEndian (present [] 0 0x0B 2)) = some (1, 0b0100) := by decide
/-- P4 step 5: bit 2 of `FLT` joins bit 0. -/
theorem test_flt_accumulates :
    status { present [0xAB, 0x00] 8 0xA00 1 with flt := 0b0001 } = some (0, 0b0101) := by decide
/-- PR4: `IllegalCommand` before `LengthExceeded`. -/
theorem test_illegal_before_length :
    seen (present [0, 0] 0 0x24 0 70000 [1, 2, 3, 4, 5]) = faulted [0, 0] 0 3 := by decide
/-- PR6: `OutOfBounds` before `CapacityExceeded`. -/
theorem test_bounds_before_capacity :
    seen (cursorBits 8 (present [0, 0, 0, 0] 250 0x04 1)) = faulted [0, 0, 0, 0] 250 1 := by decide
/-- Table FV: 0xD46A is -70.625, 0x3C00 is 1. -/
theorem test_f16Value : f16Value 0xD46A = .finite true (565 / 8) ∧ f16Value 0x3C00 = .finite false 1 := by
  constructor <;> decide +kernel

/-! ### Witnesses: for every statement with hypotheses, a state and operands that meet them -/

/-- A state with a cursor, a buffer length, and finite capacities where given. -/
def sized (cur buflen : Nat) (bits : Option Nat) (c : Command) : State :=
  { State.reset with
    cur := cur, buflen := buflen, op := c
    params := { Params.standard with cursorBits := bits, varintBits := some 7, bufCap := some 4 } }

/-- A command record with no operand but these. -/
def record (val : Nat) (len : BitVec 32) (pin : List Byte) : Command :=
  { cmd := 0, val := val, len := len, pin := pin }

/-- A span of `k` bits that ends one bit beyond the buffer. -/
def overBuffer (k : Nat) (c : Command) : State := sized (7 * k + 1) k none c

/-- A span of `k` bits that ends with the buffer, at a cursor that would be exactly `2^CURSOR_BITS`. -/
def overCursor (k : Nat) (c : Command) : State := sized (1024 - k) 128 (some 10) c

/-- A span of `k` bits that fits, at a cursor that would be exactly `2^CURSOR_BITS - 1`. -/
def lastCursor (k : Nat) (c : Command) : State := sized (1023 - k) 128 (some 10) c

/-- The three cases of a span of `k` bits, each at its boundary. -/
def SpanCases (k : Nat) (c : Command) : Prop :=
  ¬(overBuffer k c).SpanFits k ∧ ((overCursor k c).SpanFits k ∧ ¬(overCursor k c).CursorRoom k) ∧
    (lastCursor k c).SpanFits k ∧ (lastCursor k c).CursorRoom k

theorem spanCases {k : Nat} {c : Command} (h : k ≤ 1023) : SpanCases k c := by
  refine ⟨?_, ⟨?_, fun room => ?_⟩, ?_, fun n hn => ?_⟩
  · show ¬7 * k + 1 + k ≤ 8 * k; omega
  · show 1024 - k + k ≤ 8 * 128; omega
  · have : 1024 - k + k < 2 ^ 10 := room 10 rfl
    omega
  · show 1023 - k + k ≤ 8 * 128; omega
  · cases hn
    show 1023 - k + k < 2 ^ 10; omega

/-- The two cases of a measure by `k` bits, each at its boundary. -/
theorem measureCases {k : Nat} {c : Command} (h : k ≤ 1023) :
    ¬(overCursor k c).CursorRoom k ∧ (lastCursor k c).CursorRoom k :=
  ⟨(spanCases h).2.1.2, (spanCases h).2.2.2⟩

theorem varintBytes_127 : varintBytes 127 = 1 := by
  have : Nat.size 127 = 7 := le_antisymm (Nat.size_le.2 (by decide)) (Nat.lt_size.2 (by decide))
  simp [varintBytes, this]

theorem varintBytes_128 : varintBytes 128 = 2 := by
  have : Nat.size 128 = 8 := le_antisymm (Nat.size_le.2 (by decide)) (Nat.lt_size.2 (by decide))
  simp [varintBytes, this]

/-- 127 is the last value below `2^VARINT_BITS` of `sized`, 128 the first at it. -/
theorem varintCases (s : State) (h : s.params.varintBits = some 7) : s.VarintRoom 127 ∧ ¬s.VarintRoom 128 :=
  ⟨fun n hn => by rw [h] at hn; cases hn; decide, fun room => absurd (room 7 h) (by decide)⟩

theorem witness_DecodeInvertsEncode : decode 0x000000C0 = .ok (.wrUbits 3) := rfl

theorem witness_DecodeSelectsTheRow : decode 0x00001026 = .ok (.msStr true) := rfl

/-- A command presented in `IDLE`, its word reserved by each of R82 (a) to (f). -/
theorem witness_ReservedWordRaisesIllegal :
    (present [] 0 0x2000).disp = .idle ∧
    (present [] 0 0x2000).host = [.command { cmd := 0x2000, val := 0, len := 0, pin := [] }] ∧
    ∀ w ∈ [0x2000#32, 0x2C#32, 0x0F#32, 0x44#32, 0x00#32, 0x840#32, 0x1025#32], ReservedWord w := by
  refine ⟨rfl, rfl, ?_⟩
  simp only [List.forall_mem_cons]
  unfold ReservedWord
  exact ⟨by decide, by decide, by decide, by decide, by decide, by decide, by decide, nofun⟩

theorem witness_StepRunsDecodedCommand :
    ((present [] 0 0x06).disp = .idle ∧
      (present [] 0 0x06).host = [.command { cmd := 0x06, val := 0, len := 0, pin := [] }] ∧
      decode 0x06 = .ok .msU8) ∧
    (let s := { State.reset with disp := .busy, op := resetCommand };
      s.disp = .busy ∧ decode s.op.cmd = .ok .reset) ∧
    (State.reset.disp = .idle ∧ State.reset.host = []) :=
  ⟨⟨rfl, rfl, rfl⟩, ⟨rfl, rfl⟩, rfl, rfl⟩

theorem witness_HardwareResetSetsState :
    let s := { present [1] 5 0x06 with flt := 0b1111, host := [.hardwareReset] }
    s.disp = .idle ∧ s.host = [.hardwareReset] := ⟨rfl, rfl⟩

theorem witness_EveryStepAnswers :
    (present [] 0 0x06).disp = .idle ∧ ({ present [] 0 0x06 with disp := .busy } : State).disp = .busy :=
  ⟨rfl, rfl⟩

/-- The byte 0x00 already holds the value 0. -/
theorem witness_PackBitsClosedForm :
    let m := Memory.ofBytes 0 [0x00]
    SpanHolds m m 0 Width.w8.val (fun i => Nat.testBit 0 i) :=
  ⟨by decide, fun _ _ => rfl, fun _ _ => rfl⟩

/-- A span that ends with the buffer. -/
theorem witness_PackBitsOverwritesAndTruncates :
    (Memory.ofBytes 0 [0x12, 0x34, 0x56]).wf 3 ∧ 8 + Width.w16.val ≤ 8 * 3 := ⟨by decide, by decide⟩

theorem witness_PackBitsConcatenates :
    Width.w32.val = Width.w16.val + Width.w16.val ∧
    (Memory.ofBytes 0 [1, 2, 3, 4, 5]).wf 5 ∧ 8 + Width.w32.val ≤ 8 * 5 := ⟨by decide, by decide, by decide⟩

/-- The last byte of each width. -/
theorem witness_AlignedLittleEndian : 1 < 2 ∧ 3 < 4 ∧ 7 < 8 := by decide

/-- The last bit of a one-byte and of a two-byte encoding. -/
theorem witness_VarintEncodingShape : 7 < 8 * varintBytes 127 ∧ 15 < 8 * varintBytes 128 ∧ 127 ≠ 0 := by
  rw [varintBytes_127, varintBytes_128]; decide

/-- An encoding that ends with the buffer. -/
theorem witness_VarintDecodesItsEncoding : 8 + 8 * varintLen 300 ≤ 8 * 3 := by decide

theorem witness_NonMinimalVarintAccepted :
    0 + 8 * (((varintEnc 300).map (· ||| 0x80)).length + 1 + 1) ≤ 8 * 4 := by decide

theorem witness_FloatCodecClosedForm :
    (Memory.ofBytes 0 [1, 2, 3, 4]).wf 4 ∧ 16 + 16 ≤ 8 * 4 ∧ 0 + 32 ≤ 8 * 4 := ⟨by decide, by decide, by decide⟩

theorem witness_FloatByteOrderMismatch : 2 ∈ [2, 4, 8] ∧ 4 ∈ [2, 4, 8] ∧ 8 ∈ [2, 4, 8] := by decide

/-- Sign, exponent and mantissa field of 0x03FF, 0x7C00, 0xFC01, 0x0400, 0x3BFF, 0x3C00, 0x7BFF. -/
theorem witness_Binary16Value :
    (0 < 2 ∧ 0 < 32 ∧ 1023 < 1024 ∧ 0 = 0) ∧ (31 < 32 ∧ 31 = 31 ∧ 0 = 0) ∧ (1 < 2 ∧ 31 = 31 ∧ 1 ≠ 0) ∧
    (0 < 1 ∧ 1 < 15) ∧ (0 < 14 ∧ 14 < 15) ∧ (15 ≤ 15 ∧ 15 < 31) ∧ (15 ≤ 30 ∧ 30 < 31) := by decide

theorem witness_WriteUbitsRule :
    ((0 : BitVec 6).toNat = 0 ∧ 32 < (33 : BitVec 6).toNat) ∧
    (1 ≤ (1 : BitVec 6).toNat ∧ (32 : BitVec 6).toNat ≤ 32) ∧
    SpanCases 1 (record 1 0 []) ∧ SpanCases 32 (record 1 0 []) :=
  ⟨by decide, by decide, spanCases (by decide), spanCases (by decide)⟩

theorem witness_WriteFixedIntegerRules :
    SpanCases 8 (record 1 0 []) ∧ SpanCases 16 (record 1 0 []) ∧ SpanCases 32 (record 1 0 []) ∧
    SpanCases 64 (record 1 0 []) :=
  ⟨spanCases (by decide), spanCases (by decide), spanCases (by decide), spanCases (by decide)⟩

/-- 127 takes one byte and is below the ceiling, 128 takes two and is at it. -/
theorem witness_WriteVarintRule :
    let c := record 127 0 []
    let d := record 128 0 []
    8 * varintBytes 127 = 8 ∧ SpanCases 8 c ∧ (lastCursor 8 c).VarintRoom 127 ∧
    8 * varintBytes 128 = 16 ∧ SpanCases 16 d ∧ ¬(lastCursor 16 d).VarintRoom 128 :=
  ⟨by rw [varintBytes_127], spanCases (by decide), (varintCases _ rfl).1,
    by rw [varintBytes_128], spanCases (by decide), (varintCases _ rfl).2⟩

theorem witness_WriteFloatRules :
    SpanCases (8 * 2) (record 1 0 []) ∧ SpanCases (8 * 4) (record 1 0 []) ∧ SpanCases (8 * 8) (record 1 0 []) :=
  ⟨spanCases (by decide), spanCases (by decide), spanCases (by decide)⟩

/-- A payload shorter than `LEN`; the null string with a payload; 65535 bytes is not above the limit,
65536 is; the legal empty, null and two-byte strings with each case of their span. -/
theorem witness_WriteStringRule :
    let legal := fun (nul : Bool) (c : Command) =>
      (nul = true → c.len.toNat = 0 ∧ c.pin = []) ∧ c.pin.length = c.len.toNat
    (¬legal false (record 0 2 [0x41]) ∧ ¬legal true (record 0 1 [0x41])) ∧
    (legal false (record 0 65536 (List.replicate 65536 0x5A)) ∧ 65535 < (65536 : BitVec 32).toNat) ∧
    (65535 : BitVec 32).toNat ≤ 65535 ∧
    (legal false (record 0 0 []) ∧ legal true (record 0 0 []) ∧ SpanCases 16 (record 0 0 [])) ∧
    (legal false (record 0 2 [0x68, 0x69]) ∧ SpanCases 32 (record 0 2 [0x68, 0x69])) := by
  refine ⟨⟨?_, ?_⟩, ⟨⟨nofun, ?_⟩, by decide⟩, by decide, ⟨⟨nofun, rfl⟩, ⟨fun _ => ⟨rfl, rfl⟩, rfl⟩, ?_⟩,
    ⟨nofun, rfl⟩, ?_⟩
  · decide
  · decide
  · exact List.length_replicate
  · exact spanCases (by decide)
  · exact spanCases (by decide)

/-- The empty array beyond the buffer, and a two-byte array with each case of its span. -/
theorem witness_WriteBytesRule :
    ([0x41] : List Byte).length ≠ (2 : BitVec 32).toNat ∧
    (([] : List Byte).length = (0 : BitVec 32).toNat ∧ (overBuffer 16 (record 0 0 [])).CursorRoom 0 ∧
      ¬(sized 1024 0 (some 10) (record 0 0 [])).CursorRoom 0) ∧
    ([0xFF, 0x01] : List Byte).length = (2 : BitVec 32).toNat ∧ 0 < (2 : BitVec 32).toNat ∧
    SpanCases 16 (record 0 2 [0xFF, 0x01]) := by
  refine ⟨by decide, ⟨rfl, fun n hn => (nomatch hn), fun room => ?_⟩, rfl, by decide, spanCases (by decide)⟩
  exact absurd (room 10 rfl) (by decide)

theorem witness_ReadUbitsRule :
    ((0 : BitVec 6).toNat = 0 ∧ 32 < (33 : BitVec 6).toNat) ∧
    (1 ≤ (1 : BitVec 6).toNat ∧ (32 : BitVec 6).toNat ≤ 32) ∧
    SpanCases 1 (record 0 0 []) ∧ SpanCases 32 (record 0 0 []) :=
  ⟨by decide, by decide, spanCases (by decide), spanCases (by decide)⟩

theorem witness_ReadFixedIntegerRules :
    SpanCases 8 (record 0 0 []) ∧ SpanCases 16 (record 0 0 []) ∧ SpanCases 32 (record 0 0 []) ∧
    SpanCases 64 (record 0 0 []) :=
  ⟨spanCases (by decide), spanCases (by decide), spanCases (by decide), spanCases (by decide)⟩

/-- A two-byte varint that ends with the buffer, with room for 127 and none for 128 and a cursor with
room or without; a chain still open at the end of the buffer, and an empty buffer. -/
theorem witness_ReadVarintRule :
    (let s := { present [0xFF, 0x00] 0 0x15 with params := (sized 0 0 (some 5) resetCommand).params };
      s.VarintEndsAt 1 ∧ s.SpanFits (8 * (1 + 1)) ∧ s.VarintRoom 127 ∧ s.CursorRoom (8 * (1 + 1)) ∧
      ¬s.VarintRoom 128 ∧ ¬(cursorBits 4 s).CursorRoom (8 * (1 + 1))) ∧
    (∀ k, (present [0x80] 0 0x15).VarintEndsAt k → ¬(present [0x80] 0 0x15).SpanFits (8 * (k + 1))) ∧
    (∀ k, (present [] 0 0x15).VarintEndsAt k → ¬(present [] 0 0x15).SpanFits (8 * (k + 1))) := by
  refine ⟨⟨?_, ?_, (varintCases _ rfl).1, ?_, (varintCases _ rfl).2, ?_⟩, fun k h => ?_, fun k _ => ?_⟩
  · unfold State.VarintEndsAt; decide
  · unfold State.SpanFits; decide
  · intro n hn; cases hn; decide
  · intro room; exact absurd (room 4 rfl) (by decide)
  · unfold State.SpanFits
    have hk : k ≠ 0 := by
      rintro rfl
      have h0 : (present [0x80] 0 0x15).buf.bit (0 + 8 * 0 + 7) = false := h.2
      exact absurd h0 (by decide)
    show ¬0 + 8 * (k + 1) ≤ 8 * 1
    omega
  · show ¬0 + 8 * (k + 1) ≤ 8 * 0
    omega

theorem witness_ReadFloatRules :
    SpanCases (8 * 2) (record 0 0 []) ∧ SpanCases (8 * 4) (record 0 0 []) ∧ SpanCases (8 * 8) (record 0 0 []) :=
  ⟨spanCases (by decide), spanCases (by decide), spanCases (by decide)⟩

/-- ST12, ST11, and a one-byte string that ends with the buffer, its cursor without and with room. -/
theorem witness_ReadStringRule :
    ¬(present [0x02] 0 0x25).SpanFits 16 ∧
    (let s := present [0x05, 0x00, 0x61] 0 0x25;
      s.SpanFits 16 ∧ HeldAt s.buf s.cur 16 5 ∧ ¬s.SpanFits (16 + 8 * 5)) ∧
    (let s := present [0x01, 0x00, 0x41] 0 0x25;
      s.SpanFits 16 ∧ HeldAt s.buf s.cur 16 1 ∧ s.SpanFits (16 + 8 * 1) ∧
      ¬(cursorBits 4 s).CursorRoom (16 + 8 * 1) ∧ (cursorBits 5 s).CursorRoom (16 + 8 * 1)) := by
  unfold State.SpanFits HeldAt
  refine ⟨by decide, by decide, by decide, by decide, by decide, fun room => ?_, fun n hn => ?_⟩
  · exact absurd (room 4 rfl) (by decide)
  · cases hn; decide

/-- The empty read beyond the buffer, and a two-byte read with each case of its span. -/
theorem witness_ReadBytesRule :
    ((0 : BitVec 32).toNat = 0 ∧ (overBuffer 16 (record 0 0 [])).CursorRoom 0 ∧
      ¬(sized 1024 0 (some 10) (record 0 0 [])).CursorRoom 0) ∧
    0 < (2 : BitVec 32).toNat ∧ SpanCases 16 (record 0 2 []) := by
  refine ⟨⟨rfl, fun n hn => (nomatch hn), fun room => ?_⟩, by decide, spanCases (by decide)⟩
  exact absurd (room 10 rfl) (by decide)

theorem witness_MeasureFixedRules :
    ∀ k ∈ [8, 16, 32, 64, 8 * (5 : BitVec 32).toNat],
      ¬(overCursor k (record 0 5 [])).CursorRoom k ∧ (lastCursor k (record 0 5 [])).CursorRoom k := by
  intro k hk
  have : ∀ k ∈ [8, 16, 32, 64, 8 * (5 : BitVec 32).toNat], k ≤ 1023 := by decide
  exact measureCases (this k hk)

theorem witness_MeasureUbitsRule :
    ((0 : BitVec 6).toNat = 0 ∧ 32 < (33 : BitVec 6).toNat) ∧
    (1 ≤ (1 : BitVec 6).toNat ∧ (32 : BitVec 6).toNat ≤ 32) ∧
    (¬(overCursor 32 (record 0 0 [])).CursorRoom 32 ∧ (lastCursor 32 (record 0 0 [])).CursorRoom 32) :=
  ⟨by decide, by decide, measureCases (by decide)⟩

theorem witness_MeasureVarintRule :
    let c := record 127 0 []
    8 * varintBytes 127 = 8 ∧ ¬(overCursor 8 c).CursorRoom 8 ∧
    ((lastCursor 8 c).VarintRoom 127 ∧ (lastCursor 8 c).CursorRoom 8) ∧
    ¬(lastCursor 16 (record 128 0 [])).VarintRoom 128 :=
  ⟨by rw [varintBytes_127], (measureCases (by decide)).1, ⟨(varintCases _ rfl).1, (measureCases (by decide)).2⟩,
    (varintCases _ rfl).2⟩

theorem witness_MeasureStringRule :
    ((1 : BitVec 32).toNat ≠ 0) ∧ 65535 < (65536 : BitVec 32).toNat ∧ (65535 : BitVec 32).toNat ≤ 65535 ∧
    (¬(overCursor 32 (record 0 2 [])).CursorRoom (16 + 8 * 2) ∧
      (lastCursor 32 (record 0 2 [])).CursorRoom (16 + 8 * 2)) :=
  ⟨by decide, by decide, by decide, measureCases (by decide)⟩

/-- `BUF_CAP` of `sized` is 4: four bytes are at it, five above it. -/
theorem witness_AttachRule :
    ([9] : List Byte).length ≠ (2 : BitVec 32).toNat ∧
    ((List.replicate 5 (0 : Byte)).length = (5 : BitVec 32).toNat ∧ ¬(sized 0 0 none resetCommand).BufferRoom 5) ∧
    ((List.replicate 4 (0 : Byte)).length = (4 : BitVec 32).toNat ∧ (sized 0 0 none resetCommand).BufferRoom 4) := by
  refine ⟨by decide, ⟨rfl, fun room => ?_⟩, rfl, fun cap h => ?_⟩
  · exact absurd (room 4 rfl) (by decide)
  · cases h; decide

theorem witness_SetcfgRule :
    (1 < (record 2 0 []).val ∧ (record 1 0 []).val ≤ 1) ∧
    (Instr.msU8 ∉ [Instr.wrF16, .rdF16, .wrF32, .rdF32, .wrF64, .rdF64, .setcfg] ∧
      ∃ t, exec .msU8 (lastCursor 8 (record 0 0 [])) = .next t) :=
  ⟨by decide, by decide, _, rfl⟩

/-- A write beyond the buffer, and a word that selects no row. -/
theorem witness_FaultChangesOnlyFlt :
    (let s := sized 0 0 none (commandOf .wrU8 1 0 []);
      ∃ t r, s.perform = .next t ∧ t.resp = some r ∧ r.fault ≠ 0) ∧
    (let s := sized 0 0 none { cmd := 0x0F, val := 0, len := 0, pin := [] };
      ∃ t r, s.perform = .next t ∧ t.resp = some r ∧ r.fault ≠ 0) :=
  ⟨⟨_, _, rfl, rfl, by decide⟩, _, _, rfl, rfl, by decide⟩

theorem witness_IllegalCommandExactly :
    (present [] 0 0x06).disp = .idle ∧
    (present [] 0 0x06).host = [.command { cmd := 0x06, val := 0, len := 0, pin := [] }] := ⟨rfl, rfl⟩

theorem witness_LengthExceededExactly :
    faultCode (exec (.msStr false) (sized 0 0 none (record 0 65536 []))) = some 2 := by decide

theorem witness_FaultsNeverRaised :
    faultCode (exec .wrU8 (sized 0 0 none (record 0 0 []))) = some 1 ∧ (present [] 0 0x06).Unbounded :=
  ⟨by decide, rfl, rfl, rfl⟩

theorem witness_FltIsSticky :
    (∃ t, step (present [] 0 0x04) = .next t) ∧
    ∀ rest, ¬((present [] 0 0x04).disp = .idle ∧ (present [] 0 0x04).host = .hardwareReset :: rest) :=
  ⟨⟨_, rfl⟩, fun _ h => nomatch h.2⟩

/-- `RESET`, another command, and a command that faults. -/
theorem witness_CursorMovesByAdv :
    decode (sized 5 0 none resetCommand).op.cmd = .ok .reset ∧
    decode (sized 5 0 none (commandOf .msU8 0 0 [])).op.cmd ≠ .ok .reset ∧
    ∃ t r, (sized 5 0 none (commandOf .wrU8 0 0 [])).perform = .next t ∧ t.resp = some r ∧ r.fault ≠ 0 :=
  ⟨rfl, nofun, _, _, rfl, rfl, by decide⟩

theorem witness_CommandsChangeOnlyTheirState :
    ∃ t, exec .msU8 (lastCursor 8 (record 0 0 [])) = .next t ∧ Instr.msU8 ≠ .attach ∧ Instr.msU8 ≠ .setcfg ∧
      modeField (encode .msU8) ≠ 0 ∧ Instr.msU8 ∉ [Instr.wrF16, .rdF16, .wrF32, .rdF32, .wrF64, .rdF64] :=
  ⟨_, rfl, by decide, by decide, by decide, by decide⟩

theorem witness_MeasureIgnoresBuffer :
    modeField (encode .msBytes) = 2 ∧ ∃ t, exec .msBytes (lastCursor 8 (record 0 1 [])) = .next t :=
  ⟨by decide, _, rfl⟩

theorem witness_NoCommandReadsFlt : ∃ t, exec .wrU8 (lastCursor 8 (record 1 0 [])) = .next t := ⟨_, rfl⟩

theorem witness_ScratchIsUnobservable : ∃ t, exec .rdF16 (lastCursor 16 (record 0 0 [])) = .next t := ⟨_, rfl⟩

/-- `RD.U8` uses no operand: the record may be any other. -/
theorem witness_UnusedOperandsIgnored :
    let s := lastCursor 8 (record 1 1 [1])
    let o := record 2 2 [2, 2]
    (∃ t, exec .rdU8 s = .next t) ∧
    (.rdU8 ∈ [Instr.wrU8, .wrU16, .wrU32, .wrU64, .wrUvar, .msUvar, .wrF16, .wrF32, .wrF64, .setcfg] ∨
      (∃ w, Instr.rdU8 = .wrUbits w) → o.val = s.op.val) ∧
    (.rdU8 ∈ [Instr.rdBytes, .msBytes, .wrBytes, .attach] ∨
      (∃ nul, Instr.rdU8 = .wrStr nul ∨ Instr.rdU8 = .msStr nul) → o.len = s.op.len) ∧
    (.rdU8 ∈ [Instr.wrBytes, .attach] ∨ (∃ nul, Instr.rdU8 = .wrStr nul) → o.pin = s.op.pin) :=
  ⟨⟨_, rfl⟩, by simp, by simp, by simp⟩

/-- A byte array that fits, and one that does not. -/
theorem witness_MeasureAgreesWithWrite :
    (Instr.msBytes, Instr.wrBytes) ∈ measureWritePairs ∧
    (let s := lastCursor 8 (record 0 1 [7]);
      faultCode (exec .msBytes s) = some 0 ∧ faultCode (exec .wrBytes s) = some 0 ∧
      s.op.pin.length = s.op.len.toNat) ∧
    faultCode (exec .wrBytes (overBuffer 8 (record 0 1 [7]))) = some 1 := by decide

/-- A write that commits, of each kind. -/
def commits (i : Instr) (s : State) : Prop := ∃ t r, exec i s = .next t ∧ t.resp = some r ∧ r.fault = 0

theorem witness_ReadInvertsWrite :
    let s := { present [0, 0, 0, 0, 0, 0, 0, 0] 0 0x06 with op := record 3 1 [0x41] }
    commits (.wrUbits 32) s ∧ commits .wrU8 s ∧ commits .wrU16 s ∧ commits .wrU32 s ∧ commits .wrU64 s ∧
    commits .wrUvar s ∧ commits .wrF16 s ∧ commits .wrF32 s ∧ commits .wrF64 s ∧ commits (.wrStr false) s ∧
    commits (.wrStr true) { s with op := record 3 0 [] } ∧ commits .wrBytes s :=
  ⟨⟨_, _, rfl, rfl, rfl⟩, ⟨_, _, rfl, rfl, rfl⟩, ⟨_, _, rfl, rfl, rfl⟩, ⟨_, _, rfl, rfl, rfl⟩,
    ⟨_, _, rfl, rfl, rfl⟩, ⟨_, _, rfl, rfl, rfl⟩, ⟨_, _, rfl, rfl, rfl⟩, ⟨_, _, rfl, rfl, rfl⟩,
    ⟨_, _, rfl, rfl, rfl⟩, ⟨_, _, rfl, rfl, rfl⟩, ⟨_, _, rfl, rfl, rfl⟩, _, _, rfl, rfl, rfl⟩

/-- The fields of P1. -/
theorem witness_MeasurePassSizesWritePass :
    let fields := [((Instr.msUvar, Instr.wrUvar), record 300 0 []),
      ((.msStr false, .wrStr false), record 0 2 [0x68, 0x69]), ((.msUbits 3, .wrUbits 3), record 5 0 [])]
    (∀ f ∈ fields, f.1 ∈ measureWritePairs ∧
      (f.1.2 = .wrBytes ∨ (∃ nul, f.1.2 = .wrStr nul) → f.2.pin.length = f.2.len.toNat)) ∧
    State.reset.cur = 0 ∧
    ∃ t, performAll (fields.map fun f => (f.1.1, f.2)) State.reset = some t ∧ t.cur = 51 :=
  ⟨by decide, rfl, _, rfl, rfl⟩

theorem witness_PayloadWritesAreSequences :
    let s := { present [0, 0, 0, 0] 0 0x06 with op := record 0 2 [0x68, 0x69] }
    (∃ t, exec .wrBytes s = .next t ∧ faultCode (.next t) = some 0) ∧
    ∃ t, exec (.wrStr false) s = .next t ∧ faultCode (.next t) = some 0 :=
  ⟨⟨_, rfl, rfl⟩, _, rfl, rfl⟩

/-- S2: 2 and then 5 at the same cursor. -/
theorem witness_SecondWriteOverwrites :
    let s := { present [0, 0] 0 0x06 with op := record 2 0 [] }
    let o := record 5 0 []
    modeField (encode .wrU8) = 0 ∧ s.buf.wf s.buflen ∧
    ∃ t, exec .wrU8 s = .next t ∧ faultCode (.next t) = some 0 ∧ advance (.next t) = some 8 ∧
      ∃ u, exec .wrU8 { t with cur := s.cur, op := o } = .next u ∧ faultCode (.next u) = some 0 ∧
        advance (.next u) = some 8 ∧ ∃ v, exec .wrU8 { s with op := o } = .next v :=
  ⟨by decide, by decide, _, rfl, rfl, rfl, _, rfl, rfl, rfl, _, rfl⟩

theorem witness_FixedWidthEquivalences :
    (Memory.ofBytes 0 [1, 2, 3, 4, 5, 6, 7, 8]).wf 8 ∧ 0 + 64 ≤ 8 * 8 := ⟨by decide, by decide⟩

/-- The last byte of the buffer and the first beyond it, register 4, and the block `BUSY`; a cursor of
59 bits fits 8 bytes (S1). -/
theorem witness_HostViewInIdle :
    let s := present [1, 2] 59 0x06
    s.disp = .idle ∧ 1 < s.buflen ∧ s.buflen ≤ 2 ∧ 3 < 4 ∧ s.cur ≤ 8 * 8 ∧
    ({ s with disp := .busy } : State).disp = .busy :=
  ⟨rfl, by decide, by decide, by decide, by decide, rfl⟩

/-- A state with every capacity finite and reached, and a command presented. -/
theorem witness_StepKeepsInvariant :
    let s := { present [1, 2, 3, 4] 1023 0x06 with
      params := { cursorBits := some 10, varintBits := some 7, bufCap := some 4, defaultBufBytes := 4 } }
    s.Inv ∧ ∃ t, step s = .next t := by
  refine ⟨⟨Memory.ofBytes_wf 0 [1, 2, 3, 4], rfl, ?_, ?_, ?_, fun r hr => nomatch hr⟩, _, rfl⟩
  · intro n hn; cases hn; decide
  · intro cap h; cases h; decide
  · intro cap h; cases h; decide

end Sys2Proof.Tests
end

section
/-! The outcome of a command as a function of its effect, what a step can do, and the rules for the two
effects that look at a `WIDTH` field or at a varint in the buffer before they choose. -/

namespace Sys2Proof.Machine

/-- The state in which a command with this effect ends: the fault entry, or the commit. -/
def Effect.result (e : Effect) (s : State) : State :=
  match e.fault with
  | some f => s.raise f
  | none => e.done s

/-- Every command answers with the result of its effect (R248). -/
theorem exec_eq_result (i : Instr) (s : State) : exec i s = .next ((effectOf i s).result s) :=
  exec_eq_effect i s

theorem exec_eq_next_iff {i : Instr} {s t : State} :
    exec i s = .next t ↔ (effectOf i s).result s = t := by
  rw [exec_eq_result, Host.Outcome.next.injEq]

/-- Everything a step can do: perform the command already accepted, stay in `IDLE` when nothing is
presented, accept and perform the command presented, or reset (R212). -/
theorem step_cases {s t : State} (h : step s = .next t) :
    (s.disp = .busy ∧ s.perform = .next t) ∨
      (s.disp = .idle ∧ s.host = [] ∧ t = s) ∨
      (s.disp = .idle ∧ ∃ c rest, s.host = .command c :: rest ∧
        (s.accept c rest).perform = .next t) ∨
      (s.disp = .idle ∧ ∃ rest, s.host = .hardwareReset :: rest ∧ t = s.hardwareReset rest) := by
  unfold step at h
  split at h
  · next hd => exact .inl ⟨hd, h⟩
  · next hd hh => cases h; exact .inr (.inl ⟨hd, hh, rfl⟩)
  · next c rest hd hh => exact .inr (.inr (.inl ⟨hd, c, rest, hh, h⟩))
  · next rest hd hh => cases h; exact .inr (.inr (.inr ⟨hd, rest, hh, rfl⟩))

/-- A property of a `UBITS` effect holds when it holds of the refusal of an illegal width and of the
effect of every legal width. -/
theorem State.widthEffect_of_none_of_some {s : State} {field : BitVec 6} {effect : Width → Effect}
    (P : Effect → Prop) (hnone : P (s.advanceEffect (some .illegalCommand) 0))
    (hsome : ∀ w, P (effect w)) : P (s.widthEffect field effect) := by
  unfold State.widthEffect
  split
  · exact hnone
  · next w _ => exact hsome w

/-- Whatever varint the buffer holds, `RD.UVAR` changes nothing but the cursor and the response. -/
theorem State.readVarintEffect_eq (s : State) :
    ∃ fault k r, s.readVarintEffect = { s.advanceEffect fault k with resp := r } := by
  unfold State.readVarintEffect
  split <;> exact ⟨_, _, _, rfl⟩

end Sys2Proof.Machine
end

section
/-! The float codec without the scratch region: what is packed and what is read do not depend on what
`SCR` held before (R31, R161). -/

namespace Sys2Proof.Machine

/-- The scratch bytes a deposit fills are the pattern's bytes alone. -/
theorem take_deposit (scr : List Byte) (p m : Nat) (fbe : Bool) :
    (deposit scr p m fbe).take m = if fbe then (leBytes p m).reverse else leBytes p m := by
  apply List.take_left'
  cases fbe <;> simp

/-- The scratch bytes a read fills are the bytes read alone. -/
theorem take_collect (scr : List Byte) (buf : Memory) (off m : Nat) :
    (collect scr buf off m).take m = unpackBytes buf off m :=
  List.take_left' (unpackBytes_length ..)

theorem packF_eq_packBytes (buf : Memory) (off p m : Nat) (fbe : Bool) (scr : List Byte) :
    packF buf off p m fbe scr =
      packBytes buf off (if fbe then (leBytes p m).reverse else leBytes p m) := by
  rw [packF, packScratch, take_deposit]

theorem packF_scr_irrelevant (buf : Memory) (off p m : Nat) (fbe : Bool) (scr scr' : List Byte) :
    packF buf off p m fbe scr = packF buf off p m fbe scr' := by
  rw [packF_eq_packBytes, packF_eq_packBytes]

theorem unpackF_scr_irrelevant (buf : Memory) (off m : Nat) (fbe : Bool) (scr scr' : List Byte) :
    unpackF buf off m fbe scr = unpackF buf off m fbe scr' := by
  simp only [unpackF, scratchValue, take_collect]

end Sys2Proof.Machine
end

section
/-! What the checks that found nothing say about the state. -/

namespace Sys2Proof.Machine

theorem State.cursorRoom_of_cursorFault_eq_none {s : State} {k : Nat} (h : s.cursorFault k = none) :
    s.CursorRoom k := by
  rcases s.cursorFault_eq k with ⟨hf, -⟩ | ⟨-, hroom⟩
  · simp [hf] at h
  · exact hroom

theorem State.fits_of_boundsFault_eq_none {s : State} {k : Nat} (h : s.boundsFault k = none) :
    k = 0 ∨ s.SpanFits k := by
  rcases s.boundsFault_eq k with ⟨hf, -⟩ | ⟨-, hfits⟩
  · simp [hf] at h
  · exact hfits

theorem State.spanFault_eq_none_iff {s : State} {k : Nat} :
    s.spanFault k = none ↔ s.boundsFault k = none ∧ s.cursorFault k = none :=
  Option.or_eq_none_iff

theorem State.bufferRoom_of_bufCapFault_eq_none {s : State} {len : Nat}
    (h : s.bufCapFault len = none) : s.BufferRoom len := by
  rcases s.bufCapFault_eq len with ⟨hf, -⟩ | ⟨-, hroom⟩
  · simp [hf] at h
  · exact hroom

theorem State.payloadFault_eq_none_iff {s : State} :
    s.payloadFault = none ↔ s.op.pin.length = s.lenBytes := by
  simp [State.payloadFault]

end Sys2Proof.Machine
end

section
/-! The invariant. A command's effect is `Sound` when the values its commit leaves satisfy the
invariant; each shape of effect is sound once its checks found nothing, and so every command keeps the
invariant, and so every step. -/

namespace Sys2Proof.Machine

/-- The values a commit leaves satisfy the invariant, and its response reports no fault. -/
structure Effect.Sound (e : Effect) (s : State) : Prop where
  buf_wf : e.buf.wf e.buflen
  scr_length : e.scr.length = 8
  cur_lt : ∀ n, s.params.cursorBits = some n → e.cur < 2 ^ n
  buflen_le : s.BufferRoom e.buflen
  resp_fault : e.resp.fault = 0

theorem Response.legal_of_fault_eq_zero {r : Response} (h : r.fault = 0) : r.Legal :=
  ⟨by simp [h], fun hne => absurd h hne⟩

theorem Response.faulted_legal (f : FaultKind) : (Response.faulted f).Legal :=
  ⟨by cases f <;> decide, fun _ => rfl⟩

theorem State.Inv.raise {s : State} (h : s.Inv) (f : FaultKind) : (s.raise f).Inv where
  buf_wf := h.buf_wf
  scr_length := h.scr_length
  cur_lt := h.cur_lt
  buflen_le := h.buflen_le
  default_le := h.default_le
  resp_legal r hr := by
    obtain rfl : Response.faulted f = r := Option.some.inj hr
    exact Response.faulted_legal f

theorem State.Inv.accept {s : State} (h : s.Inv) (c : Command) (rest : List HostMove) :
    (s.accept c rest).Inv :=
  { h with }

theorem State.Inv.hardwareReset {s : State} (h : s.Inv) (rest : List HostMove) :
    (s.hardwareReset rest).Inv where
  buf_wf := Memory.empty_wf _ _
  scr_length := by simp
  cur_lt n _ := Nat.two_pow_pos n
  buflen_le := h.default_le
  default_le := h.default_le
  resp_legal r hr := by simp at hr

theorem Effect.Sound.done_inv {e : Effect} {s : State} (he : e.Sound s) (h : s.Inv) :
    (e.done s).Inv where
  buf_wf := he.buf_wf
  scr_length := he.scr_length
  cur_lt := he.cur_lt
  buflen_le := he.buflen_le
  default_le := h.default_le
  resp_legal r hr := by
    obtain rfl : e.resp = r := Option.some.inj hr
    exact Response.legal_of_fault_eq_zero he.resp_fault

/-! The shapes of effects. -/

theorem Effect.Sound.with_buf {e : Effect} {s : State} (he : e.Sound s) {m : Memory}
    (hm : m.wf e.buflen) : ({ e with buf := m } : Effect).Sound s :=
  { he with buf_wf := hm }

theorem Effect.Sound.with_scr {e : Effect} {s : State} (he : e.Sound s) {scr : List Byte}
    (hscr : scr.length = 8) : ({ e with scr := scr } : Effect).Sound s :=
  { he with scr_length := hscr }

theorem Effect.Sound.with_resp {e : Effect} {s : State} (he : e.Sound s) {r : Response}
    (hr : r.fault = 0) : ({ e with resp := r } : Effect).Sound s :=
  { he with resp_fault := hr }

theorem State.widthEffect_sound {s : State} {field : BitVec 6} {effect : Width → Effect}
    (hw : ∀ w, (effect w).fault = none → (effect w).Sound s)
    (hf : (s.widthEffect field effect).fault = none) : (s.widthEffect field effect).Sound s :=
  State.widthEffect_of_none_of_some (fun e => e.fault = none → e.Sound s) nofun hw hf

section
variable {s : State} (h : s.Inv)
include h

/-- A commit that only advances the cursor is sound when the cursor has room. -/
theorem State.Inv.advanceEffect_sound (fault : Option FaultKind) {k : Nat} (hk : s.CursorRoom k) :
    (s.advanceEffect fault k).Sound s where
  buf_wf := h.buf_wf
  scr_length := h.scr_length
  cur_lt := hk
  buflen_le := h.buflen_le
  resp_fault := rfl

theorem State.Inv.cursorRoom_zero : s.CursorRoom 0 := h.cur_lt

theorem State.Inv.measureEffect_sound {k : Nat} (hf : (s.measureEffect k).fault = none) :
    (s.measureEffect k).Sound s :=
  h.advanceEffect_sound _ (State.cursorRoom_of_cursorFault_eq_none hf)

/-- A fixed-size write is sound when what it packs stays canonical once its span is in the buffer. -/
theorem State.Inv.writeEffect_sound {k : Nat} {m : Memory}
    (hm : k = 0 ∨ s.SpanFits k → m.wf s.buflen) (hf : (s.writeEffect k m).fault = none) :
    (s.writeEffect k m).Sound s := by
  obtain ⟨hb, hc⟩ := State.spanFault_eq_none_iff.1 hf
  exact (h.advanceEffect_sound _ (State.cursorRoom_of_cursorFault_eq_none hc)).with_buf
    (hm (State.fits_of_boundsFault_eq_none hb))

theorem State.Inv.writeEffect_packBits_sound (w : Width)
    (hf : (s.writeEffect w.val (packBits s.buf s.cur s.op.val w)).fault = none) :
    (s.writeEffect w.val (packBits s.buf s.cur s.op.val w)).Sound s := by
  refine h.writeEffect_sound (fun hk => packBits_wf _ _ h.buf_wf ?_) hf
  have := w.property.1
  rcases hk with hk | hk
  · omega
  · exact hk

theorem State.Inv.packBytes_wf_of_fits {bs : List Byte} {k : Nat} (hlen : 8 * bs.length = k)
    (hk : k = 0 ∨ s.SpanFits k) : (packBytes s.buf s.cur bs).wf s.buflen := by
  refine packBytes_wf bs h.buf_wf ?_
  subst hlen
  rcases hk with hk | hk
  · exact .inr (List.eq_nil_of_length_eq_zero (by omega))
  · exact .inl hk

theorem State.Inv.readEffect_sound {k v : Nat} (hf : (s.readEffect k v).fault = none) :
    (s.readEffect k v).Sound s := by
  obtain ⟨-, hc⟩ := State.spanFault_eq_none_iff.1 hf
  exact (h.advanceEffect_sound _ (State.cursorRoom_of_cursorFault_eq_none hc)).with_resp rfl

theorem State.Inv.writeFloatEffect_sound {n : Nat} (hn : n ≤ 8)
    (hf : (s.writeFloatEffect n).fault = none) : (s.writeFloatEffect n).Sound s := by
  have hscr := h.scr_length
  refine (h.writeEffect_sound (fun hk => ?_) hf).with_scr ?_
  · rw [packF_eq_packBytes]
    exact h.packBytes_wf_of_fits (by split <;> simp) hk
  · rw [deposit_length _ _ (by omega), hscr]

theorem State.Inv.readFloatEffect_sound {n : Nat} (hn : n ≤ 8)
    (hf : (s.readFloatEffect n).fault = none) : (s.readFloatEffect n).Sound s := by
  have hscr := h.scr_length
  exact (h.readEffect_sound hf).with_scr (by rw [collect_length _ _ (by omega), hscr])

theorem State.Inv.writeVarintEffect_sound (hf : s.writeVarintEffect.fault = none) :
    s.writeVarintEffect.Sound s := by
  obtain ⟨hb, hvc⟩ := Option.or_eq_none_iff.1 hf
  obtain ⟨-, hc⟩ := Option.or_eq_none_iff.1 hvc
  exact (h.advanceEffect_sound _ (State.cursorRoom_of_cursorFault_eq_none hc)).with_buf
    (h.packBytes_wf_of_fits rfl (State.fits_of_boundsFault_eq_none hb))

theorem State.Inv.readVarintEffect_sound (hf : s.readVarintEffect.fault = none) :
    s.readVarintEffect.Sound s := by
  unfold State.readVarintEffect at hf ⊢
  split at hf
  · cases hf
  · obtain ⟨-, hc⟩ := Option.or_eq_none_iff.1 hf
    exact (h.advanceEffect_sound _ (State.cursorRoom_of_cursorFault_eq_none hc)).with_resp rfl

theorem State.Inv.measureVarint_sound (hf : (effectOf .msUvar s).fault = none) :
    (effectOf .msUvar s).Sound s := by
  obtain ⟨-, hc⟩ := Option.or_eq_none_iff.1 hf
  exact h.advanceEffect_sound _ (State.cursorRoom_of_cursorFault_eq_none hc)

/-- A length and as many bytes as it says, packed inside the buffer, keep the buffer canonical. -/
theorem State.Inv.packString_wf {len : Nat} (hlen : s.op.pin.length = len)
    (hk : s.SpanFits (stringBits len)) : (packString s.buf s.cur len s.op.pin).wf s.buflen := by
  have hk' : s.cur + (16 + 8 * len) ≤ 8 * s.buflen := hk
  have hlength : (packBits s.buf s.cur len Width.w16).wf s.buflen :=
    packBits_wf _ _ h.buf_wf (by rw [Width.w16_val]; omega)
  exact packBytes_wf _ hlength (.inl (by omega))

theorem State.Inv.writeStringEffect_sound {nul : Bool}
    (hf : (s.writeStringEffect nul).fault = none) : (s.writeStringEffect nul).Sound s := by
  obtain ⟨-, -, hpin, -, hspan⟩ : s.nullLenFault nul = none ∧ s.nullPinFault nul = none ∧
      s.payloadFault = none ∧ s.stringFault = none ∧ s.spanFault (stringBits s.lenBytes) = none := by
    simpa [State.writeStringEffect, State.advanceEffect] using hf
  obtain ⟨hb, hc⟩ := State.spanFault_eq_none_iff.1 hspan
  have hfits : s.SpanFits (stringBits s.lenBytes) := by
    rcases State.fits_of_boundsFault_eq_none hb with hk | hk
    · simp [stringBits] at hk
    · exact hk
  exact (h.advanceEffect_sound _ (State.cursorRoom_of_cursorFault_eq_none hc)).with_buf
    (h.packString_wf (State.payloadFault_eq_none_iff.1 hpin) hfits)

theorem State.Inv.readStringEffect_sound (hf : s.readStringEffect.fault = none) :
    s.readStringEffect.Sound s := by
  obtain ⟨-, hspan⟩ := Option.or_eq_none_iff.1 hf
  obtain ⟨-, hc⟩ := State.spanFault_eq_none_iff.1 hspan
  exact (h.advanceEffect_sound _ (State.cursorRoom_of_cursorFault_eq_none hc)).with_resp rfl

theorem State.Inv.measureString_sound {nul : Bool} (hf : (effectOf (.msStr nul) s).fault = none) :
    (effectOf (.msStr nul) s).Sound s := by
  obtain ⟨-, hsc⟩ := Option.or_eq_none_iff.1 hf
  obtain ⟨-, hc⟩ := Option.or_eq_none_iff.1 hsc
  exact h.advanceEffect_sound _ (State.cursorRoom_of_cursorFault_eq_none hc)

theorem State.Inv.writeBytes_sound (hf : (effectOf .wrBytes s).fault = none) :
    (effectOf .wrBytes s).Sound s := by
  obtain ⟨hpin, hspan⟩ := Option.or_eq_none_iff.1 hf
  obtain ⟨hb, hc⟩ := State.spanFault_eq_none_iff.1 hspan
  have hlen := State.payloadFault_eq_none_iff.1 hpin
  exact (h.advanceEffect_sound _ (State.cursorRoom_of_cursorFault_eq_none hc)).with_buf
    (h.packBytes_wf_of_fits (by rw [hlen]) (State.fits_of_boundsFault_eq_none hb))

theorem State.Inv.readBytes_sound (hf : (effectOf .rdBytes s).fault = none) :
    (effectOf .rdBytes s).Sound s := by
  obtain ⟨-, hc⟩ := State.spanFault_eq_none_iff.1 hf
  exact (h.advanceEffect_sound _ (State.cursorRoom_of_cursorFault_eq_none hc)).with_resp rfl

theorem State.Inv.reset_sound : (effectOf .reset s).Sound s :=
  { h.advanceEffect_sound none h.cursorRoom_zero with cur_lt := fun n _ => Nat.two_pow_pos n }

theorem State.Inv.attach_sound (hf : (effectOf .attach s).fault = none) :
    (effectOf .attach s).Sound s := by
  obtain ⟨hpin, hcap⟩ := Option.or_eq_none_iff.1 hf
  have hwf := Memory.ofBytes_wf s.buf.epoch s.op.pin
  rw [State.payloadFault_eq_none_iff.1 hpin] at hwf
  exact { h.advanceEffect_sound none h.cursorRoom_zero with
    buf_wf := hwf, buflen_le := State.bufferRoom_of_bufCapFault_eq_none hcap }

theorem State.Inv.setcfg_sound : (effectOf .setcfg s).Sound s :=
  { h.advanceEffect_sound none h.cursorRoom_zero with }

/-- The effect of every command is sound once its checks found nothing. -/
theorem State.Inv.effectOf_sound (i : Instr) (hf : (effectOf i s).fault = none) :
    (effectOf i s).Sound s := by
  cases i
  case wrUbits f => exact State.widthEffect_sound h.writeEffect_packBits_sound hf
  case rdUbits f => exact State.widthEffect_sound (fun _ => h.readEffect_sound) hf
  case msUbits f => exact State.widthEffect_sound (fun _ => h.measureEffect_sound) hf
  case wrU8 => exact h.writeEffect_packBits_sound Width.w8 hf
  case wrU16 => exact h.writeEffect_packBits_sound Width.w16 hf
  case wrU32 => exact h.writeEffect_packBits_sound Width.w32 hf
  case wrU64 => exact h.writeEffect_sound (h.packBytes_wf_of_fits (by simp)) hf
  case rdU8 | rdU16 | rdU32 | rdU64 => exact h.readEffect_sound hf
  case msU8 | msU16 | msU32 | msU64 | msF16 | msF32 | msF64 | msBytes =>
    exact h.measureEffect_sound hf
  case wrUvar => exact h.writeVarintEffect_sound hf
  case rdUvar => exact h.readVarintEffect_sound hf
  case msUvar => exact h.measureVarint_sound hf
  case wrF16 | wrF32 | wrF64 => exact h.writeFloatEffect_sound (by decide) hf
  case rdF16 | rdF32 | rdF64 => exact h.readFloatEffect_sound (by decide) hf
  case wrStr nul => exact h.writeStringEffect_sound hf
  case rdStr => exact h.readStringEffect_sound hf
  case msStr nul => exact h.measureString_sound hf
  case wrBytes => exact h.writeBytes_sound hf
  case rdBytes => exact h.readBytes_sound hf
  case reset => exact h.reset_sound
  case attach => exact h.attach_sound hf
  case setcfg => exact h.setcfg_sound

theorem State.Inv.exec {i : Instr} {t : State} (ht : exec i s = .next t) : t.Inv := by
  rcases exec_cases ht with ⟨f, -, rfl⟩ | ⟨hf, rfl⟩
  · exact h.raise f
  · exact (h.effectOf_sound i hf).done_inv h

theorem State.Inv.perform {t : State} (ht : s.perform = .next t) : t.Inv := by
  unfold State.perform at ht
  split at ht
  · exact h.exec ht
  · cases ht
    exact h.raise _

end

/-- Settles O60: fault entry, acceptance and hardware reset keep the invariant, and a commit does
because the effect of every command is sound once its checks found nothing. -/
theorem stepKeepsInvariant : Obligations.StepKeepsInvariant := by
  intro s t h ht
  rcases step_cases ht with ⟨-, hp⟩ | ⟨-, -, rfl⟩ | ⟨-, c, rest, -, hp⟩ | ⟨-, rest, -, rfl⟩
  · exact h.perform hp
  · exact h
  · exact (h.accept c rest).perform hp
  · exact h.hardwareReset rest

end Sys2Proof.Machine
end

section
/-! Which command changes which register: the frame of every effect. -/

namespace Sys2Proof.Machine

/-- The `MODE` field of an encoded word is the mode it was made from (R71). -/
theorem modeField_commandWord {mode : Nat} (h : mode < 4) (kind : Nat) (width : BitVec 6) (nul : Bool) :
    modeField (commandWord mode kind width nul) = mode := by
  have hfield (x i : Nat) : (x <<< (i + 2)) % 2 ^ 2 = 0 := by
    rw [Nat.shiftLeft_eq, Nat.pow_add]
    exact Nat.mod_eq_zero_of_dvd (Dvd.intro_left (x * 2 ^ i) (by ring))
  have hmod : modeField (commandWord mode kind width nul) =
      (mode ||| kind <<< 2 ||| width.toNat <<< 6 ||| nul.toNat <<< 12) % 2 ^ 2 := by
    rw [modeField, commandWord, BitVec.toNat_ofNat]
    exact Nat.mod_mod_of_dvd _ (by decide)
  rw [hmod, Nat.or_mod_two_pow, Nat.or_mod_two_pow, Nat.or_mod_two_pow, hfield kind 0,
    hfield width.toNat 4, hfield nul.toNat 10]
  simpa using Nat.mod_eq_of_lt h

/-- A register that neither the refusal of an illegal width nor the effect of a legal one changes. -/
theorem State.widthEffect_keeps {α : Type} {s : State} {field : BitVec 6} {effect : Width → Effect}
    (proj : Effect → α) {a : α} (hnone : proj (s.advanceEffect (some .illegalCommand) 0) = a)
    (hsome : ∀ w, proj (effect w) = a) : proj (s.widthEffect field effect) = a :=
  State.widthEffect_of_none_of_some (fun e => proj e = a) hnone hsome

/-- A register that `RD.UVAR` changes for no varint the buffer may hold. -/
theorem State.readVarintEffect_keeps {α : Type} {s : State} (proj : Effect → α) {a : α}
    (h : ∀ fault k r, proj { s.advanceEffect fault k with resp := r } = a) :
    proj s.readVarintEffect = a := by
  obtain ⟨fault, k, r, he⟩ := s.readVarintEffect_eq
  exact he ▸ h fault k r

theorem effectOf_buflen {i : Instr} (s : State) (h : i ≠ .attach) :
    (effectOf i s).buflen = s.buflen := by
  cases i
  case attach => exact absurd rfl h
  case wrUbits | rdUbits | msUbits => exact State.widthEffect_keeps (·.buflen) rfl fun _ => rfl
  case rdUvar => exact State.readVarintEffect_keeps (·.buflen) fun _ _ _ => rfl
  all_goals rfl

theorem effectOf_cfg {i : Instr} (s : State) (h : i ≠ .setcfg) : (effectOf i s).cfg = s.cfg := by
  cases i
  case setcfg => exact absurd rfl h
  case wrUbits | rdUbits | msUbits => exact State.widthEffect_keeps (·.cfg) rfl fun _ => rfl
  case rdUvar => exact State.readVarintEffect_keeps (·.cfg) fun _ _ _ => rfl
  all_goals rfl

theorem effectOf_buf {i : Instr} (s : State) (hmode : modeField (encode i) ≠ 0) (h : i ≠ .attach) :
    (effectOf i s).buf = s.buf := by
  cases i
  case attach => exact absurd rfl h
  case wrUbits | wrU8 | wrU16 | wrU32 | wrU64 | wrUvar | wrF16 | wrF32 | wrF64 | wrStr | wrBytes =>
    exact absurd (modeField_commandWord (by decide) _ _ _) hmode
  case rdUbits | msUbits => exact State.widthEffect_keeps (·.buf) rfl fun _ => rfl
  case rdUvar => exact State.readVarintEffect_keeps (·.buf) fun _ _ _ => rfl
  all_goals rfl

theorem effectOf_scr {i : Instr} (s : State)
    (h : i ∉ [Instr.wrF16, .rdF16, .wrF32, .rdF32, .wrF64, .rdF64]) :
    (effectOf i s).scr = s.scr := by
  cases i
  case wrF16 | rdF16 | wrF32 | rdF32 | wrF64 | rdF64 => exact absurd (by decide) h
  case wrUbits | rdUbits | msUbits => exact State.widthEffect_keeps (·.scr) rfl fun _ => rfl
  case rdUvar => exact State.readVarintEffect_keeps (·.scr) fun _ _ _ => rfl
  all_goals rfl

/-- Settles O47: a fault changes none of these registers, and a commit leaves what the effect's frame
says. -/
theorem commandsChangeOnlyTheirState : Obligations.CommandsChangeOnlyTheirState := by
  intro i s t ht
  rcases exec_cases ht with ⟨f, -, rfl⟩ | ⟨-, rfl⟩
  · exact ⟨fun _ => rfl, fun _ => rfl, fun _ _ => rfl, fun _ => rfl, rfl, rfl, rfl⟩
  · exact ⟨effectOf_buflen s, effectOf_cfg s, effectOf_buf s, effectOf_scr s, rfl, rfl, rfl⟩

end Sys2Proof.Machine
end

section
/-! What a command does not read. Each statement follows from one about the effect: with the part of
the state that is not read replaced, the effect is the same. -/

namespace Sys2Proof.Machine

theorem effectOf_flt_resp (i : Instr) (s : State) (flt : BitVec 4) (resp : Option Response) :
    effectOf i { s with flt := flt, resp := resp } = effectOf i s := by
  cases i <;> rfl

/-- Sticky bits that were set before stay set, and nothing else of the result depends on them. -/
theorem Effect.result_flt_resp (e : Effect) (s : State) (f : BitVec 4) (resp : Option Response) :
    e.result { s with flt := s.flt ||| f, resp := resp } =
      { e.result s with flt := (e.result s).flt ||| f } := by
  unfold Effect.result
  split
  · simp [State.raise, fltAfter, BitVec.or_assoc, BitVec.or_comm f]
  · rfl

/-- Settles O49: no effect looks at `FLT` or at the response, and fault entry only adds its bit. -/
theorem noCommandReadsFlt : Obligations.NoCommandReadsFlt := by
  intro i s t f resp ht
  obtain rfl := exec_eq_next_iff.1 ht
  rw [exec_eq_result, effectOf_flt_resp, Effect.result_flt_resp]

theorem State.widthEffect_scr {s : State} {x : List Byte} {field : BitVec 6}
    {effect effect' : Width → Effect} (h : ∀ w, effect' w = { effect w with scr := x }) :
    State.widthEffect { s with scr := x } field effect' =
      { s.widthEffect field effect with scr := x } := by
  unfold State.widthEffect
  split
  · rfl
  · next w _ => exact h w

theorem State.readVarintEffect_scr (s : State) (x : List Byte) :
    State.readVarintEffect { s with scr := x } = { s.readVarintEffect with scr := x } := by
  unfold State.readVarintEffect
  dsimp only
  rcases varintDec s.buf s.buflen s.cur with _ | ⟨v, k⟩ <;> rfl

theorem State.writeFloatEffect_scr (s : State) (x : List Byte) (n : Nat) :
    State.writeFloatEffect { s with scr := x } n =
      { s.writeFloatEffect n with scr := deposit x s.op.val n s.fbe } := by
  unfold State.writeFloatEffect
  rw [packF_scr_irrelevant s.buf s.cur s.op.val n s.fbe s.scr x]
  rfl

theorem State.readFloatEffect_scr (s : State) (x : List Byte) (n : Nat) :
    State.readFloatEffect { s with scr := x } n =
      { s.readFloatEffect n with scr := collect x s.buf s.cur n } := by
  unfold State.readFloatEffect
  rw [unpackF_scr_irrelevant s.buf s.cur n s.fbe s.scr x]
  rfl

/-- With anything else in the scratch region the effect differs in the scratch region alone. -/
theorem effectOf_scr_irrelevant (i : Instr) (s : State) (x : List Byte) :
    ∃ y, effectOf i { s with scr := x } = { effectOf i s with scr := y } := by
  cases i
  case wrUbits | rdUbits | msUbits => exact ⟨x, State.widthEffect_scr fun _ => rfl⟩
  case rdUvar => exact ⟨x, s.readVarintEffect_scr x⟩
  case wrF16 | wrF32 | wrF64 => exact ⟨_, s.writeFloatEffect_scr x _⟩
  case rdF16 | rdF32 | rdF64 => exact ⟨_, s.readFloatEffect_scr x _⟩
  all_goals exact ⟨x, rfl⟩

theorem Effect.result_scr (e : Effect) (s : State) (x y : List Byte) :
    ∃ z, ({ e with scr := y } : Effect).result { s with scr := x } = { e.result s with scr := z } := by
  rcases e with ⟨_ | f⟩
  · exact ⟨y, rfl⟩
  · exact ⟨x, rfl⟩

/-- Settles O50: a float write packs, and a float read returns, what it has itself put into the scratch
region, and no other effect looks at it. -/
theorem scratchIsUnobservable : Obligations.ScratchIsUnobservable := by
  intro i s t x ht
  obtain rfl := exec_eq_next_iff.1 ht
  obtain ⟨y, hy⟩ := effectOf_scr_irrelevant i s x
  obtain ⟨z, hz⟩ := (effectOf i s).result_scr s x y
  exact ⟨z, by rw [exec_eq_result, hy, hz]⟩

/-- An operand record that agrees on the operands a command uses gives it the same effect (R78). -/
theorem effectOf_op_of_used_eq {i : Instr} {s : State} {o : Command}
    (hval : i ∈ [Instr.wrU8, .wrU16, .wrU32, .wrU64, .wrUvar, .msUvar, .wrF16, .wrF32, .wrF64, .setcfg] ∨
      (∃ w, i = .wrUbits w) → o.val = s.op.val)
    (hlen : i ∈ [Instr.rdBytes, .msBytes, .wrBytes, .attach] ∨
      (∃ nul, i = .wrStr nul ∨ i = .msStr nul) → o.len = s.op.len)
    (hpin : i ∈ [Instr.wrBytes, .attach] ∨ (∃ nul, i = .wrStr nul) → o.pin = s.op.pin) :
    effectOf i { s with op := o } = effectOf i s := by
  obtain ⟨cmd, val, len, pin⟩ := o
  cases i
  case wrU8 | wrU16 | wrU32 | wrU64 | wrUvar | msUvar | wrF16 | wrF32 | wrF64 | setcfg =>
    obtain rfl : val = s.op.val := hval (.inl (by decide))
    rfl
  case wrUbits w =>
    obtain rfl : val = s.op.val := hval (.inr ⟨w, rfl⟩)
    rfl
  case rdBytes | msBytes =>
    obtain rfl : len = s.op.len := hlen (.inl (by decide))
    rfl
  case msStr nul =>
    obtain rfl : len = s.op.len := hlen (.inr ⟨nul, .inr rfl⟩)
    rfl
  case wrBytes | attach =>
    obtain rfl : len = s.op.len := hlen (.inl (by decide))
    obtain rfl : pin = s.op.pin := hpin (.inl (by decide))
    rfl
  case wrStr nul =>
    obtain rfl : len = s.op.len := hlen (.inr ⟨nul, .inl rfl⟩)
    obtain rfl : pin = s.op.pin := hpin (.inr ⟨nul, rfl⟩)
    rfl
  all_goals rfl

theorem Effect.result_op (e : Effect) (s : State) (o : Command) :
    e.result { s with op := o } = { e.result s with op := o } := by
  unfold Effect.result
  split <;> rfl

/-- Settles O51: the effect is the same, and the result keeps the record it was given. -/
theorem unusedOperandsIgnored : Obligations.UnusedOperandsIgnored := by
  intro i s t o ht hval hlen hpin
  obtain rfl := exec_eq_next_iff.1 ht
  rw [exec_eq_result, effectOf_op_of_used_eq hval hlen hpin, Effect.result_op]

end Sys2Proof.Machine
end

section
/-! What the host reads between commands (R29, R30, R219). -/

namespace Sys2Proof.Machine

theorem State.readReg_of_busy {s : State} (h : s.disp = .busy) (n : Nat) : s.readReg n = none := by
  simp [State.readReg, h]

theorem State.readReg_of_three_lt (s : State) {n : Nat} (h : 3 < n) : s.readReg n = none := by
  obtain ⟨m, rfl⟩ : ∃ m, n = m + 4 := Nat.exists_eq_add_of_le' h
  cases hd : s.disp <;> simp [State.readReg, hd]

theorem State.readBuf_of_busy {s : State} (h : s.disp = .busy) (i : Nat) : s.readBuf i = none := by
  simp [State.readBuf, h]

theorem State.readBuf_of_idle {s : State} (h : s.disp = .idle) {i : Nat} (hi : i < s.buflen) :
    s.readBuf i = some (s.buf.read i) := by
  simp [State.readBuf, h, hi]

theorem State.readBuf_of_buflen_le (s : State) {i : Nat} (hi : s.buflen ≤ i) : s.readBuf i = none := by
  cases hd : s.disp <;> simp [State.readBuf, hd, hi]

theorem State.requiredBytes_le_iff (s : State) (n : Nat) : s.requiredBytes ≤ n ↔ s.cur ≤ 8 * n := by
  unfold State.requiredBytes
  omega

/-- Settles O58: each read by the state of the dispatcher and the number read, and the size as the
least upper bound of the cursor in bytes. -/
theorem hostViewInIdle : Obligations.HostViewInIdle := by
  refine ⟨fun s h => ?_, fun s => ?_, fun s h => ?_, fun s => ?_⟩
  · have hcfg := s.cfg.isLt
    have hflt := s.flt.isLt
    have hreg : s.readReg 0 = some s.cur ∧ s.readReg 1 = some s.buflen ∧
        s.readReg 2 = some s.cfg.toNat ∧ s.readReg 3 = some s.flt.toNat := by
      simp [State.readReg, h]
    obtain ⟨h0, h1, h2, h3⟩ := hreg
    exact ⟨h0, h1, h2, by omega, h3, by omega, fun i => State.readBuf_of_idle h⟩
  · exact ⟨(s.requiredBytes_le_iff _).1 le_rfl, fun n => (s.requiredBytes_le_iff n).2⟩
  · exact ⟨State.readReg_of_busy h, State.readBuf_of_busy h⟩
  · exact ⟨fun n => s.readReg_of_three_lt, fun i => s.readBuf_of_buflen_le⟩

end Sys2Proof.Machine
end

section
/-! The fields of a command word (R71): the encoder puts them in place, and a word with no reserved bit
set is the word of its fields. -/

namespace Sys2Proof.Machine

theorem modeField_lt (w : Word) : modeField w < 4 := Nat.mod_lt _ (by decide)

theorem kindField_lt (w : Word) : kindField w < 16 := Nat.mod_lt _ (by decide)

theorem widthField_toNat (w : Word) : (widthField w).toNat = w.toNat / 64 % 64 :=
  BitVec.toNat_ofNat ..

theorem nulField_toNat (w : Word) : (nulField w).toNat = w.toNat / 4096 % 2 := by
  rcases Nat.mod_two_eq_zero_or_one (w.toNat / 4096) with h | h <;> simp [nulField, h]

/-- The four fields do not overlap, so the word is their sum. -/
theorem commandWord_toNat {mode kind : Nat} (hm : mode < 4) (hk : kind < 16) (width : BitVec 6)
    (nul : Bool) : (commandWord mode kind width nul).toNat =
      mode + 4 * kind + 64 * width.toNat + 4096 * nul.toNat := by
  have hw := width.isLt
  have hn := Bool.toNat_lt nul
  have append {x i : Nat} (y : Nat) (hx : x < 2 ^ i) : x ||| y <<< i = x + 2 ^ i * y := by
    rw [Nat.or_comm, ← Nat.shiftLeft_add_eq_or_of_lt hx, Nat.shiftLeft_eq]
    ring
  rw [commandWord, append kind (by omega), append width.toNat (by omega), append nul.toNat (by omega),
    BitVec.toNat_ofNat]
  omega

section
variable {mode kind : Nat} (hm : mode < 4) (hk : kind < 16) (width : BitVec 6) (nul : Bool)
include hm hk

theorem kindField_commandWord : kindField (commandWord mode kind width nul) = kind := by
  rw [kindField, commandWord_toNat hm hk]
  omega

theorem widthField_commandWord : widthField (commandWord mode kind width nul) = width := by
  have := width.isLt
  apply BitVec.eq_of_toNat_eq
  rw [widthField_toNat, commandWord_toNat hm hk]
  omega

theorem nulField_commandWord : nulField (commandWord mode kind width nul) = nul := by
  have := width.isLt
  rw [nulField, commandWord_toNat hm hk]
  cases nul <;> simp <;> omega

theorem reservedField_commandWord : reservedField (commandWord mode kind width nul) = 0 := by
  have := width.isLt
  have := Bool.toNat_lt nul
  rw [reservedField, commandWord_toNat hm hk]
  omega

end

theorem commandWord_fields {w : Word} (h : reservedField w = 0) :
    commandWord (modeField w) (kindField w) (widthField w) (nulField w) = w := by
  apply BitVec.eq_of_toNat_eq
  rw [commandWord_toNat (modeField_lt w) (kindField_lt w), widthField_toNat, nulField_toNat]
  unfold modeField kindField
  unfold reservedField at h
  omega

end Sys2Proof.Machine
end

section
/-! What the decoder can answer, said once: the instruction whose word was decoded, or the refusal of a
word that R82 reserves. -/

namespace Sys2Proof.Machine

theorem widthLegal_eq_false_iff {f : BitVec 6} : widthLegal f = false ↔ f.toNat = 0 ∨ 32 < f.toNat := by
  rw [widthLegal, Bool.and_eq_false_iff, decide_eq_false_iff_not, decide_eq_false_iff_not]
  omega

/-- The cases (a) to (f) of R82 by the fields of the word. -/
theorem reservedWord_iff (w : Word) : ReservedWord w ↔
    reservedField w ≠ 0 ∨
    (modeField w < 3 ∧ 11 ≤ kindField w) ∨
    (modeField w = 3 ∧ 3 ≤ kindField w) ∨
    (widthField w ≠ 0 ∧ (modeField w = 3 ∨ kindField w ≠ 0)) ∨
    (modeField w < 3 ∧ kindField w = 0 ∧ widthLegal (widthField w) = false) ∨
    (nulField w = true ∧ ¬(kindField w = 9 ∧ (modeField w = 0 ∨ modeField w = 2))) := by
  have hwidth : widthField w ≠ 0 ↔ w.toNat / 64 % 64 ≠ 0 := by
    rw [← widthField_toNat]
    exact not_congr BitVec.toNat_inj.symm
  have hnul : nulField w = true ↔ w.toNat / 4096 % 2 = 1 := decide_eq_true_iff
  rw [widthLegal_eq_false_iff, hwidth, hnul, widthField_toNat]
  rfl

/-- An answer the decoder may give for `w`: the instruction whose word `w` is, or a refusal if R82
reserves `w`. -/
def SoundAnswer (w : Word) : Except DecodeReject Instr → Prop
  | .ok i => encode i = w
  | .error _ => ReservedWord w

section
variable {w : Word} {mode kind : Nat} (hres : reservedField w = 0) (hm : modeField w = mode)
  (hk : kindField w = kind)
include hres hm hk

theorem eq_commandWord {width : BitVec 6} {nul : Bool} (hw : widthField w = width)
    (hn : nulField w = nul) : commandWord mode kind width nul = w := by
  rw [← hm, ← hk, ← hw, ← hn, commandWord_fields hres]

theorem plainRow_sound {i : Instr} (hi : encode i = commandWord mode kind 0 false)
    (hwidth : mode = 3 ∨ kind ≠ 0) (hnul : ¬(kind = 9 ∧ (mode = 0 ∨ mode = 2))) :
    SoundAnswer w (plainRow w i) := by
  subst hm hk
  unfold plainRow
  split_ifs with hw hn
  · exact (reservedWord_iff w).2 (.inr (.inr (.inr (.inl ⟨hw, hwidth⟩))))
  · exact (reservedWord_iff w).2 (.inr (.inr (.inr (.inr (.inr ⟨hn, hnul⟩)))))
  · exact hi.trans (eq_commandWord hres rfl rfl (not_not.1 hw) (Bool.not_eq_true _ ▸ hn))

theorem widthRow_sound {f : BitVec 6 → Instr} (hf : ∀ x, encode (f x) = commandWord mode kind x false)
    (hnul : kind ≠ 9) : SoundAnswer w (widthRow w f) := by
  subst hm hk
  unfold widthRow
  split_ifs with hn
  · exact (reservedWord_iff w).2 (.inr (.inr (.inr (.inr (.inr ⟨hn, fun h => hnul h.1⟩)))))
  · exact (hf _).trans (eq_commandWord hres rfl rfl rfl (Bool.not_eq_true _ ▸ hn))

theorem nulRow_sound {f : Bool → Instr} (hf : ∀ n, encode (f n) = commandWord mode kind 0 n)
    (hwidth : kind ≠ 0) : SoundAnswer w (nulRow w f) := by
  subst hm hk
  unfold nulRow
  split_ifs with hw
  · exact (reservedWord_iff w).2 (.inr (.inr (.inr (.inl ⟨hw, .inr hwidth⟩))))
  · exact (hf _).trans (eq_commandWord hres rfl rfl (not_not.1 hw) rfl)

end

/-- The arms of the decoder are numbered in its own order: three `UBITS` rows, `WR.STR` and `MS.STR`,
the plain rows, and the two refusals of a `FUNC` or `KIND` with no row. -/
theorem decode_sound (w : Word) : SoundAnswer w (decode w) := by
  have hmode := modeField_lt w
  unfold decode
  split_ifs with hres
  · exact (reservedWord_iff w).2 (.inl hres)
  rw [ne_eq, not_not] at hres
  split
  case h_1 | h_12 | h_23 => exact widthRow_sound hres ‹_› ‹_› (fun _ => rfl) (by decide)
  case h_10 | h_32 => exact nulRow_sound hres ‹_› ‹_› (fun _ => rfl) (by decide)
  case h_37 hm _ _ _ =>
    simp only [imp_false] at *
    exact (reservedWord_iff w).2 (.inr (.inr (.inl ⟨hm, by omega⟩)))
  case h_38 =>
    refine (reservedWord_iff w).2 (.inr (.inl ?_))
    -- the arms before this one leave, for each mode below 3, no kind that has a row
    generalize modeField w = mode at *
    interval_cases mode <;> simp at * <;> omega
  all_goals exact plainRow_sound hres ‹_› ‹_› rfl (by decide) (by decide)

theorem encode_of_decode {w : Word} {i : Instr} (h : decode w = .ok i) : encode i = w := by
  have hs := decode_sound w
  rwa [h] at hs

theorem reservedWord_of_decode_error {w : Word} {e : DecodeReject} (h : decode w = .error e) :
    ReservedWord w := by
  have hs := decode_sound w
  rwa [h] at hs

end Sys2Proof.Machine
end

section
/-! The decoder and the encoder are inverse to each other (R79, R85). -/

namespace Sys2Proof.Machine

theorem decode_encode (i : Instr) : decode (encode i) = .ok i := by
  cases i
  case wrUbits | rdUbits | msUbits =>
    simp [decode, encode, widthRow, reservedField_commandWord, modeField_commandWord,
      kindField_commandWord, widthField_commandWord, nulField_commandWord]
  case wrStr nul | msStr nul => cases nul <;> rfl
  all_goals rfl

theorem decode_eq_ok_iff {w : Word} {i : Instr} : decode w = .ok i ↔ encode i = w :=
  ⟨encode_of_decode, fun h => h ▸ decode_encode i⟩

/-- Settles O1: the fields of an encoded word choose its own arm of the decoder, and no arm answers
with an instruction of another word. -/
theorem decodeInvertsEncode : Obligations.DecodeInvertsEncode :=
  ⟨decode_encode, fun _ _ => encode_of_decode⟩

/-- Settles O5: the decoder evaluated on each word. -/
theorem writtenWordsDecode : Obligations.WrittenWordsDecode :=
  ⟨rfl, rfl, rfl, rfl, rfl, rfl, rfl, rfl, rfl, rfl, rfl, rfl, rfl⟩

end Sys2Proof.Machine
end

section
/-! The rows of the opcode map (R79): a word selects a row exactly when it decodes to an instruction of
that row. -/

namespace Sys2Proof.Machine

theorem row_selects_encode (i : Instr) : i.row.selects (encode i) = true := by
  cases i
  case wrUbits width => exact Laws.EncodesRow.wrUbits width
  case rdUbits width => exact Laws.EncodesRow.rdUbits width
  case msUbits width => exact Laws.EncodesRow.msUbits width
  case wrStr nul => exact Laws.EncodesRow.wrStr nul
  case msStr nul => exact Laws.EncodesRow.msStr nul
  all_goals rfl

/-- Masking with `n` ones from bit `k` on leaves the field of `n` bits at bit `k`. -/
theorem and_shifted_ones (x n k : Nat) : x &&& (2 ^ n - 1) <<< k = 2 ^ k * (x / 2 ^ k % 2 ^ n) := by
  rw [mul_comm, ← Nat.shiftLeft_eq]
  apply Nat.eq_of_testBit_eq
  intro j
  by_cases hj : k ≤ j
  · simp [Nat.testBit_shiftLeft, Nat.testBit_mod_two_pow, Nat.testBit_div_two_pow, hj, Bool.and_comm]
  · simp [Nat.testBit_shiftLeft, hj]

theorem and_widthMask (w : Word) : w &&& 0xFC0 = commandWord 0 0 (widthField w) false := by
  apply BitVec.eq_of_toNat_eq
  rw [commandWord_toNat (by decide) (by decide), widthField_toNat, BitVec.toNat_and]
  simpa using and_shifted_ones w.toNat 6 6

theorem and_nulMask (w : Word) : w &&& 0x1000 = commandWord 0 0 0 (nulField w) := by
  apply BitVec.eq_of_toNat_eq
  rw [commandWord_toNat (by decide) (by decide), nulField_toNat, BitVec.toNat_and]
  simpa using and_shifted_ones w.toNat 1 12

theorem commandWord_or_free (mode kind : Nat) (width : BitVec 6) (nul : Bool) :
    commandWord mode kind 0 false ||| commandWord 0 0 width nul = commandWord mode kind width nul := by
  simp [commandWord, ← BitVec.ofNat_or, Nat.or_assoc]

theorem eq_or_and_not_of_selects {r : OpcodeRow} {w : Word} (h : r.selects w = true) :
    r.pattern ||| (w &&& ~~~r.mask) = w := by
  rw [← beq_iff_eq.1 h, ← BitVec.and_or_distrib_left, BitVec.or_not_self, BitVec.and_allOnes]

/-- Whatever the bits that a row leaves free, the word is one of an instruction of that row. -/
theorem exists_encode_eq_of_free_bits (i : Instr) (w : Word) :
    ∃ j, encode j = i.row.pattern ||| (w &&& ~~~i.row.mask) ∧ j.row = i.row := by
  have hwidth (mode : Nat) : commandWord mode 0 (widthField w) false =
      commandWord mode 0 0 false ||| (w &&& ~~~0xFFFFF03F) := by
    rw [← commandWord_or_free, ← and_widthMask]
    rfl
  have hnul (mode : Nat) : commandWord mode 9 0 (nulField w) =
      commandWord mode 9 0 false ||| (w &&& ~~~0xFFFFEFFF) := by
    rw [← commandWord_or_free, ← and_nulMask]
    rfl
  have hplain (p : Word) : p = p ||| (w &&& ~~~0xFFFFFFFF) := by
    simp
  cases i
  case wrUbits => exact ⟨.wrUbits (widthField w), hwidth 0, rfl⟩
  case rdUbits => exact ⟨.rdUbits (widthField w), hwidth 1, rfl⟩
  case msUbits => exact ⟨.msUbits (widthField w), hwidth 2, rfl⟩
  case wrStr => exact ⟨.wrStr (nulField w), hnul 0, rfl⟩
  case msStr => exact ⟨.msStr (nulField w), hnul 2, rfl⟩
  all_goals
    refine ⟨_, ?_, rfl⟩
    exact hplain _

theorem row_selects_iff {i : Instr} {w : Word} :
    i.row.selects w = true ↔ ∃ j, decode w = .ok j ∧ j.row = i.row := by
  constructor
  · intro h
    obtain ⟨j, hj, hrow⟩ := exists_encode_eq_of_free_bits i w
    exact ⟨j, decode_eq_ok_iff.2 (hj.trans (eq_or_and_not_of_selects h)), hrow⟩
  · rintro ⟨j, hj, hrow⟩
    rw [← hrow, ← encode_of_decode hj]
    exact row_selects_encode j

theorem row_mem_opcodeRows (i : Instr) : i.row ∈ opcodeRows := by
  cases i
  case wrUbits | rdUbits | msUbits | wrStr | msStr => simp [Instr.row, opcodeRows]
  all_goals decide

theorem exists_row_eq_of_mem_opcodeRows {r : OpcodeRow} (h : r ∈ opcodeRows) : ∃ i, Instr.row i = r := by
  simp only [opcodeRows, ← List.map_append, List.mem_map] at h
  obtain ⟨i, -, hi⟩ := h
  exact ⟨i, hi⟩

theorem opcodeRows_nodup : opcodeRows.Nodup := by decide

/-- Settles O2: a word selects exactly the row of the instruction it decodes to, and the 36 rows are
distinct. -/
theorem decodeSelectsTheRow : Obligations.DecodeSelectsTheRow := by
  refine ⟨rfl, fun w => ⟨?_, ?_⟩, fun w i h => ?_, ?_⟩
  · rintro ⟨i, h⟩
    exact ⟨i.row, row_mem_opcodeRows i, row_selects_iff.2 ⟨i, h, rfl⟩⟩
  · rintro ⟨r, hr, h⟩
    obtain ⟨i, rfl⟩ := exists_row_eq_of_mem_opcodeRows hr
    obtain ⟨j, hj, -⟩ := row_selects_iff.1 h
    exact ⟨j, hj⟩
  · exact ⟨row_mem_opcodeRows i, row_selects_iff.2 ⟨i, h, rfl⟩⟩
  · refine opcodeRows_nodup.imp_of_mem fun {r r'} hr hr' hne w ⟨h, h'⟩ => hne ?_
    obtain ⟨i, rfl⟩ := exists_row_eq_of_mem_opcodeRows hr
    obtain ⟨i', rfl⟩ := exists_row_eq_of_mem_opcodeRows hr'
    obtain ⟨j, hj, hrow⟩ := row_selects_iff.1 h
    obtain ⟨j', hj', hrow'⟩ := row_selects_iff.1 h'
    rw [hj] at hj'
    cases hj'
    exact hrow.symm.trans hrow'

end Sys2Proof.Machine
end

section
/-! The reserved words (R82): the decoder refuses them or gives them a `UBITS` instruction with no legal
width, and either way the step raises `IllegalCommand`. -/

namespace Sys2Proof.Machine

theorem not_reservedWord_encode {i : Instr} (h : i.wellFormed = true) : ¬ReservedWord (encode i) := by
  rw [reservedWord_iff]
  cases i
  case wrUbits f | rdUbits f | msUbits f =>
    have hf : widthLegal f = true := h
    simp [encode, hf, reservedField_commandWord, modeField_commandWord, kindField_commandWord,
      widthField_commandWord, nulField_commandWord]
  case wrStr nul | msStr nul => cases nul <;> decide
  all_goals decide

/-- An instruction without a legal width is a `UBITS` command, and its word is a reserved one. -/
theorem reservedWord_encode {i : Instr} (h : i.wellFormed = false) : ReservedWord (encode i) := by
  rw [reservedWord_iff]
  cases i
  case wrUbits f | rdUbits f | msUbits f =>
    have hf : widthLegal f = false := h
    simp [encode, hf, modeField_commandWord, kindField_commandWord, widthField_commandWord]
  all_goals cases h

/-- Settles O3: what decodes to a well-formed instruction is that instruction's word, and no case of
R82 covers it; what does not is refused or is the word of an ill-formed instruction. -/
theorem reservedIffNotWellFormed : Obligations.ReservedIffNotWellFormed := by
  intro w
  constructor
  · rintro hres ⟨i, hi, hwf⟩
    exact not_reservedWord_encode hwf (encode_of_decode hi ▸ hres)
  · intro h
    cases hd : decode w with
    | error e => exact reservedWord_of_decode_error hd
    | ok i =>
      rw [← encode_of_decode hd]
      exact reservedWord_encode (Bool.eq_false_iff.2 fun hwf => h ⟨i, hd, hwf⟩)

theorem exec_of_not_wellFormed {i : Instr} (h : i.wellFormed = false) (s : State) :
    exec i s = .next (s.raise .illegalCommand) := by
  rw [exec_eq_result]
  cases i
  case wrUbits f | rdUbits f | msUbits f =>
    have hf := Width.ofField_eq_none (widthLegal_eq_false_iff.1 h)
    simp [effectOf, State.widthEffect, hf, Effect.result, State.advanceEffect]
  all_goals cases h

theorem State.perform_of_decode {s : State} {i : Instr} (h : decode s.op.cmd = .ok i) :
    s.perform = exec i s := by
  rw [State.perform, h]

theorem State.perform_of_reservedWord {s : State} (h : ReservedWord s.op.cmd) :
    s.perform = .next (s.raise .illegalCommand) := by
  cases hd : decode s.op.cmd with
  | error e => rw [State.perform, hd]
  | ok i =>
    rw [State.perform_of_decode hd]
    refine exec_of_not_wellFormed (Bool.eq_false_iff.2 fun hwf => ?_) s
    exact (reservedIffNotWellFormed _).1 h ⟨i, hd, hwf⟩

theorem step_of_command {s : State} {c : Command} {rest : List HostMove} (hd : s.disp = .idle)
    (hh : s.host = .command c :: rest) : step s = (s.accept c rest).perform := by
  rw [step, hd, hh]

theorem step_of_busy {s : State} (hd : s.disp = .busy) : step s = s.perform := by
  rw [step, hd]

theorem step_of_idle_of_nil {s : State} (hd : s.disp = .idle) (hh : s.host = []) : step s = .next s := by
  rw [step, hd, hh]

/-- Settles O4: the command is accepted, and performing its reserved word enters the fault. -/
theorem reservedWordRaisesIllegal : Obligations.ReservedWordRaisesIllegal := by
  intro s c rest hd hh hres
  rw [step_of_command hd hh, State.perform_of_reservedWord (s := s.accept c rest) hres]
  rfl

/-- Settles O6: by the state of the dispatcher and the move presented. -/
theorem stepRunsDecodedCommand : Obligations.StepRunsDecodedCommand := by
  refine ⟨fun s c rest i hd hh hi => ?_, fun s i hd hi => ?_, fun s hd hh => ?_⟩
  · rw [step_of_command hd hh, State.perform_of_decode (s := s.accept c rest) hi]
    rfl
  · rw [step_of_busy hd, State.perform_of_decode hi]
  · exact step_of_idle_of_nil hd hh

end Sys2Proof.Machine
end

section
/-! The bit-integer primitive in closed form (R105, R107): what the loops of R100 and R106 do to every
bit of the buffer and of the number. -/

namespace Sys2Proof.Machine

/-- The byte that one pass of the pack loop writes (R100): the `n` bits of `old` from bit `b` on are
replaced by the low bits of `v`. -/
def mergeBits (old : Byte) (b n v : Nat) : Byte :=
  (old &&& ~~~(BitVec.ofNat 8 (2 ^ n - 1) <<< b)) ||| BitVec.ofNat 8 (v &&& (2 ^ n - 1)) <<< b

theorem getLsbD_mergeBits (old : Byte) (b n v : Nat) {j : Nat} (hj : j < 8) :
    (mergeBits old b n v).getLsbD j =
      if b ≤ j ∧ j < b + n then v.testBit (j - b) else old.getLsbD j := by
  simp only [mergeBits, BitVec.getLsbD_or, BitVec.getLsbD_and, BitVec.getLsbD_not,
    BitVec.getLsbD_shiftLeft, BitVec.getLsbD_ofNat, Nat.testBit_and, Nat.testBit_two_pow_sub_one]
  have hj' : j - b < 8 := by omega
  rcases Nat.lt_or_ge j b with hb | hb
  · simp [hj, hb, Nat.not_le.2 hb]
  · have hn : j < b + n ↔ j - b < n := by omega
    by_cases hjn : j - b < n <;> simp [hj, hj', hb, Nat.not_lt.2 hb, hn, hjn]

theorem packLoop_zero_rem (fuel : Nat) (m : Memory) (i b v : Nat) : packLoop fuel m i b 0 v = m := by
  cases fuel <;> rfl

/-- One pass of the pack loop writes the byte at `i` and goes on at the byte after it. -/
theorem packLoop_succ {rem : Nat} (hrem : 0 < rem) (fuel : Nat) (m : Memory) (i b v : Nat) :
    packLoop (fuel + 1) m i b rem v =
      packLoop fuel (m.write i (mergeBits (m.read i) b (min rem (8 - b)) v)) (i + 1) 0
        (rem - min rem (8 - b)) (v >>> min rem (8 - b)) :=
  if_neg (by omega)

/-- The pack loop replaces the `rem` bits from bit `b` of byte `i` on, and no other bit. -/
theorem packLoop_bit {fuel : Nat} {m : Memory} {i b rem v : Nat} (hfuel : rem ≤ fuel) (hb : b < 8)
    (o : Nat) : (packLoop fuel m i b rem v).bit o =
      if 8 * i + b ≤ o ∧ o < 8 * i + b + rem then v.testBit (o - (8 * i + b)) else m.bit o := by
  induction fuel generalizing m i b rem v with
  | zero => exact (if_neg (by omega)).symm
  | succ fuel ih =>
    rcases Nat.eq_zero_or_pos rem with rfl | hrem
    · rw [packLoop_zero_rem, if_neg (by omega)]
    · rw [packLoop_succ hrem, ih (by omega) (by omega), Memory.bit_write,
        getLsbD_mergeBits _ _ _ _ (Nat.mod_lt o (by decide)), Nat.testBit_shiftRight]
      split
      · next hlater =>
        rw [if_pos (by omega)]
        congr 1
        omega
      · split
        · next hbyte =>
          split
          · rw [if_pos (by omega)]
            congr 1
            omega
          · rw [if_neg (by omega), Memory.bit, hbyte]
        · rw [if_neg (by omega)]

/-- R105. The closed form of `PackBits`, bit by bit. -/
theorem packBits_bit (m : Memory) (off val : Nat) (w : Width) (o : Nat) :
    (packBits m off val w).bit o =
      if off ≤ o ∧ o < off + w.val then val.testBit (o - off) else m.bit o := by
  rw [packBits, packLoop_bit le_rfl (by omega), Nat.div_add_mod]

theorem unpackLoop_zero_rem (m : Memory) (fuel i b res sh : Nat) :
    unpackLoop m fuel i b 0 res sh = res := by
  cases fuel <;> rfl

/-- One pass of the unpack loop reads the byte at `i` and goes on at the byte after it. -/
theorem unpackLoop_succ {rem : Nat} (hrem : 0 < rem) (m : Memory) (fuel i b res sh : Nat) :
    unpackLoop m (fuel + 1) i b rem res sh =
      unpackLoop m fuel (i + 1) 0 (rem - min rem (8 - b))
        (res ||| (((m.read i).toNat >>> b) &&& (2 ^ min rem (8 - b) - 1)) <<< sh)
        (sh + min rem (8 - b)) :=
  if_neg (by omega)

/-- The bits that one pass of the unpack loop takes from a byte. -/
theorem testBit_byte_field (m : Memory) (i n j : Nat) {b : Nat} (hn : b + n ≤ 8) :
    (((m.read i).toNat >>> b) &&& (2 ^ n - 1)).testBit j =
      (decide (j < n) && m.bit (8 * i + b + j)) := by
  rw [Nat.testBit_and, Nat.testBit_shiftRight, Nat.testBit_two_pow_sub_one, Bool.and_comm]
  by_cases hj : j < n
  · rw [Memory.bit, show (8 * i + b + j) / 8 = i by omega, show (8 * i + b + j) % 8 = b + j by omega,
      BitVec.testBit_toNat]
  · simp [hj]

/-- The unpack loop adds the `rem` bits from bit `b` of byte `i` on at output shift `sh`. -/
theorem unpackLoop_testBit (m : Memory) {fuel i b rem : Nat} (res sh : Nat) (hfuel : rem ≤ fuel)
    (hb : b < 8) (j : Nat) : (unpackLoop m fuel i b rem res sh).testBit j =
      (res.testBit j || (decide (sh ≤ j ∧ j < sh + rem) && m.bit (8 * i + b + (j - sh)))) := by
  induction fuel generalizing i b rem res sh with
  | zero => simp [unpackLoop, show ¬(sh ≤ j ∧ j < sh + rem) by omega]
  | succ fuel ih =>
    rcases Nat.eq_zero_or_pos rem with rfl | hrem
    · simp [unpackLoop_zero_rem]
    · rw [unpackLoop_succ hrem, ih _ _ (by omega) (by omega), Nat.testBit_or, Nat.testBit_shiftLeft,
        testBit_byte_field _ _ _ _ (by omega), Bool.or_assoc]
      congr 1
      rcases Nat.lt_or_ge j sh with hsh | hsh
      · simp [Nat.not_le.2 hsh, show ¬sh + min rem (8 - b) ≤ j by omega]
      rcases Nat.lt_or_ge j (sh + min rem (8 - b)) with hthis | hlater
      · simp [hsh, show j - sh < min rem (8 - b) by omega, Nat.not_le.2 hthis,
          show j < sh + rem by omega]
      · have hpass : ¬j - sh < min rem (8 - b) := by omega
        by_cases hj : j < sh + rem
        · have hbit : 8 * (i + 1) + (j - (sh + min rem (8 - b))) = 8 * i + b + (j - sh) := by omega
          simp [hsh, hlater, hj, hpass, hbit]
        · simp [hj, hpass]

/-- R107. The closed form of `UnpackBits`, bit by bit. -/
theorem testBit_unpackBits (m : Memory) (off : Nat) (w : Width) (j : Nat) :
    (unpackBits m off w).testBit j = (decide (j < w.val) && m.bit (off + j)) := by
  rw [unpackBits, unpackLoop_testBit m 0 0 le_rfl (by omega), Nat.div_add_mod]
  simp

end Sys2Proof.Machine
end

section
/-! The descriptions of R105 and R107 as one equation per bit, and the buffers and numbers they
determine. -/

namespace Sys2Proof.Machine

/-- A buffer holds a span exactly when each of its bits is the span's or as before: the bytes outside
the span follow from their bits. -/
theorem spanHolds_iff_bit {m m' : Memory} {off k : Nat} {bits : Nat → Bool} :
    SpanHolds m m' off k bits ↔
      ∀ o, m'.bit o = if off ≤ o ∧ o < off + k then bits (o - off) else m.bit o := by
  constructor
  · rintro ⟨hin, hout, -⟩ o
    split
    · next ho => rw [← hin (o - off) (by omega), Nat.add_sub_cancel' ho.1]
    · exact hout o (by omega)
  · intro h
    refine ⟨fun i hi => ?_, fun o ho => ?_, fun a ha => Memory.read_eq_of_bits fun j hj => ?_⟩
    · rw [h, if_pos (by omega), Nat.add_sub_cancel_left]
    · rw [h, if_neg (by omega)]
    · rw [h, if_neg (by omega)]

/-- Two buffers that hold the same span over the same buffer read the same. -/
theorem SpanHolds.read_eq {m m₁ m₂ : Memory} {off k : Nat} {bits : Nat → Bool}
    (h₁ : SpanHolds m m₁ off k bits) (h₂ : SpanHolds m m₂ off k bits) (a : Nat) :
    m₁.read a = m₂.read a :=
  Memory.read_eq_of_bits fun _ _ => by rw [spanHolds_iff_bit.1 h₁, spanHolds_iff_bit.1 h₂]

theorem packBits_spanHolds (m : Memory) (off val : Nat) (w : Width) :
    SpanHolds m (packBits m off val w) off w.val fun i => val.testBit i :=
  spanHolds_iff_bit.2 (packBits_bit m off val w)

/-- The number held at a span is the one with the span's bits and no other. -/
theorem heldAt_iff_testBit {m : Memory} {off k v : Nat} :
    HeldAt m off k v ↔ ∀ j, v.testBit j = (decide (j < k) && m.bit (off + j)) := by
  constructor
  · rintro ⟨hlt, hbits⟩ j
    by_cases hj : j < k
    · simp [hj, hbits j hj]
    · simp [hj, Nat.testBit_eq_false_of_lt (hlt.trans_le (Nat.pow_le_pow_right two_pos (not_lt.1 hj)))]
  · intro h
    exact ⟨Nat.lt_pow_two_of_testBit v fun j hj => by simp [h, Nat.not_lt.2 hj],
      fun j hj => by simp [h, hj]⟩

theorem unpackBits_heldAt (m : Memory) (off : Nat) (w : Width) :
    HeldAt m off w.val (unpackBits m off w) :=
  heldAt_iff_testBit.2 (testBit_unpackBits m off w)

/-- Unpacking what was packed gives the packed bits of the value (R107). -/
theorem unpackBits_packBits (m : Memory) (off val : Nat) (w : Width) :
    unpackBits (packBits m off val w) off w = val % 2 ^ w.val := by
  refine Nat.eq_of_testBit_eq fun j => ?_
  rw [testBit_unpackBits, packBits_bit, Nat.testBit_mod_two_pow]
  by_cases hj : j < w.val <;> simp [hj]

/-- Settles O10: both clauses from the closed form of every bit. -/
theorem packBitsClosedForm : Obligations.PackBitsClosedForm := fun m off val w =>
  ⟨packBits_spanHolds m off val w, fun _ h => h.read_eq (packBits_spanHolds m off val w)⟩

/-- Settles O11: both clauses from the bits of the number unpacked. -/
theorem unpackBitsClosedForm : Obligations.UnpackBitsClosedForm := fun m off w =>
  ⟨unpackBits_heldAt m off w, fun val => unpackBits_packBits m off val w⟩

end Sys2Proof.Machine
end

section
/-! When two canonical buffers are the same data: the same bits, and the same bytes listed. -/

namespace Sys2Proof.Machine

/-- A byte of the buffer has been written or attached, so that it is listed. -/
def Memory.lists (m : Memory) (a : Nat) : Prop := (lookupCell a m.cells).isSome

theorem Memory.lists_write {m : Memory} {a x : Nat} {b : Byte} :
    (m.write a b).lists x ↔ x = a ∨ m.lists x := by
  by_cases h : x = a
  · subst h
    simp [Memory.lists, Memory.write, lookup_insert_same]
  · simp [Memory.lists, Memory.write, lookup_insert_other b _ h, h]

/-- What a buffer lists at a byte is what it reads there. -/
theorem lookupCell_eq (m : Memory) (a : Nat) :
    lookupCell a m.cells = if (lookupCell a m.cells).isSome then some (m.read a) else none := by
  unfold Memory.read
  cases lookupCell a m.cells <;> rfl

/-- Canonical buffers with the same bits and the same listed bytes are the same data. -/
theorem Memory.ext_of_bits {m m' : Memory} {len : Nat} (h : m.wf len) (h' : m'.wf len)
    (he : m.epoch = m'.epoch) (hlists : ∀ a, m.lists a ↔ m'.lists a)
    (hbits : ∀ o, m.bit o = m'.bit o) : m = m' := by
  refine Memory.ext_of_lookup h h' he fun a => ?_
  have hsome := Bool.eq_iff_iff.2 (hlists a)
  have hread : m.read a = m'.read a := Memory.read_eq_of_bits fun j _ => hbits (8 * a + j)
  rw [lookupCell_eq m, lookupCell_eq m', hsome, hread]

/-- The pack loop lists every byte it writes a bit of. -/
theorem packLoop_lists {fuel : Nat} {m : Memory} {i b rem v a : Nat} (hfuel : rem ≤ fuel) (hb : b < 8) :
    (packLoop fuel m i b rem v).lists a ↔
      (0 < rem ∧ i ≤ a ∧ 8 * a < 8 * i + b + rem) ∨ m.lists a := by
  induction fuel generalizing m i b rem v with
  | zero => simp [packLoop, show ¬0 < rem by omega]
  | succ fuel ih =>
    rcases Nat.eq_zero_or_pos rem with rfl | hrem
    · simp [packLoop_zero_rem]
    · rw [packLoop_succ hrem, ih (by omega) (by omega), Memory.lists_write, ← or_assoc]
      refine or_congr_left ?_
      omega

/-- `PackBits` lists the bytes that a bit of its span lies in. -/
theorem packBits_lists {m : Memory} {off val a : Nat} {w : Width} :
    (packBits m off val w).lists a ↔ (off < 8 * a + 8 ∧ 8 * a < off + w.val) ∨ m.lists a := by
  have := w.property.1
  rw [packBits, packLoop_lists le_rfl (by omega)]
  refine or_congr_left ?_
  omega

/-- R102. A second pack of a span overwrites the first. -/
theorem packBits_packBits_same {m : Memory} {len off : Nat} (v1 v2 : Nat) {w : Width} (h : m.wf len)
    (hlen : off + w.val ≤ 8 * len) : packBits (packBits m off v1 w) off v2 w = packBits m off v2 w := by
  refine Memory.ext_of_bits (packBits_wf _ _ (packBits_wf _ _ h hlen) hlen) (packBits_wf _ _ h hlen)
    (by simp) (fun a => ?_) fun o => ?_
  · simp only [packBits_lists, ← or_assoc, or_self]
  · simp only [packBits_bit]
    split <;> rfl

/-- R103. Only the low `w` bits of the value are packed. -/
theorem packBits_mod {m : Memory} {len off : Nat} (val : Nat) {w : Width} (h : m.wf len)
    (hlen : off + w.val ≤ 8 * len) : packBits m off val w = packBits m off (val % 2 ^ w.val) w := by
  refine Memory.ext_of_bits (packBits_wf _ _ h hlen) (packBits_wf _ _ h hlen) (by simp)
    (fun a => ?_) fun o => ?_
  · simp only [packBits_lists]
  · rw [packBits_bit, packBits_bit, Nat.testBit_mod_two_pow]
    split
    · next ho => simp [show o - off < w.val by omega]
    · rfl

/-- R114. Two packs one after the other are the pack of both widths together. -/
theorem packBits_append {m : Memory} {len off : Nat} (val : Nat) {w1 w2 w : Width}
    (hw : w.val = w1.val + w2.val) (h : m.wf len) (hlen : off + w.val ≤ 8 * len) :
    packBits (packBits m off val w1) (off + w1.val) (val >>> w1.val) w2 = packBits m off val w := by
  refine Memory.ext_of_bits (packBits_wf _ _ (packBits_wf _ _ h (by omega)) (by omega))
    (packBits_wf _ _ h hlen) (by simp) (fun a => ?_) fun o => ?_
  · have := w1.property.1
    have := w2.property.1
    rw [packBits_lists, packBits_lists, packBits_lists, ← or_assoc]
    refine or_congr_left ?_
    omega
  · simp only [packBits_bit, Nat.testBit_shiftRight]
    split
    · next ho =>
      rw [if_pos (by omega)]
      congr 1
      omega
    · split
      · rw [if_pos (by omega)]
      · rw [if_neg (by omega)]

/-- R114. Two unpacks one after the other, joined, are the unpack of both widths together. -/
theorem unpackBits_append (m : Memory) (off : Nat) {w1 w2 w : Width} (hw : w.val = w1.val + w2.val) :
    unpackBits m off w1 ||| unpackBits m (off + w1.val) w2 <<< w1.val = unpackBits m off w := by
  refine Nat.eq_of_testBit_eq fun j => ?_
  simp only [Nat.testBit_or, Nat.testBit_shiftLeft, testBit_unpackBits, hw]
  rcases Nat.lt_or_ge j w1.val with hj | hj
  · simp [hj, Nat.not_le.2 hj, Nat.lt_add_right w2.val hj]
  · have hbit : off + w1.val + (j - w1.val) = off + j := by omega
    simp [hj, Nat.not_lt.2 hj, hbit, Nat.sub_lt_iff_lt_add' hj]

/-- Settles O12: in each case both buffers are canonical, list the same bytes and have the same bits. -/
theorem packBitsOverwritesAndTruncates : Obligations.PackBitsOverwritesAndTruncates :=
  fun _ _ _ v1 v2 _ h hlen => ⟨packBits_packBits_same v1 v2 h hlen, packBits_mod v1 h hlen⟩

/-- Settles O13: the two spans list the bytes of the whole one and have its bits. -/
theorem packBitsConcatenates : Obligations.PackBitsConcatenates :=
  fun m _ off val _ _ _ hw h hlen => ⟨packBits_append val hw h hlen, unpackBits_append m off hw⟩

end Sys2Proof.Machine
end

section
/-! Every outcome of a command whose effect is a fixed-size write, read or measure: each check from the
room condition it stands for, then the rule of the command from its effect. -/

namespace Sys2Proof.Machine

section
variable {s : State} {k : Nat}

theorem State.cursorFault_eq_none (h : s.CursorRoom k) : s.cursorFault k = none := by
  rcases s.cursorFault_eq k with ⟨-, n, hn, hle⟩ | ⟨hf, -⟩
  · exact absurd (h n hn) (Nat.not_lt.2 hle)
  · exact hf

theorem State.cursorFault_eq_some (h : ¬s.CursorRoom k) : s.cursorFault k = some .capacityExceeded := by
  rcases s.cursorFault_eq k with ⟨hf, -⟩ | ⟨-, hroom⟩
  · exact hf
  · exact absurd hroom h

theorem State.boundsFault_eq_none (h : s.SpanFits k) : s.boundsFault k = none := by
  rcases s.boundsFault_eq k with ⟨-, -, hlt⟩ | ⟨hf, -⟩
  · exact absurd h (Nat.not_le.2 hlt)
  · exact hf

theorem State.boundsFault_eq_some (hk : 0 < k) (h : ¬s.SpanFits k) :
    s.boundsFault k = some .outOfBounds := by
  rcases s.boundsFault_eq k with ⟨hf, -⟩ | ⟨-, hzero | hfits⟩
  · exact hf
  · exact absurd hzero hk.ne'
  · exact absurd hfits h

theorem State.spanFault_of_not_fits (hk : 0 < k) (h : ¬s.SpanFits k) :
    s.spanFault k = some .outOfBounds := by
  rw [State.spanFault, State.boundsFault_eq_some hk h, Option.some_or]

theorem State.spanFault_of_fits (h : s.SpanFits k) : s.spanFault k = s.cursorFault k := by
  rw [State.spanFault, State.boundsFault_eq_none h, Option.none_or]

end

/-- A command whose checks found a fault ends in the fault entry (R246). -/
theorem exec_of_fault_eq_some {i : Instr} {s : State} {f : FaultKind}
    (h : (effectOf i s).fault = some f) : exec i s = .next (s.raise f) := by
  rw [exec_eq_effect, h, State.conclude_some]

/-- A command whose checks found no fault ends in its commit (R212). -/
theorem exec_of_fault_eq_none {i : Instr} {s : State} (h : (effectOf i s).fault = none) :
    exec i s = .next ((effectOf i s).done s) := by
  rw [exec_eq_effect, h, State.conclude_none]

section
variable {cmd : Word} {i : Instr} {k : Nat}

/-- The outcomes of a command whose checks are those of a span of `k` bits: bounds before the cursor's
room (R245). -/
theorem exec_of_spanFault (hk : 0 < k) {s : State} (hf : (effectOf i s).fault = s.spanFault k) :
    (¬s.SpanFits k → exec i s = .next s.afterOutOfBounds) ∧
    (s.SpanFits k → ¬s.CursorRoom k → exec i s = .next s.afterCapacityExceeded) ∧
    (s.SpanFits k → s.CursorRoom k → exec i s = .next ((effectOf i s).done s)) := by
  refine ⟨fun hfits => ?_, fun hfits hroom => ?_, fun hfits hroom => ?_⟩
  · exact exec_of_fault_eq_some (hf.trans (State.spanFault_of_not_fits hk hfits))
  · exact exec_of_fault_eq_some
      (hf.trans ((State.spanFault_of_fits hfits).trans (State.cursorFault_eq_some hroom)))
  · exact exec_of_fault_eq_none
      (hf.trans ((State.spanFault_of_fits hfits).trans (State.cursorFault_eq_none hroom)))

/-- The rule of a write, from its effect and what the buffer it leaves holds. -/
theorem writesSpan_of_effect {bits : State → Nat → Bool} {buf : State → Memory}
    (hcmd : encode i = cmd) (hk : 0 < k) (he : ∀ s, effectOf i s = s.writeEffect k (buf s))
    (hbuf : ∀ s, SpanHolds s.buf (buf s) s.cur k (bits s)) : WritesSpan cmd i k bits := by
  refine ⟨decode_eq_ok_iff.2 hcmd, fun s => ?_⟩
  obtain ⟨hbounds, hcap, hdone⟩ := exec_of_spanFault (i := i) (s := s) hk (by rw [he]; rfl)
  refine ⟨hbounds, hcap, fun hfits hroom => ⟨buf s, ?_, hbuf s⟩⟩
  rw [hdone hfits hroom, he]
  rfl

/-- The rule of a read, from its effect and the number it returns. -/
theorem readsSpan_of_effect {value : State → Nat} (hcmd : encode i = cmd) (hk : 0 < k)
    (he : ∀ s, effectOf i s = s.readEffect k (value s))
    (hvalue : ∀ s, HeldAt s.buf s.cur k (value s)) : ReadsSpan cmd i k := by
  refine ⟨decode_eq_ok_iff.2 hcmd, fun s => ?_⟩
  obtain ⟨hbounds, hcap, hdone⟩ := exec_of_spanFault (i := i) (s := s) hk (by rw [he]; rfl)
  refine ⟨hbounds, hcap, fun hfits hroom => ⟨value s, ?_, hvalue s⟩⟩
  rw [hdone hfits hroom, he]
  rfl

/-- The rule of a measure, from its effect. -/
theorem measures_of_effect {k : State → Nat} (hcmd : encode i = cmd)
    (he : ∀ s, effectOf i s = s.measureEffect (k s)) : Measures cmd i k := by
  refine ⟨decode_eq_ok_iff.2 hcmd, fun s => ?_⟩
  have hf : (effectOf i s).fault = s.cursorFault (k s) := by rw [he]; rfl
  constructor
  · intro hroom
    exact exec_of_fault_eq_some (hf.trans (State.cursorFault_eq_some hroom))
  · intro hroom
    rw [exec_of_fault_eq_none (hf.trans (State.cursorFault_eq_none hroom)), he]
    rfl

end

end Sys2Proof.Machine
end

section
/-! The `UBITS` commands (R111 to R113). -/

namespace Sys2Proof.Machine

/-- The word of a `UBITS` command: kind 0, no `NUL`, the width in bits 11:6 (R111 to R113). -/
theorem commandWord_ubits (mode : Nat) (width : BitVec 6) :
    commandWord mode 0 width false = BitVec.ofNat 32 (mode ||| width.toNat <<< 6) := by
  simp [commandWord]

/-- A `UBITS` command with no legal width raises `IllegalCommand` (R111 to R113). -/
theorem exec_of_illegal_width {i : Instr} {width : BitVec 6} (hi : i.wellFormed = widthLegal width)
    (h : width.toNat = 0 ∨ 32 < width.toNat) (s : State) : exec i s = .next s.afterIllegalCommand :=
  exec_of_not_wellFormed (hi.trans (widthLegal_eq_false_iff.2 h)) s

theorem State.widthEffect_of_legal {s : State} {field : BitVec 6} {effect : Width → Effect}
    (h1 : 1 ≤ field.toNat) (h2 : field.toNat ≤ 32) :
    s.widthEffect field effect = effect ⟨field.toNat, h1, h2⟩ := by
  rw [State.widthEffect, Width.ofField_eq_some h1 h2]

/-- Settles O22: the refusal of an illegal width, and the rule of a write of a legal one. -/
theorem writeUbitsRule : Obligations.WriteUbitsRule :=
  ⟨fun _ s h => exec_of_illegal_width rfl h s, fun width h1 h2 =>
    writesSpan_of_effect (commandWord_ubits 0 width) h1 (fun _ => State.widthEffect_of_legal h1 h2)
      fun s => packBits_spanHolds s.buf s.cur s.op.val ⟨width.toNat, h1, h2⟩⟩

/-- Settles O28: the refusal of an illegal width, and the rule of a read of a legal one. -/
theorem readUbitsRule : Obligations.ReadUbitsRule :=
  ⟨fun _ s h => exec_of_illegal_width rfl h s, fun width h1 h2 =>
    readsSpan_of_effect (commandWord_ubits 1 width) h1 (fun _ => State.widthEffect_of_legal h1 h2)
      fun s => unpackBits_heldAt s.buf s.cur ⟨width.toNat, h1, h2⟩⟩

/-- Settles O35: the refusal of an illegal width, and the rule of a measure of a legal one. -/
theorem measureUbitsRule : Obligations.MeasureUbitsRule :=
  ⟨fun _ s h => exec_of_illegal_width rfl h s, fun width h1 h2 =>
    measures_of_effect (commandWord_ubits 2 width) fun _ => State.widthEffect_of_legal h1 h2⟩

end Sys2Proof.Machine
end

section
/-! Byte sequences bit by bit: the bytes packed into a buffer and unpacked from it (R121, R185, R200),
and the byte view of a number (R121, R161). -/

namespace Sys2Proof.Machine

theorem bitOfBytes_cons (b : Byte) (bs : List Byte) (i : Nat) :
    bitOfBytes (b :: bs) i = if i < 8 then b.getLsbD i else bitOfBytes bs (i - 8) := by
  rcases Nat.lt_or_ge i 8 with hi | hi
  · simp [bitOfBytes, hi, Nat.div_eq_of_lt hi, Nat.mod_eq_of_lt hi]
  · obtain ⟨j, rfl⟩ := Nat.exists_eq_add_of_le' hi
    simp [bitOfBytes]

/-- The bytes of a number hold its bits, least significant byte first. -/
theorem bitOfBytes_leBytes (v n i : Nat) :
    bitOfBytes (leBytes v n) i = (decide (i < 8 * n) && v.testBit i) := by
  have hbit : i % 8 < 8 := Nat.mod_lt i (by decide)
  by_cases hi : i < 8 * n
  · have hbyte : i / 8 < n := by omega
    have hget : (leBytes v n).getD (i / 8) 0 = BitVec.ofNat 8 (v >>> (8 * (i / 8))) := by
      simp [leBytes, hbyte]
    rw [bitOfBytes, hget, BitVec.getLsbD_ofNat, Nat.testBit_shiftRight, Nat.div_add_mod,
      decide_eq_true hbit, decide_eq_true hi]
  · have hend : (leBytes v n).length ≤ i / 8 := by rw [leBytes_length]; omega
    simp [bitOfBytes, hi, List.getElem?_eq_none hend]

/-- The number a byte sequence stands for has the bits of the sequence. -/
theorem testBit_leValue (bs : List Byte) (i : Nat) : (leValue bs).testBit i = bitOfBytes bs i := by
  induction bs generalizing i with
  | nil => simp [leValue, bitOfBytes]
  | cons b bs ih =>
    rw [leValue, Nat.testBit_or, Nat.testBit_shiftLeft, BitVec.testBit_toNat, bitOfBytes_cons, ih]
    rcases Nat.lt_or_ge i 8 with hi | hi
    · simp [hi]
    · simp [hi, Nat.not_lt.2 hi]

/-- Packing bytes replaces the bits of their span by those of the bytes, and no other bit. -/
theorem packBytes_bit (m : Memory) (off : Nat) (bs : List Byte) (o : Nat) :
    (packBytes m off bs).bit o =
      if off ≤ o ∧ o < off + 8 * bs.length then bitOfBytes bs (o - off) else m.bit o := by
  induction bs generalizing m off with
  | nil => exact (if_neg fun h => absurd h.2 (Nat.not_lt.2 h.1)).symm
  | cons b bs ih =>
    rw [packBytes, ih, packBits_bit, bitOfBytes_cons, BitVec.testBit_toNat, List.length_cons,
      Width.w8_val]
    rcases Nat.lt_or_ge o (off + 8) with hfirst | hlater
    · have hin : o < off + 8 * (bs.length + 1) := by omega
      have hbit : off ≤ o → o - off < 8 := by omega
      by_cases ho : off ≤ o <;> simp [ho, hfirst, hin, hbit, Nat.not_le.2 hfirst]
    · have hin : off + 8 ≤ o ∧ o < off + 8 + 8 * bs.length ↔
          off ≤ o ∧ o < off + 8 * (bs.length + 1) := by omega
      have hbit : ¬o - off < 8 := by omega
      simp only [hin, hbit, Nat.not_lt.2 hlater, Nat.sub_sub, and_false, if_false]

/-- Packing bytes lists the bytes of the buffer that a bit of their span lies in. -/
theorem packBytes_lists {m : Memory} {off a : Nat} {bs : List Byte} :
    (packBytes m off bs).lists a ↔
      (bs ≠ [] ∧ off < 8 * a + 8 ∧ 8 * a < off + 8 * bs.length) ∨ m.lists a := by
  induction bs generalizing m off with
  | nil => simp [packBytes]
  | cons b bs ih =>
    rw [packBytes, ih, packBits_lists, ← or_assoc, ← List.length_pos_iff_ne_nil,
      ← List.length_pos_iff_ne_nil, List.length_cons, Width.w8_val]
    refine or_congr_left ?_
    omega

/-- The bytes unpacked from a span hold its bits. -/
theorem bitOfBytes_unpackBytes (m : Memory) (off n i : Nat) :
    bitOfBytes (unpackBytes m off n) i = (decide (i < 8 * n) && m.bit (off + i)) := by
  induction n generalizing off i with
  | zero => simp [unpackBytes, bitOfBytes]
  | succ n ih =>
    rw [unpackBytes, bitOfBytes_cons, ih, BitVec.getLsbD_ofNat, testBit_unpackBits, Width.w8_val]
    rcases Nat.lt_or_ge i 8 with hi | hi
    · simp [hi, show i < 8 * (n + 1) by omega]
    · have hin : i - 8 < 8 * n ↔ i < 8 * (n + 1) := by omega
      have hbit : off + 8 + (i - 8) = off + i := by omega
      simp [Nat.not_lt.2 hi, hin, hbit]

end Sys2Proof.Machine
end

section
/-! The 64-bit codec in closed form (R121), and the fixed-width codecs at a byte-aligned offset (R135). -/

namespace Sys2Proof.Machine

/-- R121. The closed form of `PackU64`, bit by bit. -/
theorem packU64_bit (m : Memory) (off val o : Nat) :
    (packU64 m off val).bit o = if off ≤ o ∧ o < off + 64 then val.testBit (o - off) else m.bit o := by
  rw [packU64, packBytes_bit, leBytes_length, bitOfBytes_leBytes]
  split
  · next ho => simp [show o - off < 64 by omega]
  · rfl

theorem packU64_spanHolds (m : Memory) (off val : Nat) :
    SpanHolds m (packU64 m off val) off 64 fun i => val.testBit i :=
  spanHolds_iff_bit.2 (packU64_bit m off val)

theorem packU64_lists {m : Memory} {off val a : Nat} :
    (packU64 m off val).lists a ↔ (off < 8 * a + 8 ∧ 8 * a < off + 64) ∨ m.lists a := by
  rw [packU64, packBytes_lists, leBytes_length, ← List.length_pos_iff_ne_nil, leBytes_length]
  exact or_congr_left (and_iff_right (by decide))

theorem packU64_wf {m : Memory} {len off : Nat} (val : Nat) (h : m.wf len)
    (hlen : off + 64 ≤ 8 * len) : (packU64 m off val).wf len :=
  packBytes_wf _ h (.inl (by rwa [leBytes_length]))

theorem unpackU64_heldAt (m : Memory) (off : Nat) : HeldAt m off 64 (unpackU64 m off) :=
  heldAt_iff_testBit.2 fun j => by rw [unpackU64, testBit_leValue, bitOfBytes_unpackBytes]

/-- A byte inside a byte-aligned span of the bits of a number is a byte of the number. -/
theorem SpanHolds.read_eq_ofNat {m m' : Memory} {a n val : Nat}
    (h : SpanHolds m m' (8 * a) (8 * n) fun i => val.testBit i) {j : Nat} (hj : j < n) :
    m'.read (a + j) = BitVec.ofNat 8 (val >>> (8 * j)) := by
  refine BitVec.eq_of_getLsbD_eq fun b hb => ?_
  have hbit : m'.bit (8 * a + (8 * j + b)) = val.testBit (8 * j + b) := h.1 _ (by omega)
  rw [Memory.bit, show (8 * a + (8 * j + b)) / 8 = a + j by omega,
    show (8 * a + (8 * j + b)) % 8 = b by omega] at hbit
  rw [hbit, BitVec.getLsbD_ofNat, Nat.testBit_shiftRight, decide_eq_true hb, Bool.true_and]

/-- R138. The 64-bit codec packs the low half of the value and then the high half. -/
theorem packU64_eq_packBits_halves {m : Memory} {len off : Nat} (v : Nat) (h : m.wf len)
    (hlen : off + 64 ≤ 8 * len) :
    packU64 m off v = packBits (packBits m off v Width.w32) (off + 32) (v >>> 32) Width.w32 := by
  have hlow : off + Width.w32.val ≤ 8 * len := by rw [Width.w32_val]; omega
  have hhigh : off + 32 + Width.w32.val ≤ 8 * len := by rwa [Width.w32_val, Nat.add_assoc]
  refine Memory.ext_of_bits (packU64_wf v h hlen) (packBits_wf _ _ (packBits_wf _ _ h hlow) hhigh)
    (by simp [packU64]) (fun a => ?_) fun o => ?_
  · rw [packU64_lists, packBits_lists, packBits_lists, ← or_assoc, Width.w32_val]
    refine or_congr_left ?_
    omega
  · rw [packU64_bit, packBits_bit, packBits_bit, Nat.testBit_shiftRight, Width.w32_val]
    split
    · next hspan =>
      split
      · congr 1
        omega
      · rw [if_pos (by omega)]
    · rw [if_neg (by omega), if_neg (by omega)]

/-- Settles O14: the bits packed and the bits of the number unpacked, each in closed form. -/
theorem u64ChunksLayout : Obligations.U64ChunksLayout := fun m off val =>
  ⟨packU64_spanHolds m off val, unpackU64_heldAt m off⟩

/-- Settles O15: each codec's span, byte by byte. -/
theorem alignedLittleEndian : Obligations.AlignedLittleEndian := fun m a val =>
  ⟨fun _ hj => SpanHolds.read_eq_ofNat (n := 2) (packBits_spanHolds m (8 * a) val Width.w16) hj,
    fun _ hj => SpanHolds.read_eq_ofNat (n := 4) (packBits_spanHolds m (8 * a) val Width.w32) hj,
    fun _ hj => SpanHolds.read_eq_ofNat (n := 8) (packU64_spanHolds m (8 * a) val) hj⟩

end Sys2Proof.Machine
end

section
/-! The fixed-width commands (R122 to R133, R168, R171, R174, R203), and those that are `UBITS` commands
(R138). -/

namespace Sys2Proof.Machine

/-- Settles O23: each rule from the closed form of the codec it packs with. -/
theorem writeFixedIntegerRules : Obligations.WriteFixedIntegerRules :=
  ⟨writesSpan_of_effect rfl (by decide) (fun _ => rfl)
      fun s => packBits_spanHolds s.buf s.cur s.op.val Width.w8,
    writesSpan_of_effect rfl (by decide) (fun _ => rfl)
      fun s => packBits_spanHolds s.buf s.cur s.op.val Width.w16,
    writesSpan_of_effect rfl (by decide) (fun _ => rfl)
      fun s => packBits_spanHolds s.buf s.cur s.op.val Width.w32,
    writesSpan_of_effect rfl (by decide) (fun _ => rfl)
      fun s => packU64_spanHolds s.buf s.cur s.op.val⟩

/-- Settles O29: each rule from the closed form of the codec it unpacks with. -/
theorem readFixedIntegerRules : Obligations.ReadFixedIntegerRules :=
  ⟨readsSpan_of_effect rfl (by decide) (fun _ => rfl) fun s => unpackBits_heldAt s.buf s.cur Width.w8,
    readsSpan_of_effect rfl (by decide) (fun _ => rfl) fun s => unpackBits_heldAt s.buf s.cur Width.w16,
    readsSpan_of_effect rfl (by decide) (fun _ => rfl) fun s => unpackBits_heldAt s.buf s.cur Width.w32,
    readsSpan_of_effect rfl (by decide) (fun _ => rfl) fun s => unpackU64_heldAt s.buf s.cur⟩

/-- Settles O34: each rule from the effect of its command. -/
theorem measureFixedRules : Obligations.MeasureFixedRules :=
  ⟨measures_of_effect rfl fun _ => rfl, measures_of_effect rfl fun _ => rfl,
    measures_of_effect rfl fun _ => rfl, measures_of_effect rfl fun _ => rfl,
    measures_of_effect rfl fun _ => rfl, measures_of_effect rfl fun _ => rfl,
    measures_of_effect rfl fun _ => rfl, measures_of_effect rfl fun _ => rfl⟩

/-- Two commands with the same effect in a state have the same outcome in it. -/
theorem exec_congr {i j : Instr} {s : State} (h : effectOf i s = effectOf j s) : exec i s = exec j s := by
  rw [exec_eq_effect, exec_eq_effect, h]

section
variable {field : BitVec 6} {w : Width} (hw : Width.ofField field = some w) (s : State)
include hw

theorem State.widthEffect_of_ofField (effect : Width → Effect) :
    s.widthEffect field effect = effect w := by
  rw [State.widthEffect, hw]

theorem effectOf_wrUbits :
    effectOf (.wrUbits field) s = s.writeEffect w.val (packBits s.buf s.cur s.op.val w) :=
  s.widthEffect_of_ofField hw _

theorem effectOf_rdUbits :
    effectOf (.rdUbits field) s = s.readEffect w.val (unpackBits s.buf s.cur w) :=
  s.widthEffect_of_ofField hw _

theorem effectOf_msUbits : effectOf (.msUbits field) s = s.measureEffect w.val :=
  s.widthEffect_of_ofField hw _

end

/-- Settles O57: each fixed-width command has the effect of its `UBITS` command, and both packs of 64
bits leave the same data. -/
theorem fixedWidthEquivalences : Obligations.FixedWidthEquivalences := by
  have h8 : Width.ofField 8 = some Width.w8 := Width.ofField_eq_some (by decide) (by decide)
  have h16 : Width.ofField 16 = some Width.w16 := Width.ofField_eq_some (by decide) (by decide)
  have h32 : Width.ofField 32 = some Width.w32 := Width.ofField_eq_some (by decide) (by decide)
  refine ⟨fun s => ⟨?_, ?_, ?_, ?_, ?_, ?_, ?_, ?_, ?_⟩,
    fun _ _ _ v h hlen => packU64_eq_packBits_halves v h hlen⟩
  · exact exec_congr (effectOf_wrUbits h8 s).symm
  · exact exec_congr (effectOf_wrUbits h16 s).symm
  · exact exec_congr (effectOf_wrUbits h32 s).symm
  · exact exec_congr (effectOf_rdUbits h8 s).symm
  · exact exec_congr (effectOf_rdUbits h16 s).symm
  · exact exec_congr (effectOf_rdUbits h32 s).symm
  · exact exec_congr (effectOf_msUbits h8 s).symm
  · exact exec_congr (effectOf_msUbits h16 s).symm
  · exact exec_congr (effectOf_msUbits h32 s).symm

end Sys2Proof.Machine
end

section
/-! The varint encoding (R141, R142): the loops without their fuel, and the number of bytes in closed
form. -/

namespace Sys2Proof.Machine

theorem shiftRight_varintGroup_eq_zero_iff {v : Nat} : v >>> Config.varintGroup = 0 ↔ v < 128 := by
  rw [Nat.shiftRight_eq_div_pow, Nat.div_eq_zero_iff_lt (by decide)]
  rfl

theorem shiftRight_varintGroup_ne_zero {v : Nat} (h : 128 ≤ v) : v >>> Config.varintGroup ≠ 0 :=
  fun h0 => Nat.not_lt.2 h (shiftRight_varintGroup_eq_zero_iff.1 h0)

/-- Fuel enough for a value that takes more than one byte is, one less, enough for the rest. -/
theorem log2_shiftRight_varintGroup_lt {v fuel : Nat} (h : v.log2 < fuel + 1) (hv : 128 ≤ v) :
    (v >>> Config.varintGroup).log2 < fuel := by
  rw [Nat.log2_lt (by omega), pow_succ] at h
  rw [Nat.log2_lt (shiftRight_varintGroup_ne_zero hv), Nat.shiftRight_eq_div_pow,
    Nat.div_lt_iff_lt_mul (by decide)]
  have hbits : 2 ^ fuel * 2 ≤ 2 ^ fuel * 2 ^ Config.varintGroup := Nat.mul_le_mul_left _ (by decide)
  exact h.trans_le hbits

/-- Every fuel above the bit length gives the same encoding. -/
theorem varintEncLoop_congr_fuel {v fuel fuel' : Nat} (h : v.log2 < fuel) (h' : v.log2 < fuel') :
    varintEncLoop fuel v = varintEncLoop fuel' v := by
  induction fuel generalizing v fuel' with
  | zero => exact absurd h (Nat.not_lt_zero _)
  | succ fuel ih =>
    obtain ⟨fuel', rfl⟩ := Nat.exists_eq_add_one_of_ne_zero (Nat.ne_zero_of_lt h')
    simp only [varintEncLoop, shiftRight_varintGroup_eq_zero_iff]
    split
    · rfl
    · next hv =>
      have hv : 128 ≤ v := Nat.not_lt.1 hv
      rw [ih (log2_shiftRight_varintGroup_lt h hv) (log2_shiftRight_varintGroup_lt h' hv)]

/-- The encoding of a value of one group is one byte. -/
theorem varintEnc_of_lt {v : Nat} (h : v < 128) : varintEnc v = [BitVec.ofNat 8 v] := by
  have hgroup : v &&& 0x7F = v := Nat.and_two_pow_sub_one_of_lt_two_pow (n := 7) h
  rw [varintEnc, varintEncLoop, if_pos (shiftRight_varintGroup_eq_zero_iff.2 h), hgroup]

/-- The encoding of a larger value is its low group, flagged, and the encoding of the rest. -/
theorem varintEnc_of_ge {v : Nat} (h : 128 ≤ v) :
    varintEnc v = BitVec.ofNat 8 ((v &&& 0x7F) ||| 0x80) :: varintEnc (v >>> 7) := by
  rw [varintEnc, varintEncLoop, if_neg (shiftRight_varintGroup_ne_zero h), varintEnc,
    varintEncLoop_congr_fuel (log2_shiftRight_varintGroup_lt (Nat.lt_succ_self _) h) (Nat.lt_succ_self _)]

/-- Induction along the groups of a value. -/
theorem varint_induction {P : Nat → Prop} (last : ∀ v, v < 128 → P v)
    (more : ∀ v, 128 ≤ v → P (v >>> 7) → P v) (v : Nat) : P v := by
  induction v using Nat.strong_induction_on with
  | h v ih =>
    rcases Nat.lt_or_ge v 128 with hv | hv
    · exact last v hv
    · exact more v hv (ih _ (by rw [Nat.shiftRight_eq_div_pow]; omega))

theorem varintBytes_of_lt {v : Nat} (h : v < 128) : varintBytes v = 1 := by
  rcases Nat.eq_zero_or_pos v with rfl | hpos
  · rfl
  · have hle : v.size ≤ 7 := Nat.size_le.2 h
    have hsize : 0 < v.size := Nat.size_pos.2 hpos
    rw [varintBytes, if_neg hpos.ne']
    omega

/-- Dropping one group shortens a value that has more by seven bits. -/
theorem size_shiftRight_seven {v : Nat} (h : 128 ≤ v) : (v >>> 7).size + 7 = v.size := by
  refine eq_of_forall_ge_iff fun n => ?_
  rcases Nat.lt_or_ge n 7 with hn | hn
  · have hsize : 7 < v.size := Nat.lt_size.2 h
    omega
  · obtain ⟨n, rfl⟩ := Nat.exists_eq_add_of_le' hn
    rw [Nat.add_le_add_iff_right, Nat.size_le, Nat.size_le, Nat.shiftRight_eq_div_pow, pow_add]
    omega

theorem varintBytes_of_ge {v : Nat} (h : 128 ≤ v) : varintBytes v = varintBytes (v >>> 7) + 1 := by
  rw [varintBytes, if_neg (by omega), varintBytes, if_neg (shiftRight_varintGroup_ne_zero h),
    ← size_shiftRight_seven h]
  omega

theorem varintBytes_pos (v : Nat) : 0 < varintBytes v := by
  rcases Nat.lt_or_ge v 128 with h | h
  · rw [varintBytes_of_lt h]
    decide
  · rw [varintBytes_of_ge h]
    exact Nat.succ_pos _

theorem varintEncLoop_length (fuel v : Nat) : (varintEncLoop fuel v).length = varintLenLoop fuel v := by
  induction fuel generalizing v with
  | zero => rfl
  | succ fuel ih =>
    simp only [varintEncLoop, varintLenLoop]
    split
    · rfl
    · rw [List.length_cons, ih, Nat.add_comm]

/-- R142. `VarintLen` counts the bytes of `VarintEnc`. -/
theorem varintEnc_length_eq_varintLen (v : Nat) : (varintEnc v).length = varintLen v :=
  varintEncLoop_length _ _

@[simp] theorem varintEnc_length (v : Nat) : (varintEnc v).length = varintBytes v := by
  induction v using varint_induction with
  | last v h => rw [varintEnc_of_lt h, varintBytes_of_lt h, List.length_singleton]
  | more v h ih => rw [varintEnc_of_ge h, varintBytes_of_ge h, List.length_cons, ih]

@[simp] theorem varintLen_eq_varintBytes (v : Nat) : varintLen v = varintBytes v := by
  rw [← varintEnc_length_eq_varintLen, varintEnc_length]

/-- The encoding is minimal: its last byte is zero for the value 0 alone (R141). -/
theorem varintEnc_last_ne_zero {v : Nat} (hv : v ≠ 0) :
    (varintEnc v).getD (varintBytes v - 1) 0 ≠ 0 := by
  induction v using varint_induction with
  | last v h =>
    rw [varintEnc_of_lt h, varintBytes_of_lt h]
    show BitVec.ofNat 8 v ≠ 0
    rw [← BitVec.toNat_ne_iff_ne, BitVec.toNat_ofNat, Nat.mod_eq_of_lt (h.trans (by decide))]
    exact hv
  | more v h ih =>
    obtain ⟨n, hn⟩ := Nat.exists_eq_add_one_of_ne_zero (varintBytes_pos (v >>> 7)).ne'
    have ih := ih (shiftRight_varintGroup_ne_zero h)
    rw [hn] at ih
    rw [varintEnc_of_ge h, varintBytes_of_ge h, hn]
    exact ih

end Sys2Proof.Machine
end

section
/-! The varint format (R140, R143) as a predicate on bits, and the byte sequences that have it: the
encoding of a value, and the same with trailing zero groups (R147). -/

namespace Sys2Proof.Machine

/-- The first `n` bytes of a stream of bits are a varint of value `v`: bit 7 of byte `j` is set exactly
when another byte follows, and bits 6:0 are bits `7j+6 : 7j` of the value (R140). -/
structure IsVarint (bits : Nat → Bool) (n v : Nat) : Prop where
  /-- There is at least one byte. -/
  pos : 0 < n
  /-- The continuation flags. -/
  flag : ∀ j, j < n → bits (8 * j + 7) = decide (j + 1 < n)
  /-- The groups. -/
  group : ∀ i, v.testBit i = (decide (i < 7 * n) && bits (8 * (i / 7) + i % 7))

theorem IsVarint.congr {bits bits' : Nat → Bool} {n v : Nat} (h : IsVarint bits n v)
    (he : ∀ i, i < 8 * n → bits' i = bits i) : IsVarint bits' n v := by
  refine ⟨h.pos, fun j hj => ?_, fun i => ?_⟩
  · rw [he _ (by omega), h.flag j hj]
  · rw [h.group]
    by_cases hi : i < 7 * n
    · rw [he _ (by omega)]
    · simp [hi]

theorem IsVarint.value_lt {bits : Nat → Bool} {n v : Nat} (h : IsVarint bits n v) : v < 2 ^ (7 * n) :=
  Nat.lt_pow_two_of_testBit v fun i hi => by simp [h.group, Nat.not_lt.2 hi]

/-- A byte without the continuation flag is a varint. -/
theorem isVarint_singleton {b : Byte} (hflag : b.getLsbD 7 = false) :
    IsVarint (bitOfBytes [b]) [b].length b.toNat := by
  refine ⟨Nat.one_pos, fun j hj => ?_, fun i => ?_⟩
  · obtain rfl : j = 0 := Nat.lt_one_iff.1 hj
    simpa [bitOfBytes] using hflag
  · rw [BitVec.testBit_toNat, List.length_singleton]
    rcases Nat.lt_or_ge i 7 with hi | hi
    · simp [bitOfBytes_cons, hi, Nat.div_eq_of_lt hi, Nat.mod_eq_of_lt hi, show i < 8 by omega]
    · rcases hi.eq_or_lt with rfl | hi
      · simpa using hflag
      · simp [show ¬i < 7 by omega, BitVec.getLsbD_of_ge b i hi]

/-- A byte with the continuation flag and the low group of a value, before a varint of the rest. -/
theorem IsVarint.cons {b : Byte} {bs : List Byte} {v : Nat} (hflag : b.getLsbD 7 = true)
    (hlow : ∀ i, i < 7 → b.getLsbD i = v.testBit i)
    (h : IsVarint (bitOfBytes bs) bs.length (v >>> 7)) :
    IsVarint (bitOfBytes (b :: bs)) (b :: bs).length v := by
  have hpos := h.pos
  rw [List.length_cons]
  refine ⟨Nat.succ_pos _, fun j hj => ?_, fun i => ?_⟩
  · rw [bitOfBytes_cons]
    cases j with
    | zero => rw [if_pos (by omega), hflag, decide_eq_true (by omega)]
    | succ j =>
      have hnext := h.flag j (by omega)
      rw [if_neg (by omega), show 8 * (j + 1) + 7 - 8 = 8 * j + 7 by omega, hnext]
      simp
  · rw [bitOfBytes_cons]
    rcases Nat.lt_or_ge i 7 with hi | hi
    · rw [Nat.div_eq_of_lt hi, Nat.mod_eq_of_lt hi, if_pos (by omega), Nat.mul_zero, Nat.zero_add,
        hlow i hi, decide_eq_true (by omega), Bool.true_and]
    · obtain ⟨i, rfl⟩ := Nat.exists_eq_add_of_le hi
      have hnext := h.group i
      rw [Nat.testBit_shiftRight] at hnext
      have hin : 7 + i < 7 * (bs.length + 1) ↔ i < 7 * bs.length := by omega
      have hbit : 8 * ((7 + i) / 7) + (7 + i) % 7 - 8 = 8 * (i / 7) + i % 7 := by omega
      rw [if_neg (by omega), hnext, hbit, decide_eq_decide.2 hin]

/-- The continuation flag alone is in no group. -/
theorem getLsbD_flag_of_lt {i : Nat} (hi : i < 7) : (0x80 : Byte).getLsbD i = false := by
  revert i
  decide

theorem getLsbD_or_flag_seven (b : Byte) : (b ||| 0x80).getLsbD 7 = true := by
  rw [BitVec.getLsbD_or, Bool.or_eq_true_iff]
  exact .inr rfl

theorem getLsbD_or_flag_of_lt (b : Byte) {i : Nat} (hi : i < 7) :
    (b ||| 0x80).getLsbD i = b.getLsbD i := by
  rw [BitVec.getLsbD_or, getLsbD_flag_of_lt hi, Bool.or_false]

/-- The byte that the encoding emits before another one: the low group, with the flag set. -/
theorem ofNat_flagged_group (v : Nat) :
    BitVec.ofNat 8 ((v &&& 0x7F) ||| 0x80) = BitVec.ofNat 8 (v &&& 0x7F) ||| 0x80 :=
  BitVec.ofNat_or

theorem getLsbD_low_group (v : Nat) {i : Nat} (hi : i < 7) :
    (BitVec.ofNat 8 (v &&& 0x7F)).getLsbD i = v.testBit i := by
  have h7F : (0x7F : Nat).testBit i = decide (i < 7) := Nat.testBit_two_pow_sub_one 7 i
  rw [BitVec.getLsbD_ofNat, Nat.testBit_and, h7F, decide_eq_true hi, Bool.and_true,
    decide_eq_true (by omega), Bool.true_and]

/-- R140. The encoding of a value is a varint of that value. -/
theorem isVarint_varintEnc (v : Nat) : IsVarint (bitOfBytes (varintEnc v)) (varintEnc v).length v := by
  induction v using varint_induction with
  | last v h =>
    have hbyte : (BitVec.ofNat 8 v).toNat = v := Nat.mod_eq_of_lt (h.trans (by decide))
    have hflag : (BitVec.ofNat 8 v).getLsbD 7 = false := by
      rw [← BitVec.testBit_toNat, hbyte]
      exact Nat.testBit_eq_false_of_lt h
    have hvarint := isVarint_singleton hflag
    rwa [hbyte, ← varintEnc_of_lt h] at hvarint
  | more v h ih =>
    rw [varintEnc_of_ge h, ofNat_flagged_group]
    exact ih.cons (getLsbD_or_flag_seven _) fun i hi => by
      rw [getLsbD_or_flag_of_lt _ hi, getLsbD_low_group v hi]

/-- R140. The bits of the encoding in closed form. -/
theorem bitOfBytes_varintEnc (v : Nat) {i : Nat} (hi : i < 8 * varintBytes v) :
    bitOfBytes (varintEnc v) i = varintBit v i := by
  obtain ⟨-, hflag, hgroup⟩ := isVarint_varintEnc v
  rw [varintEnc_length] at hflag hgroup
  rw [varintBit]
  split
  · next hlow =>
    have hin : 7 * (i / 8) + i % 8 < 7 * varintBytes v := by omega
    rw [hgroup, decide_eq_true hin, Bool.true_and]
    congr 1
    omega
  · next hhigh =>
    rw [← hflag (i / 8) (by omega)]
    congr 1
    omega

/-- Flags with no group before a zero byte are a varint of value 0 (R147). -/
theorem isVarint_zero_groups (n : Nat) :
    IsVarint (bitOfBytes (List.replicate n (0x80 : Byte) ++ [0x00]))
      (List.replicate n (0x80 : Byte) ++ [0x00]).length 0 := by
  induction n with
  | zero => exact isVarint_singleton rfl
  | succ n ih => exact ih.cons rfl fun i hi => by rw [getLsbD_flag_of_lt hi, Nat.zero_testBit]

/-- The encoding of a value with every flag set, before zero groups, is a varint of that value (R147). -/
theorem isVarint_varintEnc_append {bs : List Byte} (h : IsVarint (bitOfBytes bs) bs.length 0) (v : Nat) :
    IsVarint (bitOfBytes ((varintEnc v).map (· ||| 0x80) ++ bs))
      ((varintEnc v).map (· ||| 0x80) ++ bs).length v := by
  induction v using varint_induction with
  | last v hv =>
    rw [varintEnc_of_lt hv]
    rw [← shiftRight_varintGroup_eq_zero_iff.2 hv] at h
    refine h.cons (getLsbD_or_flag_seven _) fun i hi => ?_
    rw [getLsbD_or_flag_of_lt _ hi, BitVec.getLsbD_ofNat, decide_eq_true (by omega), Bool.true_and]
  | more v hv ih =>
    rw [varintEnc_of_ge hv, ofNat_flagged_group]
    refine ih.cons (getLsbD_or_flag_seven _) fun i hi => ?_
    rw [getLsbD_or_flag_of_lt _ hi, getLsbD_or_flag_of_lt _ hi, getLsbD_low_group v hi]

/-- Settles O16: the lengths and the last byte by induction along the groups, the bits from the format. -/
theorem varintEncodingShape : Obligations.VarintEncodingShape := fun v =>
  ⟨varintEnc_length_eq_varintLen v, varintLen_eq_varintBytes v, fun _ hi => bitOfBytes_varintEnc v hi,
    varintEnc_last_ne_zero⟩

end Sys2Proof.Machine
end

section
/-! The varint decoder (R143): a varint that ends inside the buffer is decoded to its value, and a chain
that does not end there to nothing. -/

namespace Sys2Proof.Machine

/-- The continuation flag as the decoder tests it. -/
theorem varint_flag_clear_iff (m : Memory) (o : Nat) :
    unpackBits m o Width.w8 &&& 0x80 = 0 ↔ m.bit (o + 7) = false := by
  rw [show (0x80 : Nat) = 2 ^ 7 from rfl, Nat.and_two_pow, testBit_unpackBits]
  cases m.bit (o + 7) <;> simp

section
variable {m : Memory} {off n v : Nat} (h : IsVarint (fun i => m.bit (off + i)) n v)
include h

/-- One pass of the decoder adds group `k` to the groups before it. -/
theorem IsVarint.mod_or_group {k : Nat} (hk : k < n) :
    v % 2 ^ (7 * k) ||| (unpackBits m (off + 8 * k) Width.w8 &&& 0x7F) <<< (Config.varintGroup * k) =
      v % 2 ^ (7 * (k + 1)) := by
  refine Nat.eq_of_testBit_eq fun i => ?_
  have h7F : (0x7F : Nat).testBit (i - 7 * k) = decide (i - 7 * k < 7) := Nat.testBit_two_pow_sub_one 7 _
  rw [Nat.testBit_or, Nat.testBit_shiftLeft, Nat.testBit_and, h7F, testBit_unpackBits,
    Nat.testBit_mod_two_pow, Nat.testBit_mod_two_pow, Width.w8_val]
  rcases Nat.lt_or_ge i (7 * k) with hbelow | hge
  · simp [hbelow, Nat.not_le.2 hbelow, show i < 7 * (k + 1) by omega]
  rcases Nat.lt_or_ge i (7 * (k + 1)) with hin | habove
  · have hbit : off + 8 * k + (i - 7 * k) = off + (8 * (i / 7) + i % 7) := by omega
    rw [h.group, hbit]
    simp [hge, hin, Nat.not_lt.2 hge, show i - 7 * k < 8 by omega, show i - 7 * k < 7 by omega,
      show i < 7 * n by omega]
  · simp [Nat.not_lt.2 hge, Nat.not_lt.2 habove, show ¬i - 7 * k < 7 by omega]

theorem varintDecLoop_eq_some {bits fuel k : Nat} (hfits : off + 8 * n ≤ bits) (hk : k < n)
    (hfuel : n ≤ k + fuel) :
    varintDecLoop m bits off fuel k (v % 2 ^ (7 * k)) = some (v, 8 * n) := by
  induction fuel generalizing k with
  | zero => omega
  | succ fuel ih =>
    have hflag : m.bit (off + 8 * k + 7) = decide (k + 1 < n) := by
      rw [← h.flag k hk, Nat.add_assoc]
    simp only [varintDecLoop, varint_flag_clear_iff, hflag, decide_eq_false_iff_not, h.mod_or_group hk]
    rw [if_neg (by omega)]
    split
    · next hlast =>
      obtain rfl : k + 1 = n := by omega
      rw [Nat.mod_eq_of_lt h.value_lt]
    · next hmore => exact ih (not_not.1 hmore) (by omega)

/-- A varint whose bytes are all in the buffer is decoded to its value and its length in bits. -/
theorem varintDec_eq_some {len : Nat} (hfits : off + 8 * n ≤ 8 * len) :
    varintDec m len off = some (v, 8 * n) := by
  have hloop := varintDecLoop_eq_some h hfits h.pos (fuel := len + 1) (by omega)
  rwa [Nat.mul_zero, pow_zero, Nat.mod_one] at hloop

end

/-- The decoder finds nothing when no byte inside the buffer ends the chain. -/
theorem varintDecLoop_eq_none {s : State} {bits : Nat}
    (h : ∀ k, s.VarintEndsAt k → bits < s.cur + 8 * (k + 1)) {fuel k res : Nat}
    (hflags : ∀ j, j < k → s.buf.bit (s.cur + 8 * j + 7) = true) :
    varintDecLoop s.buf bits s.cur fuel k res = none := by
  induction fuel generalizing k res with
  | zero => rfl
  | succ fuel ih =>
    simp only [varintDecLoop, varint_flag_clear_iff]
    split
    · rfl
    · next hin =>
      have hflag : s.buf.bit (s.cur + 8 * k + 7) = true := by
        by_contra hclear
        exact hin (h k ⟨hflags, Bool.not_eq_true _ ▸ hclear⟩)
      rw [if_neg (by simp [hflag])]
      refine ih fun j hj => ?_
      rcases Nat.lt_succ_iff_lt_or_eq.1 hj with hj | rfl
      · exact hflags j hj
      · exact hflag

/-- A varint packed anywhere in a buffer that holds it is decoded there. -/
theorem varintDec_packBytes {bs : List Byte} {v len off : Nat} (m : Memory)
    (h : IsVarint (bitOfBytes bs) bs.length v) (hfits : off + 8 * bs.length ≤ 8 * len) :
    varintDec (packBytes m off bs) len off = some (v, 8 * bs.length) := by
  refine varintDec_eq_some (h.congr fun i hi => ?_) hfits
  rw [packBytes_bit, if_pos (by omega), Nat.add_sub_cancel_left]

/-- Settles O17: what was packed is a varint of the value. -/
theorem varintDecodesItsEncoding : Obligations.VarintDecodesItsEncoding := fun m len off v hfits => by
  rw [← varintEnc_length_eq_varintLen] at hfits ⊢
  exact varintDec_packBytes m (isVarint_varintEnc v) hfits

/-- Settles O18: what was packed is a varint of the value, of all its bytes. -/
theorem nonMinimalVarintAccepted : Obligations.NonMinimalVarintAccepted := by
  intro m len off v n body hfits
  have hlen : (body ++ (List.replicate n (0x80 : Byte) ++ [0x00])).length = body.length + n + 1 := by
    simp [Nat.add_assoc]
  rw [← hlen] at hfits ⊢
  rw [List.append_assoc]
  exact varintDec_packBytes m (isVarint_varintEnc_append (isVarint_zero_groups n) v) hfits

end Sys2Proof.Machine
end

section
/-! The varint commands (R144 to R146). -/

namespace Sys2Proof.Machine

section
variable {s : State} {v k : Nat}

theorem State.varintFault_eq_none (h : s.VarintRoom v) : s.varintFault v = none := by
  rcases s.varintFault_eq v with ⟨-, n, hn, hle⟩ | ⟨hf, -⟩
  · exact absurd (h n hn) (Nat.not_lt.2 hle)
  · exact hf

theorem State.varintFault_eq_some (h : ¬s.VarintRoom v) : s.varintFault v = some .capacityExceeded := by
  rcases s.varintFault_eq v with ⟨hf, -⟩ | ⟨-, hroom⟩
  · exact hf
  · exact absurd hroom h

/-- The two ceilings of a varint command, together (R148, R244). -/
theorem State.varintCeilings_of_not_room (h : ¬(s.VarintRoom v ∧ s.CursorRoom k)) :
    (s.varintFault v).or (s.cursorFault k) = some .capacityExceeded := by
  by_cases hv : s.VarintRoom v
  · rw [State.varintFault_eq_none hv, Option.none_or, State.cursorFault_eq_some fun hk => h ⟨hv, hk⟩]
  · rw [State.varintFault_eq_some hv, Option.some_or]

theorem State.varintCeilings_of_room (hv : s.VarintRoom v) (hk : s.CursorRoom k) :
    (s.varintFault v).or (s.cursorFault k) = none := by
  rw [State.varintFault_eq_none hv, State.cursorFault_eq_none hk, Option.none_or]

end

/-- The encoding packed into a buffer, bit by bit. -/
theorem packBytes_varintEnc_spanHolds (m : Memory) (off v : Nat) :
    SpanHolds m (packBytes m off (varintEnc v)) off (8 * varintBytes v) (varintBit v) := by
  refine spanHolds_iff_bit.2 fun o => ?_
  rw [packBytes_bit, varintEnc_length]
  split
  · next ho => exact bitOfBytes_varintEnc v (by omega)
  · rfl

theorem effectOf_wrUvar (s : State) :
    effectOf .wrUvar s =
      { s.advanceEffect ((s.boundsFault (8 * varintBytes s.op.val)).or
          ((s.varintFault s.op.val).or (s.cursorFault (8 * varintBytes s.op.val))))
          (8 * varintBytes s.op.val) with
        buf := packBytes s.buf s.cur (varintEnc s.op.val) } := by
  rw [← varintEnc_length]
  rfl

theorem effectOf_msUvar (s : State) :
    effectOf .msUvar s =
      s.advanceEffect ((s.varintFault s.op.val).or (s.cursorFault (8 * varintBytes s.op.val)))
        (8 * varintBytes s.op.val) := by
  rw [← varintLen_eq_varintBytes]
  rfl

theorem effectOf_rdUvar_of_eq_some {s : State} {v k : Nat}
    (h : varintDec s.buf s.buflen s.cur = some (v, k)) :
    effectOf .rdUvar s =
      { s.advanceEffect ((s.varintFault v).or (s.cursorFault k)) k with resp := Response.value k v } := by
  rw [effectOf, State.readVarintEffect, h]

theorem effectOf_rdUvar_of_eq_none {s : State} (h : varintDec s.buf s.buflen s.cur = none) :
    effectOf .rdUvar s = s.advanceEffect (some .outOfBounds) 0 := by
  rw [effectOf, State.readVarintEffect, h]

/-- Settles O24: the checks from the room conditions, the buffer from the bits of the encoding. -/
theorem writeVarintRule : Obligations.WriteVarintRule := by
  refine ⟨rfl, fun s => ?_⟩
  intro k
  have hk : 0 < k := Nat.mul_pos (by decide) (varintBytes_pos _)
  have hf : (effectOf .wrUvar s).fault =
      (s.boundsFault k).or ((s.varintFault s.op.val).or (s.cursorFault k)) := by
    rw [effectOf_wrUvar]
    rfl
  refine ⟨fun hfits => ?_, fun hfits hroom => ?_, fun hfits hval hcur =>
    ⟨_, ?_, packBytes_varintEnc_spanHolds s.buf s.cur s.op.val⟩⟩
  · rw [State.boundsFault_eq_some hk hfits, Option.some_or] at hf
    exact exec_of_fault_eq_some hf
  · rw [State.boundsFault_eq_none hfits, State.varintCeilings_of_not_room hroom, Option.none_or] at hf
    exact exec_of_fault_eq_some hf
  · rw [State.boundsFault_eq_none hfits, State.varintCeilings_of_room hval hcur, Option.none_or] at hf
    rw [exec_of_fault_eq_none hf, effectOf_wrUvar]
    rfl

/-- Settles O36: the two ceilings from the room conditions. -/
theorem measureVarintRule : Obligations.MeasureVarintRule := by
  refine ⟨rfl, fun s => ?_⟩
  intro k
  have hf : (effectOf .msUvar s).fault = (s.varintFault s.op.val).or (s.cursorFault k) := by
    rw [effectOf_msUvar]
    rfl
  refine ⟨fun hroom => ?_, fun hval hcur => ?_⟩
  · exact exec_of_fault_eq_some (hf.trans (State.varintCeilings_of_not_room hroom))
  · rw [exec_of_fault_eq_none (hf.trans (State.varintCeilings_of_room hval hcur)), effectOf_msUvar]
    rfl

/-- The value that the groups of a chain at the cursor make. -/
def State.chainValue (s : State) (k : Nat) : Nat :=
  Nat.ofBits fun i : Fin (7 * (k + 1)) => s.buf.bit (s.cur + (8 * (i / 7) + i % 7))

/-- A continuation chain at the cursor that ends with byte `k` is a varint of `k + 1` bytes. -/
theorem State.VarintEndsAt.isVarint {s : State} {k : Nat} (h : s.VarintEndsAt k) :
    IsVarint (fun i => s.buf.bit (s.cur + i)) (k + 1) (s.chainValue k) := by
  obtain ⟨hset, hclear⟩ := h
  refine ⟨Nat.succ_pos k, fun j hj => ?_, fun i => ?_⟩
  · rcases Nat.lt_succ_iff_lt_or_eq.1 hj with hj | rfl
    · rw [← Nat.add_assoc, hset j hj, decide_eq_true (by omega)]
    · rw [← Nat.add_assoc, hclear, decide_eq_false (lt_irrefl _)]
  · rw [State.chainValue, Nat.testBit_ofBits]
    by_cases hi : i < 7 * (k + 1) <;> simp [hi]

/-- The value of a varint at the cursor is the one its groups make (R143). -/
theorem IsVarint.varintValue {s : State} {k v : Nat}
    (h : IsVarint (fun i => s.buf.bit (s.cur + i)) (k + 1) v) : s.VarintValue k v := by
  refine ⟨h.value_lt, fun j hj b hb => ?_⟩
  rw [h.group, decide_eq_true (by omega), Bool.true_and]
  congr 1
  omega

/-- Settles O30: the chain that ends in the buffer is decoded to its value, and no other to any. -/
theorem readVarintRule : Obligations.ReadVarintRule := by
  refine ⟨rfl, fun s k hends hfits => ?_, fun s hnone => ?_⟩
  · have hvarint := hends.isVarint
    have he := effectOf_rdUvar_of_eq_some (varintDec_eq_some hvarint hfits)
    refine ⟨s.chainValue k, hvarint.varintValue, fun hroom => ?_, fun hval hcur => ?_⟩
    · refine exec_of_fault_eq_some (f := .capacityExceeded) ?_
      rw [he]
      exact State.varintCeilings_of_not_room hroom
    · rw [exec_of_fault_eq_none (by rw [he]; exact State.varintCeilings_of_room hval hcur), he]
      rfl
  · have hdec : varintDec s.buf s.buflen s.cur = none :=
      varintDecLoop_eq_none (fun k hends => Nat.not_le.1 (hnone k hends)) fun _ hj =>
        absurd hj (Nat.not_lt_zero _)
    refine exec_of_fault_eq_some (f := .outOfBounds) ?_
    rw [effectOf_rdUvar_of_eq_none hdec]
    rfl

end Sys2Proof.Machine
end

section
/-! Byte sequences determined by their bits: what is read from a buffer after a pack, and the number of
a byte sequence and back (R161). -/

namespace Sys2Proof.Machine

/-- Byte sequences of one length with the same bits are the same. -/
theorem eq_of_bitOfBytes_eq {bs bs' : List Byte} (hlen : bs.length = bs'.length)
    (hbits : ∀ i, i < 8 * bs.length → bitOfBytes bs i = bitOfBytes bs' i) : bs = bs' := by
  refine List.ext_getElem hlen fun j hj hj' => BitVec.eq_of_getLsbD_eq fun b hb => ?_
  have hbit := hbits (8 * j + b) (by omega)
  rw [bitOfBytes, bitOfBytes, show (8 * j + b) / 8 = j by omega, show (8 * j + b) % 8 = b by omega]
    at hbit
  simpa [hj, hj'] using hbit

/-- The bytes read where bytes were packed are the bytes packed. -/
theorem unpackBytes_packBytes (m : Memory) (off : Nat) (bs : List Byte) :
    unpackBytes (packBytes m off bs) off bs.length = bs := by
  refine eq_of_bitOfBytes_eq (unpackBytes_length ..) fun i hi => ?_
  rw [unpackBytes_length] at hi
  rw [bitOfBytes_unpackBytes, packBytes_bit, if_pos (by omega), Nat.add_sub_cancel_left,
    decide_eq_true hi, Bool.true_and]

/-- The bytes of the number a byte sequence stands for are the sequence. -/
theorem leBytes_leValue (bs : List Byte) : leBytes (leValue bs) bs.length = bs := by
  refine eq_of_bitOfBytes_eq (leBytes_length ..) fun i hi => ?_
  rw [leBytes_length] at hi
  rw [bitOfBytes_leBytes, testBit_leValue, decide_eq_true hi, Bool.true_and]

/-- The number that the low bytes of a number stand for is the number modulo its width. -/
theorem leValue_leBytes (v n : Nat) : leValue (leBytes v n) = v % 2 ^ (8 * n) :=
  Nat.eq_of_testBit_eq fun i => by rw [testBit_leValue, bitOfBytes_leBytes, Nat.testBit_mod_two_pow]

theorem leValue_lt (bs : List Byte) : leValue bs < 2 ^ (8 * bs.length) := by
  rw [← leBytes_leValue bs, leValue_leBytes, leBytes_length]
  exact Nat.mod_lt _ (Nat.two_pow_pos _)

end Sys2Proof.Machine
end

section
/-! The bytes of a float pattern in the order `FBE` selects (R161), and the float codec as the pack and
the read of those bytes. -/

namespace Sys2Proof.Machine

/-- The bytes of a pattern, given least significant first, in a byte order (R161). The two orders are
each other's inverse, so the same function takes bytes in that order back. -/
def orderBytes (bigEndian : Bool) (bs : List Byte) : List Byte := if bigEndian then bs.reverse else bs

@[simp] theorem orderBytes_length (big : Bool) (bs : List Byte) :
    (orderBytes big bs).length = bs.length := by
  cases big <;> simp [orderBytes]

@[simp] theorem orderBytes_orderBytes (big : Bool) (bs : List Byte) :
    orderBytes big (orderBytes big bs) = bs := by
  cases big <;> simp [orderBytes]

/-- One order after the other reverses the bytes. -/
theorem orderBytes_not_orderBytes (big : Bool) (bs : List Byte) :
    orderBytes (!big) (orderBytes big bs) = bs.reverse := by
  cases big <;> rfl

/-- Byte `j` of a pattern in a byte order (R161). -/
theorem getElem?_orderBytes_leBytes (big : Bool) (p : Nat) {n j : Nat} (hj : j < n) :
    (orderBytes big (leBytes p n))[j]? = some (BitVec.ofNat 8 (p >>> (8 * floatByteIndex big n j))) := by
  have hbyte : ∀ k < n, (leBytes p n)[k]? = some (BitVec.ofNat 8 (p >>> (8 * k))) := fun k hk => by
    simp [leBytes, hk]
  cases big
  case false => exact hbyte j hj
  case true =>
    rw [orderBytes, if_pos rfl, List.getElem?_reverse (by simpa using hj), leBytes_length]
    exact hbyte (n - 1 - j) (by omega)

/-- Bit `i` of a pattern's bytes in a byte order (R161, R162). -/
theorem bitOfBytes_orderBytes_leBytes (big : Bool) (p : Nat) {n i : Nat} (hi : i < 8 * n) :
    bitOfBytes (orderBytes big (leBytes p n)) i = floatBit big n p i := by
  rw [bitOfBytes, List.getD_eq_getElem?_getD, getElem?_orderBytes_leBytes big p (by omega),
    Option.getD_some, BitVec.getLsbD_ofNat, Nat.testBit_shiftRight,
    decide_eq_true (Nat.mod_lt i (by decide)), Bool.true_and, floatBit]

theorem packF_eq_packBytes_orderBytes (buf : Memory) (off p n : Nat) (big : Bool) (scr : List Byte) :
    packF buf off p n big scr = packBytes buf off (orderBytes big (leBytes p n)) :=
  packF_eq_packBytes ..

theorem unpackF_eq_leValue_orderBytes (buf : Memory) (off n : Nat) (big : Bool) (scr : List Byte) :
    unpackF buf off n big scr = leValue (orderBytes big (unpackBytes buf off n)) := by
  rw [unpackF, scratchValue, take_collect, orderBytes]

/-- R161. The closed form of `PackF`, as a span of the pattern's bits in the order of `FBE`. -/
theorem packF_spanHolds (m : Memory) (off p n : Nat) (big : Bool) (scr : List Byte) :
    SpanHolds m (packF m off p n big scr) off (8 * n) (floatBit big n p) := by
  refine spanHolds_iff_bit.2 fun o => ?_
  rw [packF_eq_packBytes_orderBytes, packBytes_bit, orderBytes_length, leBytes_length]
  split
  · next ho => exact bitOfBytes_orderBytes_leBytes big p (by omega)
  · rfl

theorem unpackF_lt (m : Memory) (off n : Nat) (big : Bool) (scr : List Byte) :
    unpackF m off n big scr < 2 ^ (8 * n) := by
  rw [unpackF_eq_leValue_orderBytes]
  simpa using leValue_lt (orderBytes big (unpackBytes m off n))

/-- The pattern read has, in the order of `FBE`, the bytes read. -/
theorem orderBytes_leBytes_unpackF (m : Memory) (off n : Nat) (big : Bool) (scr : List Byte) :
    orderBytes big (leBytes (unpackF m off n big scr) n) = unpackBytes m off n := by
  have hbytes := leBytes_leValue (orderBytes big (unpackBytes m off n))
  rw [orderBytes_length, unpackBytes_length] at hbytes
  rw [unpackF_eq_leValue_orderBytes, hbytes, orderBytes_orderBytes]

/-- R161. The closed form of `UnpackF`: the span holds the pattern's bits in the order of `FBE`. -/
theorem floatBit_unpackF (m : Memory) (off : Nat) {n i : Nat} (big : Bool) (scr : List Byte)
    (hi : i < 8 * n) : floatBit big n (unpackF m off n big scr) i = m.bit (off + i) := by
  rw [← bitOfBytes_orderBytes_leBytes big _ hi, orderBytes_leBytes_unpackF, bitOfBytes_unpackBytes,
    decide_eq_true hi, Bool.true_and]

end Sys2Proof.Machine
end

section
/-! The float codec against the integer codecs (R162), and under two byte orders (R163, R175). -/

namespace Sys2Proof.Machine

/-- The bytes of a number packed one after another are the number packed at once (R114, R162). -/
theorem packBytes_leBytes {m : Memory} {len off n : Nat} (p : Nat) {w : Width} (hw : w.val = 8 * n)
    (h : m.wf len) (hlen : off + w.val ≤ 8 * len) :
    packBytes m off (leBytes p n) = packBits m off p w := by
  have hbytes : off + 8 * (leBytes p n).length ≤ 8 * len := by rwa [leBytes_length, ← hw]
  refine Memory.ext_of_bits (packBytes_wf _ h (.inl hbytes)) (packBits_wf p w h hlen) (by simp)
    (fun a => ?_) fun o => ?_
  · have hpos : 0 < n := by have := w.property.1; omega
    rw [packBytes_lists, packBits_lists, ← List.length_pos_iff_ne_nil, leBytes_length, hw]
    exact or_congr_left (and_iff_right hpos)
  · rw [packBytes_bit, packBits_bit, leBytes_length, hw]
    split
    · next ho => rw [bitOfBytes_leBytes, decide_eq_true (by omega), Bool.true_and]
    · rfl

/-- The number of the bytes read one after another is the number read at once (R114, R162). -/
theorem leValue_unpackBytes (m : Memory) (off : Nat) {n : Nat} {w : Width} (hw : w.val = 8 * n) :
    leValue (unpackBytes m off n) = unpackBits m off w :=
  Nat.eq_of_testBit_eq fun i => by
    rw [testBit_leValue, bitOfBytes_unpackBytes, testBit_unpackBits, hw]

/-- R162. `PackF` with `FBE` = 1 is `PackF` with `FBE` = 0 of the pattern with its bytes reversed. -/
theorem packF_bigEndian (m : Memory) (off p n : Nat) (scr : List Byte) :
    packF m off p n true scr = packF m off (leValue (leBytes p n).reverse) n false scr := by
  have hbytes : leBytes (leValue (leBytes p n).reverse) n = (leBytes p n).reverse := by
    simpa using leBytes_leValue (leBytes p n).reverse
  rw [packF_eq_packBytes_orderBytes, packF_eq_packBytes_orderBytes, hbytes]
  rfl

/-- What is read under one byte order where a pattern was packed under another. -/
theorem unpackF_packF (m : Memory) (off p n : Nat) (order order' : Bool) (scr scr' : List Byte) :
    unpackF (packF m off p n order scr) off n order' scr' =
      leValue (orderBytes order' (orderBytes order (leBytes p n))) := by
  have hread := unpackBytes_packBytes m off (orderBytes order (leBytes p n))
  rw [orderBytes_length, leBytes_length] at hread
  rw [unpackF_eq_leValue_orderBytes, packF_eq_packBytes_orderBytes, hread]

/-- Settles O19: both codecs pack the same bits into the same bytes and read the same bits. -/
theorem floatCodecClosedForm : Obligations.FloatCodecClosedForm := by
  intro m len off p scr h
  refine ⟨fun hlen => ?_, fun hlen => ?_, ?_, ?_, ?_, ?_, fun n => packF_bigEndian m off p n scr⟩
  · exact (packF_eq_packBytes_orderBytes ..).trans (packBytes_leBytes p (by decide) h hlen)
  · exact (packF_eq_packBytes_orderBytes ..).trans (packBytes_leBytes p (by decide) h hlen)
  · exact packF_eq_packBytes_orderBytes ..
  · exact (unpackF_eq_leValue_orderBytes ..).trans (leValue_unpackBytes m off (by decide))
  · exact (unpackF_eq_leValue_orderBytes ..).trans (leValue_unpackBytes m off (by decide))
  · exact unpackF_eq_leValue_orderBytes ..

/-- Settles O20: the same order twice gives the pattern's bytes back, and the two orders reverse them. -/
theorem floatByteOrderMismatch : Obligations.FloatByteOrderMismatch := by
  intro m off p scr scr' order n _
  constructor
  · rw [unpackF_packF, orderBytes_orderBytes, leValue_leBytes]
  · rw [unpackF_packF, orderBytes_not_orderBytes]

end Sys2Proof.Machine
end

section
/-! The float writes and reads (R166, R167, R169, R170, R172, R173). -/

namespace Sys2Proof.Machine

/-- `CFG.FBE` is the one bit of `CFG` (R29). -/
theorem State.fbe_eq (s : State) : s.fbe = decide (s.cfg = 1) := by
  have hbit : ∀ c : BitVec 1, c.getLsbD 0 = decide (c = 1) := by decide
  exact hbit s.cfg

theorem deposit_eq_append (scr : List Byte) (p n : Nat) (big : Bool) :
    deposit scr p n big = orderBytes big (leBytes p n) ++ scr.drop n := rfl

/-- The bytes that a deposit leaves in `SCR` (R161). -/
theorem getElem?_deposit (scr : List Byte) (p : Nat) (big : Bool) {n j : Nat} (hj : j < n) :
    (deposit scr p n big)[j]? = some (BitVec.ofNat 8 (p >>> (8 * floatByteIndex big n j))) := by
  rw [deposit_eq_append, List.getElem?_append_left (by simpa using hj),
    getElem?_orderBytes_leBytes big p hj]

/-- A deposit keeps the scratch bytes beyond the pattern's (R161). -/
theorem drop_deposit (scr : List Byte) (p n : Nat) (big : Bool) :
    (deposit scr p n big).drop n = scr.drop n := by
  rw [deposit_eq_append]
  exact List.drop_left' (by simp)

/-- A read keeps the scratch bytes beyond the pattern's (R161). -/
theorem drop_collect (scr : List Byte) (buf : Memory) (off n : Nat) :
    (collect scr buf off n).drop n = scr.drop n :=
  List.drop_left' (unpackBytes_length ..)

theorem unpackBytes_bytesHeldAt (m : Memory) (off n : Nat) :
    BytesHeldAt m off n (unpackBytes m off n) := by
  refine ⟨unpackBytes_length .., fun j hj b hb => ?_⟩
  have hbit := bitOfBytes_unpackBytes m off n (8 * j + b)
  rwa [bitOfBytes, show (8 * j + b) / 8 = j by omega, show (8 * j + b) % 8 = b by omega,
    decide_eq_true (by omega), Bool.true_and, ← Nat.add_assoc] at hbit

section
variable {cmd : Word} {i : Instr} {n : Nat}

/-- The rule of a float write, from its effect. -/
theorem writesFloat_of_effect (hcmd : encode i = cmd) (hn : 0 < 8 * n)
    (he : ∀ s, effectOf i s = s.writeFloatEffect n) : WritesFloat cmd i n := by
  refine ⟨decode_eq_ok_iff.2 hcmd, fun s => ?_⟩
  intro big
  obtain ⟨hbounds, hcap, hdone⟩ := exec_of_spanFault (i := i) (s := s) hn (by rw [he]; rfl)
  refine ⟨hbounds, hcap, fun hfits hroom => ⟨packF s.buf s.cur s.op.val n big s.scr,
    deposit s.scr s.op.val n big, ?_, packF_spanHolds .., drop_deposit ..,
    fun _ hj => getElem?_deposit s.scr s.op.val big hj⟩⟩
  rw [hdone hfits hroom, he, State.writeFloatEffect, State.fbe_eq]
  rfl

/-- The rule of a float read, from its effect. -/
theorem readsFloat_of_effect (hcmd : encode i = cmd) (hn : 0 < 8 * n)
    (he : ∀ s, effectOf i s = s.readFloatEffect n) : ReadsFloat cmd i n := by
  refine ⟨decode_eq_ok_iff.2 hcmd, fun s => ?_⟩
  intro big
  obtain ⟨hbounds, hcap, hdone⟩ := exec_of_spanFault (i := i) (s := s) hn (by rw [he]; rfl)
  refine ⟨hbounds, hcap, fun hfits hroom => ⟨unpackF s.buf s.cur n big s.scr,
    collect s.scr s.buf s.cur n, ?_, unpackF_lt ..,
    fun _ hb => (floatBit_unpackF s.buf s.cur big s.scr hb).symm, drop_collect .., ?_⟩⟩
  · rw [hdone hfits hroom, he, State.readFloatEffect, State.fbe_eq]
    rfl
  · rw [take_collect]
    exact unpackBytes_bytesHeldAt s.buf s.cur n

end

/-- Settles O25: each rule from the effect of its command. -/
theorem writeFloatRules : Obligations.WriteFloatRules :=
  ⟨writesFloat_of_effect rfl (by decide) fun _ => rfl,
    writesFloat_of_effect rfl (by decide) fun _ => rfl,
    writesFloat_of_effect rfl (by decide) fun _ => rfl⟩

/-- Settles O31: each rule from the effect of its command. -/
theorem readFloatRules : Obligations.ReadFloatRules :=
  ⟨readsFloat_of_effect rfl (by decide) fun _ => rfl,
    readsFloat_of_effect rfl (by decide) fun _ => rfl,
    readsFloat_of_effect rfl (by decide) fun _ => rfl⟩

end Sys2Proof.Machine
end

section
/-! The number a binary16 pattern denotes (R164). -/

namespace Sys2Proof.Machine

section
variable {s e f : Nat} (hs : s < 2) (he : e < 32) (hf : f < 1024)
include hs he hf

/-- The value of a binary16 pattern as a function of its fields: the bias of the exponent is 15. -/
theorem f16Value_of_fields :
    f16Value (32768 * s + 1024 * e + f) =
      if e = 0 then .finite (decide (s = 1)) ((f : Rat) * (2 : Rat) ^ (-24 : Int))
      else if e = 31 then if f = 0 then .infinity (decide (s = 1)) else .nan
      else .finite (decide (s = 1)) ((1 + (f : Rat) / 1024) * (2 : Rat) ^ ((e : Int) - 15)) := by
  have hsign : (32768 * s + 1024 * e + f).testBit 15 = decide (s = 1) := by
    rw [Nat.testBit_eq_decide_div_mod_eq, decide_eq_decide]
    omega
  have hexp : (32768 * s + 1024 * e + f) / 2 ^ 10 % 2 ^ 5 = e := by omega
  have hman : (32768 * s + 1024 * e + f) % 2 ^ 10 = f := by omega
  rw [f16Value, floatValue, show 5 + 10 = 15 from rfl, hsign, hexp, hman]
  rfl

end

/-- Settles O21: the cases of the exponent field. -/
theorem binary16Value : Obligations.Binary16Value := by
  intro s e f hs he hf p negative
  have hvalue := f16Value_of_fields hs he hf
  refine ⟨fun h0 => ?_, fun h31 hf0 => ?_, fun h31 hf0 => ?_, fun hpos hlt => ?_, fun hge hlt => ?_⟩
  · have hpow : (2 : Rat) ^ (-24 : Int) = 1 / 16777216 := by norm_num
    rw [hvalue, if_pos h0, hpow]
  · rw [hvalue, if_neg (by omega), if_pos h31, if_pos hf0]
  · rw [hvalue, if_neg (by omega), if_pos h31, if_neg hf0]
  · have hexp : (e : Int) - 15 = -((15 - e : Nat) : Int) := by omega
    rw [hvalue, if_neg (by omega), if_neg (by omega), hexp, zpow_neg, zpow_natCast,
      ← div_eq_mul_inv]
  · have hexp : (e : Int) - 15 = ((e - 15 : Nat) : Int) := by omega
    rw [hvalue, if_neg (by omega), if_neg (by omega), hexp, zpow_natCast]

end Sys2Proof.Machine
end

section
/-! The operand checks of the string commands (R75, R187, R243), each from the condition it stands for. -/

namespace Sys2Proof.Machine

/-- The operands that `WR.STR` accepts, whatever their length: none for the null string, and as many
payload bytes as `LEN` says (R75, R188). -/
def State.StringLegal (s : State) (nul : Bool) : Prop :=
  (nul = true → s.lenBytes = 0 ∧ s.op.pin = []) ∧ s.op.pin.length = s.lenBytes

/-- The three checks of `WR.STR` that raise `IllegalCommand`, in order (R188). -/
def State.stringOperandFault (s : State) (nul : Bool) : Option FaultKind :=
  (s.nullLenFault nul).or ((s.nullPinFault nul).or s.payloadFault)

section
variable {s : State} {nul : Bool}

theorem State.nullLenFault_eq_none (h : nul = true → s.lenBytes = 0) : s.nullLenFault nul = none :=
  if_neg fun ⟨hnul, hlen⟩ => hlen (h hnul)

theorem State.nullLenFault_eq_some (hnul : nul = true) (hlen : s.lenBytes ≠ 0) :
    s.nullLenFault nul = some .illegalCommand :=
  if_pos ⟨hnul, hlen⟩

theorem State.nullPinFault_eq_none (h : nul = true → s.op.pin = []) : s.nullPinFault nul = none :=
  if_neg fun ⟨hnul, hpin⟩ => hpin (List.length_eq_zero_iff.2 (h hnul))

theorem State.stringFault_eq_some (h : 65535 < s.lenBytes) : s.stringFault = some .lengthExceeded :=
  if_pos h

theorem State.stringFault_eq_none (h : s.lenBytes ≤ 65535) : s.stringFault = none :=
  if_neg (Nat.not_lt.2 h)

theorem State.stringOperandFault_eq_none (h : s.StringLegal nul) : s.stringOperandFault nul = none := by
  obtain ⟨hnull, hpayload⟩ := h
  rw [State.stringOperandFault, State.nullLenFault_eq_none fun hnul => (hnull hnul).1,
    State.nullPinFault_eq_none fun hnul => (hnull hnul).2,
    State.payloadFault_eq_none_iff.2 hpayload, Option.none_or, Option.none_or]

theorem State.stringOperandFault_eq_some (h : ¬s.StringLegal nul) :
    s.stringOperandFault nul = some .illegalCommand := by
  unfold State.stringOperandFault State.nullLenFault State.nullPinFault State.payloadFault
  split
  · rfl
  · next hlen =>
    split
    · rfl
    · next hpin =>
      split
      · next hpayload =>
        refine absurd ⟨fun hnul => ⟨?_, ?_⟩, hpayload⟩ h
        · exact not_not.1 fun hne => hlen ⟨hnul, hne⟩
        · exact List.length_eq_zero_iff.1 (not_not.1 fun hne => hpin ⟨hnul, hne⟩)
      · rfl

/-- Operands whose checks found nothing are legal. -/
theorem State.stringLegal_of_stringOperandFault_eq_none (h : s.stringOperandFault nul = none) :
    s.StringLegal nul := by
  by_contra hlegal
  rw [State.stringOperandFault_eq_some hlegal] at h
  cases h

end

end Sys2Proof.Machine
end

section
/-! The string codec in closed form (R185): the length field and the payload as one span. -/

namespace Sys2Proof.Machine

/-- Two spans written one after the other are one span. -/
theorem SpanHolds.append {m m₁ m₂ : Memory} {off k₁ k₂ : Nat} {bits₁ bits₂ : Nat → Bool}
    (h₁ : SpanHolds m m₁ off k₁ bits₁) (h₂ : SpanHolds m₁ m₂ (off + k₁) k₂ bits₂) :
    SpanHolds m m₂ off (k₁ + k₂) fun i => if i < k₁ then bits₁ i else bits₂ (i - k₁) := by
  refine spanHolds_iff_bit.2 fun o => ?_
  rw [spanHolds_iff_bit.1 h₂, spanHolds_iff_bit.1 h₁]
  rcases Nat.lt_or_ge o (off + k₁) with hfirst | hsecond
  · rw [if_neg (by omega)]
    by_cases ho : off ≤ o
    · rw [if_pos ⟨ho, hfirst⟩, if_pos (by omega), if_pos (by omega)]
    · rw [if_neg (by omega), if_neg (by omega)]
  · by_cases ho : o < off + k₁ + k₂
    · rw [if_pos ⟨hsecond, ho⟩, if_pos (by omega), if_neg (by omega), Nat.sub_sub]
    · rw [if_neg (by omega), if_neg (by omega), if_neg (by omega)]

theorem packBytes_spanHolds (m : Memory) (off : Nat) (bs : List Byte) :
    SpanHolds m (packBytes m off bs) off (8 * bs.length) (bitOfBytes bs) :=
  spanHolds_iff_bit.2 (packBytes_bit m off bs)

/-- R185. The closed form of a packed string: 16 bits of the length, then the payload. -/
theorem packString_spanHolds (m : Memory) (off len : Nat) (bs : List Byte) :
    SpanHolds m (packString m off len bs) off (stringBits bs.length)
      fun i => if i < 16 then len.testBit i else bitOfBytes bs (i - 16) :=
  (packBits_spanHolds m off len Width.w16).append (packBytes_spanHolds _ _ bs)

theorem stringBits_pos (len : Nat) : 0 < stringBits len := by
  unfold stringBits
  omega

end Sys2Proof.Machine
end

section
/-! The string commands (R188 to R190). -/

namespace Sys2Proof.Machine

/-- The checks of `WR.STR`, with those that raise `IllegalCommand` taken together. -/
theorem effectOf_wrStr_fault (nul : Bool) (s : State) :
    (effectOf (.wrStr nul) s).fault =
      (s.stringOperandFault nul).or (s.stringFault.or (s.spanFault (stringBits s.lenBytes))) := by
  rw [State.stringOperandFault, Option.or_assoc, Option.or_assoc]
  rfl

/-- Settles O26: the checks in their order, then the closed form of the packed string. -/
theorem writeStringRule : Obligations.WriteStringRule := by
  refine ⟨fun nul => decode_eq_ok_iff.2 (by cases nul <;> rfl), fun nul s => ?_⟩
  intro len k legal
  have hf := effectOf_wrStr_fault nul s
  refine ⟨fun hlegal => ?_, fun hlegal hlong => ?_, fun hlegal hshort => ?_, fun hlegal hshort => ?_,
    fun hlegal hshort => ?_⟩
  · rw [State.stringOperandFault_eq_some hlegal, Option.some_or] at hf
    exact exec_of_fault_eq_some hf
  · rw [State.stringOperandFault_eq_none hlegal, State.stringFault_eq_some hlong, Option.none_or,
      Option.some_or] at hf
    exact exec_of_fault_eq_some hf
  all_goals
    rw [State.stringOperandFault_eq_none hlegal, State.stringFault_eq_none hshort, Option.none_or,
      Option.none_or] at hf
    obtain ⟨hbounds, hcap, hdone⟩ := exec_of_spanFault (stringBits_pos _) hf
  · exact hbounds
  · exact hcap
  · intro hfits hroom
    refine ⟨packString s.buf s.cur s.lenBytes s.op.pin, hdone hfits hroom, ?_⟩
    have hspan := packString_spanHolds s.buf s.cur s.lenBytes s.op.pin
    rwa [hlegal.2] at hspan

/-- Settles O32: the check of the length field, then the checks and the response of the string it declares. -/
theorem readStringRule : Obligations.ReadStringRule := by
  refine ⟨rfl, fun s => ?_⟩
  have hf : (effectOf .rdStr s).fault =
      (s.boundsFault 16).or (s.spanFault (stringBits (unpackBits s.buf s.cur Width.w16))) := rfl
  refine ⟨fun hfits => ?_, fun hfits => ⟨_, unpackBits_heldAt s.buf s.cur Width.w16, ?_⟩⟩
  · rw [State.boundsFault_eq_some (by decide) hfits, Option.some_or] at hf
    exact exec_of_fault_eq_some hf
  · rw [State.boundsFault_eq_none hfits, Option.none_or] at hf
    obtain ⟨hbounds, hcap, hdone⟩ := exec_of_spanFault (stringBits_pos _) hf
    exact ⟨hbounds, hcap, fun hfits hroom =>
      ⟨_, unpackBytes_bytesHeldAt s.buf (s.cur + 16) _, hdone hfits hroom⟩⟩

/-- Settles O37: the checks in their order. -/
theorem measureStringRule : Obligations.MeasureStringRule := by
  refine ⟨fun nul => decode_eq_ok_iff.2 (by cases nul <;> rfl), fun nul s => ?_⟩
  intro len k
  have hf : (effectOf (.msStr nul) s).fault =
      (s.nullLenFault nul).or (s.stringFault.or (s.cursorFault k)) := rfl
  refine ⟨fun hnul hlen => ?_, fun hlegal hlong => ?_, fun hlegal hshort hroom => ?_,
    fun hlegal hshort hroom => ?_⟩
  · rw [State.nullLenFault_eq_some hnul hlen, Option.some_or] at hf
    exact exec_of_fault_eq_some hf
  · rw [State.nullLenFault_eq_none hlegal, State.stringFault_eq_some hlong, Option.none_or,
      Option.some_or] at hf
    exact exec_of_fault_eq_some hf
  · rw [State.nullLenFault_eq_none hlegal, State.stringFault_eq_none hshort, Option.none_or,
      Option.none_or, State.cursorFault_eq_some hroom] at hf
    exact exec_of_fault_eq_some hf
  · rw [State.nullLenFault_eq_none hlegal, State.stringFault_eq_none hshort, Option.none_or,
      Option.none_or, State.cursorFault_eq_none hroom] at hf
    exact exec_of_fault_eq_none hf

end Sys2Proof.Machine
end

section
/-! Sequences of writes (R193, R206): a write that has room goes on with the next one, and the `WR.U8`
of a payload's bytes pack the payload. -/

namespace Sys2Proof.Machine

/-- A command that answers no fault found none and has committed. -/
theorem done_of_faultCode_eq_zero {i : Instr} {s t : State} (h : exec i s = .next t)
    (hf : faultCode (.next t) = some 0) :
    (effectOf i s).fault = none ∧ t = (effectOf i s).done s := by
  rcases exec_cases h with ⟨f, -, rfl⟩ | hdone
  · exact absurd (Option.some.inj hf) f.code_ne_zero
  · exact hdone

/-- A span whose two checks found nothing is empty or in the buffer, and the cursor has room for it. -/
theorem State.room_of_spanFault_eq_none {s : State} {k : Nat} (h : s.spanFault k = none) :
    (k = 0 ∨ s.SpanFits k) ∧ s.CursorRoom k :=
  (State.spanFault_eq_none_iff.1 h).imp State.fits_of_boundsFault_eq_none
    State.cursorRoom_of_cursorFault_eq_none

theorem State.SpanFits.mono {s : State} {j k : Nat} (h : s.SpanFits k) (hjk : j ≤ k) : s.SpanFits j :=
  (Nat.add_le_add_left hjk _).trans h

theorem State.CursorRoom.mono {s : State} {j k : Nat} (h : s.CursorRoom k) (hjk : j ≤ k) :
    s.CursorRoom j :=
  fun n hn => (Nat.add_le_add_left hjk _).trans_lt (h n hn)

/-- The state in which a write of `k` bits with the operands `c` ends, when it leaves the buffer `m`. -/
def State.written (s : State) (c : Command) (k : Nat) (m : Memory) : State :=
  ({ s with op := c, buf := m } : State).commit (Response.done k)

section
variable (s : State) (c : Command) (k : Nat) (m : Memory)

@[simp] theorem State.written_buf : (s.written c k m).buf = m := rfl
@[simp] theorem State.written_cur : (s.written c k m).cur = s.cur + k := rfl

/-- What fits after a write is what fits together with it before. -/
theorem State.written_spanFits (j : Nat) : (s.written c k m).SpanFits j ↔ s.SpanFits (k + j) := by
  rw [State.SpanFits, State.SpanFits, ← Nat.add_assoc]
  rfl

/-- What the cursor has room for after a write is what it has room for together with it before. -/
theorem State.written_cursorRoom (j : Nat) :
    (s.written c k m).CursorRoom j ↔ s.CursorRoom (k + j) := by
  rw [State.CursorRoom, State.CursorRoom, ← Nat.add_assoc]
  rfl

end

/-- A write that has room commits, and the commands after it go on from there. -/
theorem performAll_cons_of_write {s : State} {c : Command} {k : Nat} {m : Memory} {i : Instr}
    {rest : List (Instr × Command)} (hk : 0 < k)
    (he : effectOf i { s with op := c } = ({ s with op := c } : State).writeEffect k m)
    (hfits : s.SpanFits k) (hroom : s.CursorRoom k) :
    performAll ((i, c) :: rest) s = performAll rest (s.written c k m) := by
  have hexec : exec i { s with op := c } = .next (s.written c k m) := by
    obtain ⟨-, -, hdone⟩ := exec_of_spanFault (i := i) (s := { s with op := c }) hk (by rw [he]; rfl)
    rw [hdone hfits hroom, he]
    rfl
  rw [performAll, hexec]
  rfl

/-- The `WR.U8` commands of a payload that has room commit, and pack it. -/
theorem performAll_wrU8 {bs : List Byte} {s : State} (hfits : bs = [] ∨ s.SpanFits (8 * bs.length))
    (hroom : s.CursorRoom (8 * bs.length)) :
    ∃ u, performAll (bs.map fun b => (.wrU8, commandOf .wrU8 b.toNat 0 [])) s = some u ∧
      u.buf = packBytes s.buf s.cur bs ∧ u.cur = s.cur + 8 * bs.length := by
  induction bs generalizing s with
  | nil => exact ⟨s, rfl, rfl, rfl⟩
  | cons b bs ih =>
    have hlen : 8 * (b :: bs).length = 8 + 8 * bs.length := by rw [List.length_cons]; omega
    have hfits : s.SpanFits (8 + 8 * bs.length) := hlen ▸ hfits.resolve_left (List.cons_ne_nil b bs)
    rw [hlen] at hroom
    obtain ⟨u, hperform, hbuf, hcur⟩ := ih
      (s := s.written (commandOf .wrU8 b.toNat 0 []) 8 (packBits s.buf s.cur b.toNat Width.w8))
      (.inr ((s.written_spanFits ..).2 hfits)) ((s.written_cursorRoom ..).2 hroom)
    refine ⟨u, ?_, hbuf, by rw [hcur, hlen, State.written_cur, Nat.add_assoc]⟩
    rw [List.map_cons, performAll_cons_of_write (by decide) rfl (hfits.mono (Nat.le_add_right ..))
      (hroom.mono (Nat.le_add_right ..)), ← hperform]
    rfl

/-- Settles O54: both writes pack what the sequence of commands packs, and the sequence has room where
the whole write has. -/
theorem payloadWritesAreSequences : Obligations.PayloadWritesAreSequences := by
  refine ⟨fun s t ht hcommit => ?_, fun nul s t ht hcommit => ?_⟩
  · obtain ⟨hf, rfl⟩ := done_of_faultCode_eq_zero ht hcommit
    obtain ⟨hpayload, hspan⟩ := Option.or_eq_none_iff.1 hf
    have hlen := State.payloadFault_eq_none_iff.1 hpayload
    rw [← hlen] at hspan
    obtain ⟨hfits, hroom⟩ := State.room_of_spanFault_eq_none hspan
    obtain ⟨u, hperform, hbuf, hcur⟩ := performAll_wrU8
      (hfits.imp_left fun h => List.length_eq_zero_iff.1 (by omega)) hroom
    exact ⟨u, hperform, hbuf, by rw [hcur, hlen]; rfl⟩
  · obtain ⟨hf, rfl⟩ := done_of_faultCode_eq_zero ht hcommit
    rw [effectOf_wrStr_fault] at hf
    obtain ⟨hoperands, hf⟩ := Option.or_eq_none_iff.1 hf
    obtain ⟨-, hspan⟩ := Option.or_eq_none_iff.1 hf
    obtain ⟨-, hlen⟩ := State.stringLegal_of_stringOperandFault_eq_none hoperands
    rw [← hlen] at hspan
    obtain ⟨hfits, hroom⟩ := State.room_of_spanFault_eq_none hspan
    have hfits : s.SpanFits (16 + 8 * s.op.pin.length) := hfits.resolve_left (stringBits_pos _).ne'
    obtain ⟨u, hperform, hbuf, hcur⟩ := performAll_wrU8
      (s := s.written (commandOf .wrU16 s.lenBytes 0 []) 16 (packBits s.buf s.cur s.lenBytes Width.w16))
      (.inr ((s.written_spanFits ..).2 hfits)) ((s.written_cursorRoom ..).2 hroom)
    refine ⟨u, ?_, hbuf, ?_⟩
    · rw [performAll_cons_of_write (by decide) rfl (hfits.mono (Nat.le_add_right ..))
        (hroom.mono (Nat.le_add_right ..)), ← hperform]
      rfl
    · rw [hcur, State.written_cur, Nat.add_assoc, hlen]
      rfl

end Sys2Proof.Machine
end

section
/-! The byte-array write and read (R201, R202): both check a span of whole bytes, which may be empty. -/

namespace Sys2Proof.Machine

/-- A payload whose length is not `LEN` is illegal (R243(c)). -/
theorem State.payloadFault_eq_some {s : State} (h : s.op.pin.length ≠ s.lenBytes) :
    s.payloadFault = some .illegalCommand :=
  if_neg h

/-- A span of no byte is never out of bounds (R109): when there is none, or it fits, only the cursor's
room is left to check. -/
theorem State.spanFault_of_empty_or_fits {s : State} {len : Nat}
    (h : len = 0 ∨ s.SpanFits (8 * len)) : s.spanFault (8 * len) = s.cursorFault (8 * len) := by
  rcases h with rfl | hfits
  · have hbounds : s.boundsFault 0 = none := if_neg fun hspan => Nat.lt_irrefl 0 hspan.1
    rw [State.spanFault, hbounds, Option.none_or]
  · exact State.spanFault_of_fits hfits

/-- The outcomes of a command whose checks are those of a span of `len` bytes: as for a span of bits, but
no bounds are checked when there is no byte. -/
theorem exec_of_byteSpanFault {i : Instr} {s : State} {len : Nat}
    (hf : (effectOf i s).fault = s.spanFault (8 * len)) :
    (0 < len → ¬s.SpanFits (8 * len) → exec i s = .next s.afterOutOfBounds) ∧
    ((len = 0 ∨ s.SpanFits (8 * len)) → ¬s.CursorRoom (8 * len) →
      exec i s = .next s.afterCapacityExceeded) ∧
    ((len = 0 ∨ s.SpanFits (8 * len)) → s.CursorRoom (8 * len) →
      exec i s = .next ((effectOf i s).done s)) := by
  refine ⟨fun hlen hfits => ?_, fun hspan hroom => ?_, fun hspan hroom => ?_⟩
  · exact exec_of_fault_eq_some
      (hf.trans (State.spanFault_of_not_fits (Nat.mul_pos (by decide) hlen) hfits))
  · rw [State.spanFault_of_empty_or_fits hspan, State.cursorFault_eq_some hroom] at hf
    exact exec_of_fault_eq_some hf
  · rw [State.spanFault_of_empty_or_fits hspan, State.cursorFault_eq_none hroom] at hf
    exact exec_of_fault_eq_none hf

/-- Settles O27: the payload check, then the outcomes of the span and the closed form of the packed bytes. -/
theorem writeBytesRule : Obligations.WriteBytesRule := by
  refine ⟨rfl, fun s => ?_⟩
  intro len k
  have hf : (effectOf .wrBytes s).fault = s.payloadFault.or (s.spanFault (8 * len)) := rfl
  by_cases hpin : s.op.pin.length = len
  · rw [State.payloadFault_eq_none_iff.2 hpin, Option.none_or] at hf
    obtain ⟨hbounds, hcap, hdone⟩ := exec_of_byteSpanFault hf
    refine ⟨fun hne => absurd hpin hne, fun _ => hbounds, fun _ => hcap, fun _ hspan hroom =>
      ⟨packBytes s.buf s.cur s.op.pin, hdone hspan hroom, ?_⟩⟩
    have hbytes := packBytes_spanHolds s.buf s.cur s.op.pin
    rwa [hpin] at hbytes
  · rw [State.payloadFault_eq_some hpin, Option.some_or] at hf
    exact ⟨fun _ => exec_of_fault_eq_some hf, fun h => absurd h hpin, fun h => absurd h hpin,
      fun h => absurd h hpin⟩

/-- Settles O33: the outcomes of the span, and the bytes unpacked from it. -/
theorem readBytesRule : Obligations.ReadBytesRule := by
  refine ⟨rfl, fun s => ?_⟩
  intro len k
  have hf : (effectOf .rdBytes s).fault = s.spanFault (8 * len) := rfl
  obtain ⟨hbounds, hcap, hdone⟩ := exec_of_byteSpanFault hf
  exact ⟨hbounds, hcap, fun hspan hroom =>
    ⟨_, unpackBytes_bytesHeldAt s.buf s.cur len, hdone hspan hroom⟩⟩

end Sys2Proof.Machine
end

section
/-! What every command answers: its response reports no fault when it commits, and the cursor moves by
`ADV` (R212, R222, R246). -/

namespace Sys2Proof.Machine

/-- The response of a commit reports no fault. -/
theorem effectOf_resp_fault (i : Instr) (s : State) : (effectOf i s).resp.fault = 0 := by
  cases i
  case wrUbits | rdUbits | msUbits => exact State.widthEffect_keeps (·.resp.fault) rfl fun _ => rfl
  case rdUvar => rw [effectOf, State.readVarintEffect]; split <;> rfl
  all_goals rfl

/-- Every command but `RESET` moves the cursor by the `ADV` of its response (R222). -/
theorem effectOf_cur {i : Instr} (s : State) (h : i ≠ .reset) :
    (effectOf i s).cur = s.cur + (effectOf i s).resp.adv := by
  cases i
  case reset => exact absurd rfl h
  case wrUbits | rdUbits | msUbits =>
    exact State.widthEffect_of_none_of_some (fun e => e.cur = s.cur + e.resp.adv) rfl fun _ => rfl
  case rdUvar => rw [effectOf, State.readVarintEffect]; split <;> rfl
  all_goals rfl

section
variable {i : Instr} {s : State}

theorem faultCode_exec_of_none (h : (effectOf i s).fault = none) : faultCode (exec i s) = some 0 := by
  rw [exec_of_fault_eq_none h, ← effectOf_resp_fault i s]
  rfl

theorem faultCode_exec_of_some {f : FaultKind} (h : (effectOf i s).fault = some f) :
    faultCode (exec i s) = some f.code := by
  rw [exec_of_fault_eq_some h]
  rfl

theorem faultCode_exec_eq_zero_iff : faultCode (exec i s) = some 0 ↔ (effectOf i s).fault = none := by
  refine ⟨fun h => ?_, faultCode_exec_of_none⟩
  rw [exec_eq_result] at h
  exact (done_of_faultCode_eq_zero (exec_eq_result i s) h).1

theorem advance_exec_of_none (h : (effectOf i s).fault = none) :
    advance (exec i s) = some (effectOf i s).resp.adv := by
  rw [exec_of_fault_eq_none h]
  rfl

theorem advance_exec_of_some {f : FaultKind} (h : (effectOf i s).fault = some f) :
    advance (exec i s) = some 0 := by
  rw [exec_of_fault_eq_some h]
  rfl

end

/-- Settles O46: a fault adds the 0 it answers, `RESET` has no check and sets 0, and the effect of every
other command adds its `ADV`. -/
theorem cursorMovesByAdv : Obligations.CursorMovesByAdv := by
  intro s
  cases hd : decode s.op.cmd with
  | error e =>
    refine ⟨s.raise .illegalCommand, _, by rw [State.perform, hd], rfl, nofun, fun _ => ?_, fun _ => rfl⟩
    exact ⟨rfl, le_rfl⟩
  | ok i =>
    rw [State.perform_of_decode hd]
    by_cases hi : i = .reset
    · subst hi
      exact ⟨_, _, exec_eq_result .reset s, rfl, fun _ => rfl, absurd rfl, absurd rfl⟩
    have hne : (Except.ok i : Except DecodeReject Instr) ≠ .ok .reset := fun h => hi (Except.ok.inj h)
    cases hf : (effectOf i s).fault with
    | some f =>
      exact ⟨_, _, exec_of_fault_eq_some hf, rfl, fun h => absurd h hne, fun _ => ⟨rfl, le_rfl⟩,
        fun _ => rfl⟩
    | none =>
      have hcur := effectOf_cur s hi
      exact ⟨_, _, exec_of_fault_eq_none hf, rfl, fun h => absurd h hne,
        fun _ => ⟨hcur, (Nat.le_add_right ..).trans_eq hcur.symm⟩, absurd (effectOf_resp_fault i s)⟩

end Sys2Proof.Machine
end

section
/-! The control commands (R216 to R218). -/

namespace Sys2Proof.Machine

/-- Settles O38: `RESET` makes no check. -/
theorem resetRule : Obligations.ResetRule := ⟨rfl, fun _ => rfl⟩

/-- Bytes listed from index `n` on are found there in their order. -/
theorem lookupCell_zipIdx (bs : List Byte) (n i : Nat) :
    lookupCell (n + i) ((bs.zipIdx n).map fun p => (p.2, p.1)) = bs[i]? := by
  induction bs generalizing n i with
  | nil => rfl
  | cons b bs ih =>
    cases i with
    | zero => simp [lookupCell]
    | succ i =>
      have hrest := ih (n + 1) i
      rw [Nat.add_right_comm, Nat.add_assoc] at hrest
      simpa [lookupCell] using hrest

/-- The buffer that `ATTACH` supplies reads as its bytes (R217). -/
theorem Memory.read_ofBytes (epoch : Nat) (bs : List Byte) {i : Nat} (hi : i < bs.length) :
    some ((Memory.ofBytes epoch bs).read i) = bs[i]? := by
  have hlookup := lookupCell_zipIdx bs 0 i
  rw [Nat.zero_add, List.getElem?_eq_getElem hi] at hlookup
  rw [Memory.read, Memory.ofBytes, hlookup, List.getElem?_eq_getElem hi]

section
variable {s : State} {len : Nat}

theorem State.bufCapFault_eq_none (h : s.BufferRoom len) : s.bufCapFault len = none := by
  rcases s.bufCapFault_eq len with ⟨-, cap, hcap, hlt⟩ | ⟨hf, -⟩
  · exact absurd (h cap hcap) (Nat.not_le.2 hlt)
  · exact hf

theorem State.bufCapFault_eq_some (h : ¬s.BufferRoom len) :
    s.bufCapFault len = some .capacityExceeded := by
  rcases s.bufCapFault_eq len with ⟨hf, -⟩ | ⟨-, hroom⟩
  · exact hf
  · exact absurd hroom h

end

/-- Settles O39: the two checks in their order, then the bytes of the buffer supplied. -/
theorem attachRule : Obligations.AttachRule := by
  refine ⟨rfl, fun s => ?_⟩
  intro len
  have hf : (effectOf .attach s).fault = s.payloadFault.or (s.bufCapFault len) := rfl
  refine ⟨fun hpin => ?_, fun hpin hroom => ?_, fun hpin hroom =>
    ⟨Memory.ofBytes s.buf.epoch s.op.pin, ?_, fun i hi => Memory.read_ofBytes _ _ (hpin ▸ hi)⟩⟩
  · rw [State.payloadFault_eq_some hpin, Option.some_or] at hf
    exact exec_of_fault_eq_some hf
  · rw [State.payloadFault_eq_none_iff.2 hpin, State.bufCapFault_eq_some hroom, Option.none_or] at hf
    exact exec_of_fault_eq_some hf
  · rw [State.payloadFault_eq_none_iff.2 hpin, State.bufCapFault_eq_none hroom, Option.none_or] at hf
    exact exec_of_fault_eq_none hf

end Sys2Proof.Machine
end

section
/-! Commands that do not look at a part of the state: with it replaced they have the same effect but for
that part. `CFG` is read by the float transfers alone (R218), and a measure reads the operands, the cursor
and the capacities (R215). -/

namespace Sys2Proof.Machine

/-- The effect of a `UBITS` command in another state is a function of its effect in this one when that
is so of the refusal of an illegal width and of the effect of every legal width. -/
theorem State.widthEffect_map {s s' : State} {field : BitVec 6} {effect effect' : Width → Effect}
    (g : Effect → Effect)
    (hnone : s'.advanceEffect (some .illegalCommand) 0 = g (s.advanceEffect (some .illegalCommand) 0))
    (hsome : ∀ w, effect' w = g (effect w)) :
    s'.widthEffect field effect' = g (s.widthEffect field effect) := by
  unfold State.widthEffect
  split
  · exact hnone
  · next w _ => exact hsome w

theorem State.readVarintEffect_cfg (s : State) (c : BitVec 1) :
    State.readVarintEffect { s with cfg := c } = { s.readVarintEffect with cfg := c } := by
  unfold State.readVarintEffect
  dsimp only
  rcases varintDec s.buf s.buflen s.cur with _ | ⟨v, k⟩ <;> rfl

/-- Under the other setting of `CFG` a command that is no float transfer and does not set it has the same
effect. -/
theorem effectOf_cfg_irrelevant {i : Instr} (s : State) (c : BitVec 1)
    (h : i ∉ [Instr.wrF16, .rdF16, .wrF32, .rdF32, .wrF64, .rdF64, .setcfg]) :
    effectOf i { s with cfg := c } = { effectOf i s with cfg := c } := by
  cases i
  case wrF16 | rdF16 | wrF32 | rdF32 | wrF64 | rdF64 | setcfg => exact absurd (by decide) h
  case wrUbits | rdUbits | msUbits =>
    exact State.widthEffect_map (fun e => { e with cfg := c }) rfl fun _ => rfl
  case rdUvar => exact s.readVarintEffect_cfg c
  all_goals rfl

theorem Effect.result_cfg (e : Effect) (s : State) (c : BitVec 1) :
    ({ e with cfg := c } : Effect).result { s with cfg := c } = { e.result s with cfg := c } := by
  rcases e with ⟨_ | f⟩ <;> rfl

/-- Settles O40: the one check of `SETCFG`, and the effect of the commands that do not look at `CFG`. -/
theorem setcfgRule : Obligations.SetcfgRule := by
  refine ⟨rfl, fun s => ⟨fun hval => ?_, fun hval => ⟨BitVec.ofNat 1 s.op.val, ?_, ?_⟩⟩,
    fun i s t c hi ht => ?_⟩
  · exact exec_of_fault_eq_some (f := .illegalCommand) (if_pos hval)
  · rw [BitVec.toNat_ofNat]
    exact Nat.mod_eq_of_lt (Nat.lt_succ_of_le hval)
  · exact exec_of_fault_eq_none (if_neg (Nat.not_lt.2 hval))
  · obtain rfl := exec_eq_next_iff.1 ht
    rw [exec_eq_result, effectOf_cfg_irrelevant s c hi, Effect.result_cfg]

/-- A measure only advances the cursor, and its outcome is decided by the operands, the cursor and the
parameters: any two states that agree on them agree on it (R215). -/
theorem effectOf_measure {i : Instr} (hmode : modeField (encode i) = 2) {s s' : State}
    (hop : s'.op = s.op) (hcur : s'.cur = s.cur) (hparams : s'.params = s.params) :
    effectOf i s' = s'.advanceEffect (effectOf i s).fault (effectOf i s).resp.adv := by
  obtain ⟨buf, buflen, cur, cfg, flt, scr, disp, op, resp, host, params⟩ := s
  obtain ⟨buf', buflen', cur', cfg', flt', scr', disp', op', resp', host', params'⟩ := s'
  obtain rfl : op' = op := hop
  obtain rfl : cur' = cur := hcur
  obtain rfl : params' = params := hparams
  cases i
  case msU8 | msU16 | msU32 | msU64 | msUvar | msF16 | msF32 | msF64 | msStr | msBytes => rfl
  case msUbits field =>
    simp only [effectOf, State.widthEffect]
    cases Width.ofField field <;> rfl
  all_goals cases (modeField_commandWord (by decide) _ _ _).symm.trans hmode

theorem Effect.result_buffer (e : Effect) (s : State) (m : Memory) (n : Nat) :
    ({ e with buf := m, buflen := n } : Effect).result { s with buf := m, buflen := n } =
      { e.result s with buf := m, buflen := n } := by
  rcases e with ⟨_ | f⟩ <;> rfl

/-- Settles O48: with another buffer a measure has the same effect but for the buffer it leaves. -/
theorem measureIgnoresBuffer : Obligations.MeasureIgnoresBuffer := by
  intro i s t m n hmode ht
  obtain rfl := exec_eq_next_iff.1 ht
  have hself := effectOf_measure hmode (s := s) (s' := s) rfl rfl rfl
  have hother := effectOf_measure hmode (s := s) (s' := { s with buf := m, buflen := n }) rfl rfl rfl
  have heffect : effectOf i { s with buf := m, buflen := n } =
      { effectOf i s with buf := m, buflen := n } := by
    rw [hother]
    conv_rhs => rw [hself]
    rfl
  rw [exec_eq_result, heffect, Effect.result_buffer]

end Sys2Proof.Machine
end

section
/-! Measure and write of one kind (R215, R220): they make the same checks of the operands and of the
capacities, the write looks at the bounds in between, and both advance by the same size. -/

namespace Sys2Proof.Machine

/-- The operands carry as many payload bytes as `LEN` says, where the write command checks it
(R243(c)). -/
def Command.PayloadMatches (c : Command) (wr : Instr) : Prop :=
  wr = .wrBytes ∨ (∃ nul, wr = .wrStr nul) → c.pin.length = c.len.toNat

/-- A measure and a write that both are commits by `k` bits after checks of their operands and of the
ceilings, with the bounds check of the write between the two. -/
structure MeasuresWrite (ms wr : Instr) (s : State) (k : Nat)
    (msOperands wrOperands ceilings : Option FaultKind) : Prop where
  measure_mode : modeField (encode ms) = 2
  write_mode : modeField (encode wr) = 0
  measure_fault : (effectOf ms s).fault = msOperands.or ceilings
  measure_adv : (effectOf ms s).resp.adv = k
  write_fault : (effectOf wr s).fault = wrOperands.or ((s.boundsFault k).or ceilings)
  write_adv : (effectOf wr s).resp.adv = k
  operands_eq : s.op.PayloadMatches wr → wrOperands = msOperands
  operands_ne : msOperands ≠ some .outOfBounds
  ceilings_eq : ceilings = none ∨ ceilings = some .capacityExceeded
  size_eq : spanSize ms s.op = spanSize wr s.op
  measure_size : msOperands = none → k = spanSize ms s.op
  write_size : wrOperands = none → k = spanSize wr s.op

theorem State.cursorFault_eq_none_or_capacityExceeded (s : State) (k : Nat) :
    s.cursorFault k = none ∨ s.cursorFault k = some .capacityExceeded :=
  (s.cursorFault_eq k).symm.imp And.left And.left

/-- A kind of a fixed size: neither command checks its operands, and the cursor is the one ceiling. -/
theorem measuresWrite_of_fixed {ms wr : Instr} {s : State} {k : Nat}
    (hmsmode : modeField (encode ms) = 2) (hwrmode : modeField (encode wr) = 0)
    (hms : effectOf ms s = s.measureEffect k) (hfault : (effectOf wr s).fault = s.spanFault k)
    (hadv : (effectOf wr s).resp.adv = k) (hmssize : k = spanSize ms s.op)
    (hwrsize : k = spanSize wr s.op) : MeasuresWrite ms wr s k none none (s.cursorFault k) where
  measure_mode := hmsmode
  write_mode := hwrmode
  measure_fault := by rw [hms]; rfl
  measure_adv := by rw [hms]; rfl
  write_fault := hfault
  write_adv := hadv
  operands_eq _ := rfl
  operands_ne := nofun
  ceilings_eq := s.cursorFault_eq_none_or_capacityExceeded k
  size_eq := hmssize.symm.trans hwrsize
  measure_size _ := hmssize
  write_size _ := hwrsize

theorem Width.val_of_ofField {field : BitVec 6} {w : Width} (h : Width.ofField field = some w) :
    w.val = field.toNat := by
  unfold Width.ofField at h
  split at h
  · cases h
    rfl
  · cases h

/-- A `UBITS` command with no legal width has the effect of its refusal. -/
theorem State.widthEffect_of_ofField_eq_none {field : BitVec 6} (hw : Width.ofField field = none)
    (s : State) (effect : Width → Effect) :
    s.widthEffect field effect = s.advanceEffect (some .illegalCommand) 0 := by
  rw [State.widthEffect, hw]

theorem measuresWrite_ubits (field : BitVec 6) (s : State) :
    ∃ k o₁ o₂ c, MeasuresWrite (.msUbits field) (.wrUbits field) s k o₁ o₂ c := by
  have hmsmode : modeField (encode (.msUbits field)) = 2 := modeField_commandWord (by decide) _ _ _
  have hwrmode : modeField (encode (.wrUbits field)) = 0 := modeField_commandWord (by decide) _ _ _
  cases hw : Width.ofField field with
  | some w =>
    have hwr := effectOf_wrUbits hw s
    exact ⟨w.val, _, _, _, measuresWrite_of_fixed hmsmode hwrmode (effectOf_msUbits hw s)
      (by rw [hwr]; rfl) (by rw [hwr]; rfl) (Width.val_of_ofField hw) (Width.val_of_ofField hw)⟩
  | none =>
    have hms : effectOf (.msUbits field) s = s.advanceEffect (some .illegalCommand) 0 :=
      s.widthEffect_of_ofField_eq_none hw _
    have hwr : effectOf (.wrUbits field) s = s.advanceEffect (some .illegalCommand) 0 :=
      s.widthEffect_of_ofField_eq_none hw _
    exact ⟨0, some .illegalCommand, some .illegalCommand, none,
      { measure_mode := hmsmode, write_mode := hwrmode
        measure_fault := by rw [hms]; rfl
        measure_adv := by rw [hms]; rfl
        write_fault := by rw [hwr]; rfl
        write_adv := by rw [hwr]; rfl
        operands_eq := fun _ => rfl, operands_ne := nofun, ceilings_eq := .inl rfl, size_eq := rfl
        measure_size := nofun, write_size := nofun }⟩

/-- The varint has two ceilings (R148, R244). -/
theorem measuresWrite_uvar (s : State) :
    MeasuresWrite .msUvar .wrUvar s (8 * varintBytes s.op.val) none none
      ((s.varintFault s.op.val).or (s.cursorFault (8 * varintBytes s.op.val))) where
  measure_mode := rfl
  write_mode := rfl
  measure_fault := by rw [effectOf_msUvar]; rfl
  measure_adv := by rw [effectOf_msUvar]; rfl
  write_fault := by rw [effectOf_wrUvar]; rfl
  write_adv := by rw [effectOf_wrUvar]; rfl
  operands_eq _ := rfl
  operands_ne := nofun
  ceilings_eq := by
    by_cases h : s.VarintRoom s.op.val ∧ s.CursorRoom (8 * varintBytes s.op.val)
    · exact .inl (State.varintCeilings_of_room h.1 h.2)
    · exact .inr (State.varintCeilings_of_not_room h)
  size_eq := rfl
  measure_size _ := rfl
  write_size _ := rfl

/-- The write of a byte array checks its payload, which the measure does not look at (R201, R203). -/
theorem measuresWrite_bytes (s : State) :
    MeasuresWrite .msBytes .wrBytes s (8 * s.lenBytes) none s.payloadFault
      (s.cursorFault (8 * s.lenBytes)) where
  measure_mode := rfl
  write_mode := rfl
  measure_fault := rfl
  measure_adv := rfl
  write_fault := rfl
  write_adv := rfl
  operands_eq h := State.payloadFault_eq_none_iff.2 (h (.inl rfl))
  operands_ne := nofun
  ceilings_eq := s.cursorFault_eq_none_or_capacityExceeded _
  size_eq := rfl
  measure_size _ := rfl
  write_size _ := rfl

/-- With a payload as long as `LEN` says, the write of a string makes the operand check of the measure
alone (R188, R190). -/
theorem State.stringOperandFault_of_payload {s : State} (nul : Bool)
    (h : s.op.pin.length = s.lenBytes) : s.stringOperandFault nul = s.nullLenFault nul := by
  have hpin : s.nullPinFault nul = s.nullLenFault nul := by
    rw [State.nullPinFault, h, State.nullLenFault]
  rw [State.stringOperandFault, hpin, State.payloadFault_eq_none_iff.2 h, Option.or_none, Option.or_self]

theorem State.nullLenFault_or_stringFault_ne (s : State) (nul : Bool) :
    (s.nullLenFault nul).or s.stringFault ≠ some .outOfBounds := by
  unfold State.nullLenFault State.stringFault
  split_ifs <;> nofun

theorem measuresWrite_str (nul : Bool) (s : State) :
    MeasuresWrite (.msStr nul) (.wrStr nul) s (stringBits s.lenBytes)
      ((s.nullLenFault nul).or s.stringFault) ((s.stringOperandFault nul).or s.stringFault)
      (s.cursorFault (stringBits s.lenBytes)) where
  measure_mode := modeField_commandWord (by decide) _ _ _
  write_mode := modeField_commandWord (by decide) _ _ _
  measure_fault := by
    rw [Option.or_assoc]
    rfl
  measure_adv := rfl
  write_fault := by
    rw [effectOf_wrStr_fault, Option.or_assoc]
    rfl
  write_adv := rfl
  operands_eq h := by rw [State.stringOperandFault_of_payload nul (h (.inr ⟨nul, rfl⟩))]
  operands_ne := s.nullLenFault_or_stringFault_ne nul
  ceilings_eq := s.cursorFault_eq_none_or_capacityExceeded _
  size_eq := rfl
  measure_size _ := rfl
  write_size _ := rfl

/-- Every kind: its measure measures its write. -/
theorem measuresWrite_of_mem {p : Instr × Instr} (hp : p ∈ measureWritePairs) (s : State) :
    ∃ k o₁ o₂ c, MeasuresWrite p.1 p.2 s k o₁ o₂ c := by
  simp only [measureWritePairs, List.mem_append, List.mem_cons, List.not_mem_nil, or_false,
    List.mem_map] at hp
  obtain ((hint | hfloat) | hstr) | ⟨w, -, rfl⟩ := hp
  · rcases hint with rfl | rfl | rfl | rfl | rfl
    case inr.inr.inr.inr => exact ⟨_, _, _, _, measuresWrite_uvar s⟩
    all_goals exact ⟨_, _, _, _, measuresWrite_of_fixed rfl rfl rfl rfl rfl rfl rfl⟩
  · rcases hfloat with rfl | rfl | rfl | rfl
    case inr.inr.inr => exact ⟨_, _, _, _, measuresWrite_bytes s⟩
    all_goals exact ⟨_, _, _, _, measuresWrite_of_fixed rfl rfl rfl rfl rfl rfl rfl⟩
  · rcases hstr with rfl | rfl
    · exact ⟨_, _, _, _, measuresWrite_str false s⟩
    · exact ⟨_, _, _, _, measuresWrite_str true s⟩
  · exact measuresWrite_ubits _ s

section
variable {ms wr : Instr} {s : State} {k : Nat} {o₁ o₂ c : Option FaultKind}
  (h : MeasuresWrite ms wr s k o₁ o₂ c)
include h

theorem MeasuresWrite.advance_measure (hf : faultCode (exec ms s) = some 0) :
    advance (exec ms s) = some (spanSize ms s.op) := by
  have hnone := faultCode_exec_eq_zero_iff.1 hf
  rw [advance_exec_of_none hnone, h.measure_adv]
  rw [h.measure_fault] at hnone
  rw [h.measure_size (Option.or_eq_none_iff.1 hnone).1]

theorem MeasuresWrite.advance_write (hf : faultCode (exec wr s) = some 0) :
    advance (exec wr s) = some (spanSize wr s.op) := by
  have hnone := faultCode_exec_eq_zero_iff.1 hf
  rw [advance_exec_of_none hnone, h.write_adv]
  rw [h.write_fault] at hnone
  rw [h.write_size (Option.or_eq_none_iff.1 hnone).1]

/-- With the same fault found both answer the same. -/
theorem MeasuresWrite.answers_eq (hf : (effectOf wr s).fault = (effectOf ms s).fault) :
    faultCode (exec wr s) = faultCode (exec ms s) ∧ advance (exec wr s) = advance (exec ms s) := by
  cases hms : (effectOf ms s).fault with
  | some f =>
    rw [hms] at hf
    rw [faultCode_exec_of_some hf, faultCode_exec_of_some hms, advance_exec_of_some hf,
      advance_exec_of_some hms]
    exact ⟨rfl, rfl⟩
  | none =>
    rw [hms] at hf
    rw [faultCode_exec_of_none hf, faultCode_exec_of_none hms, advance_exec_of_none hf,
      advance_exec_of_none hms, h.write_adv, h.measure_adv]
    exact ⟨rfl, rfl⟩

/-- With a payload of the right length the two find the same fault, unless the operands are legal and
the span does not fit. -/
theorem MeasuresWrite.fault_eq_or_out_of_bounds (hpayload : s.op.PayloadMatches wr) :
    (effectOf wr s).fault = (effectOf ms s).fault ∨
      ((effectOf wr s).fault = some .outOfBounds ∧ (effectOf ms s).fault = c) := by
  rw [h.write_fault, h.measure_fault, h.operands_eq hpayload]
  rcases s.boundsFault_eq k with ⟨hbounds, -⟩ | ⟨hbounds, -⟩
  · cases o₁ with
    | some f => exact .inl rfl
    | none => exact .inr ⟨by rw [hbounds]; rfl, rfl⟩
  · exact .inl (by rw [hbounds, Option.none_or])

/-- A measure whose operands are legal commits or answers `CapacityExceeded`. -/
theorem MeasuresWrite.faultCode_of_ceilings (hf : (effectOf ms s).fault = c) :
    faultCode (exec ms s) = some 0 ∨ faultCode (exec ms s) = some 4 :=
  h.ceilings_eq.imp (fun hc => faultCode_exec_of_none (hf.trans hc))
    fun hc => faultCode_exec_of_some (f := .capacityExceeded) (hf.trans hc)

/-- The measure never answers `OutOfBounds`. -/
theorem MeasuresWrite.measure_fault_ne : (effectOf ms s).fault ≠ some .outOfBounds := by
  rw [h.measure_fault]
  cases o₁ with
  | some f => exact h.operands_ne
  | none => rcases h.ceilings_eq with hc | hc <;> rw [hc] <;> nofun

end

theorem FaultKind.eq_outOfBounds_of_code {f : FaultKind} (h : f.code = 1) : f = .outOfBounds := by
  cases f
  case outOfBounds => rfl
  all_goals exact absurd h (by decide)

theorem faultCode_exec_eq_one_iff {i : Instr} {s : State} :
    faultCode (exec i s) = some 1 ↔ (effectOf i s).fault = some .outOfBounds := by
  refine ⟨fun h => ?_, faultCode_exec_of_some⟩
  cases hf : (effectOf i s).fault with
  | none =>
    rw [faultCode_exec_of_none hf] at h
    cases h
  | some f =>
    rw [faultCode_exec_of_some hf] at h
    rw [FaultKind.eq_outOfBounds_of_code (Option.some.inj h)]

/-- Settles O52: the two sizes from the size table, and the answers from the fault each finds. -/
theorem measureAgreesWithWrite : Obligations.MeasureAgreesWithWrite := by
  intro p hp s
  obtain ⟨k, o₁, o₂, c, h⟩ := measuresWrite_of_mem hp s
  refine ⟨h.advance_measure, h.advance_write, h.size_eq, fun hpayload => ?_⟩
  rw [Ne, faultCode_exec_eq_one_iff]
  rcases h.fault_eq_or_out_of_bounds hpayload with heq | ⟨hbounds, hceilings⟩
  · exact ⟨fun _ => h.answers_eq heq, fun hone => absurd (heq ▸ hone) h.measure_fault_ne⟩
  · exact ⟨fun hne => absurd hbounds hne, fun _ => h.faultCode_of_ceilings hceilings⟩

end Sys2Proof.Machine
end

section
/-! The lifecycle (R224): a measure pass and the write pass of the same fields go side by side, and every
write fits the buffer because the cursor of the measure pass never moves back. -/

namespace Sys2Proof.Machine

/-- A sequence of commands commits throughout exactly when its first command commits and the others do
after it. -/
theorem performAll_cons_eq_some_iff {i : Instr} {c : Command} {rest : List (Instr × Command)}
    {s t : State} : performAll ((i, c) :: rest) s = some t ↔
      (effectOf i { s with op := c }).fault = none ∧
        performAll rest ((effectOf i { s with op := c }).done { s with op := c }) = some t := by
  cases hf : (effectOf i { s with op := c }).fault with
  | none =>
    have hcode := faultCode_exec_of_none hf
    rw [exec_of_fault_eq_none hf] at hcode
    simp only [performAll, exec_of_fault_eq_none hf, hcode, if_true, true_and]
  | some f =>
    have hcode : faultCode (.next (({ s with op := c } : State).raise f)) = some f.code := rfl
    simp only [performAll, exec_of_fault_eq_some hf, hcode, Option.some.injEq, f.code_ne_zero, if_false,
      reduceCtorEq, false_and]

/-- Commands other than `RESET` that all commit never move the cursor back (R222). -/
theorem performAll_cur_le {commands : List (Instr × Command)} {s t : State}
    (hreset : ∀ ic ∈ commands, ic.1 ≠ .reset) (h : performAll commands s = some t) :
    s.cur ≤ t.cur := by
  induction commands generalizing s with
  | nil =>
    cases h
    exact le_rfl
  | cons ic rest ih =>
    obtain ⟨i, c⟩ := ic
    obtain ⟨-, hrest⟩ := performAll_cons_eq_some_iff.1 h
    have hcur := effectOf_cur { s with op := c } (hreset (i, c) List.mem_cons_self)
    calc s.cur ≤ (effectOf i { s with op := c }).cur := (Nat.le_add_right ..).trans_eq hcur.symm
      _ ≤ t.cur := ih (fun jc hjc => hreset jc (List.mem_cons_of_mem _ hjc)) hrest

theorem ne_of_modeField_ne {i j : Instr} (h : modeField (encode i) ≠ modeField (encode j)) : i ≠ j :=
  fun hij => h (hij ▸ rfl)

theorem measure_ne_reset {p : Instr × Instr} (hp : p ∈ measureWritePairs) : p.1 ≠ .reset := by
  obtain ⟨_, _, _, _, h⟩ := measuresWrite_of_mem hp State.reset
  exact ne_of_modeField_ne (by rw [h.measure_mode]; decide)

/-- Where a measure commits, the write of its kind commits too from any state that agrees on the operands,
the cursor and the parameters and whose buffer holds what was measured; and it moves the cursor to the
same place (R220). -/
theorem write_commits_of_measure_commits {p : Instr × Instr} (hp : p ∈ measureWritePairs) {s s' : State}
    (hop : s'.op = s.op) (hcur : s'.cur = s.cur) (hparams : s'.params = s.params)
    (hpayload : s'.op.PayloadMatches p.2) (hms : (effectOf p.1 s).fault = none)
    (hfits : (effectOf p.1 s).cur ≤ 8 * s'.buflen) :
    (effectOf p.2 s').fault = none ∧ (effectOf p.2 s').cur = (effectOf p.1 s).cur ∧
      (effectOf p.2 s').buflen = s'.buflen := by
  obtain ⟨k, o₁, o₂, c, h⟩ := measuresWrite_of_mem hp s'
  have hsame := effectOf_measure h.measure_mode hop hcur hparams
  have hms' : (effectOf p.1 s').fault = none := by rw [hsame]; exact hms
  have hadv : (effectOf p.1 s').resp.adv = (effectOf p.1 s).resp.adv := by rw [hsame]; rfl
  have hmscur : (effectOf p.1 s).cur = s'.cur + k := by
    rw [effectOf_cur s (measure_ne_reset hp), ← hadv, h.measure_adv, hcur]
  have hk : s'.SpanFits k := hmscur.symm.trans_le hfits
  have hne {j : Instr} (hj : modeField (encode j) = 3) : p.2 ≠ j :=
    ne_of_modeField_ne (by rw [h.write_mode, hj]; decide)
  rw [h.measure_fault] at hms'
  refine ⟨?_, ?_, effectOf_buflen s' (hne rfl)⟩
  · rw [h.write_fault, h.operands_eq hpayload, State.boundsFault_eq_none hk, Option.none_or, hms']
  · rw [effectOf_cur s' (hne rfl), h.write_adv, hmscur]

/-- The write pass of fields whose measure pass commits, from a state at the same cursor with the same
parameters whose buffer holds what was measured. -/
theorem performAll_writes_of_measures {fields : List ((Instr × Instr) × Command)} {s s' t : State}
    (hfields : ∀ f ∈ fields, f.1 ∈ measureWritePairs ∧ f.2.PayloadMatches f.1.2)
    (hcur : s'.cur = s.cur) (hparams : s'.params = s.params)
    (h : performAll (fields.map fun f => (f.1.1, f.2)) s = some t) (hfits : t.cur ≤ 8 * s'.buflen) :
    ∃ u, performAll (fields.map fun f => (f.1.2, f.2)) s' = some u ∧ u.cur = t.cur := by
  induction fields generalizing s s' with
  | nil =>
    cases h
    exact ⟨s', rfl, hcur⟩
  | cons f rest ih =>
    obtain ⟨⟨hpair, hpayload⟩, hrestfields⟩ := List.forall_mem_cons.1 hfields
    obtain ⟨hms, hrest⟩ := performAll_cons_eq_some_iff.1 h
    have hreset : ∀ ic ∈ rest.map fun f => (f.1.1, f.2), ic.1 ≠ .reset :=
      List.forall_mem_map.2 fun g hg => measure_ne_reset (hrestfields g hg).1
    obtain ⟨hwr, hwrcur, hwrlen⟩ := write_commits_of_measure_commits hpair
      (s := { s with op := f.2 }) (s' := { s' with op := f.2 }) rfl hcur hparams hpayload hms
      ((performAll_cur_le hreset hrest).trans hfits)
    obtain ⟨u, hu, hucur⟩ := ih (s := (effectOf f.1.1 { s with op := f.2 }).done { s with op := f.2 })
      (s' := (effectOf f.1.2 { s' with op := f.2 }).done { s' with op := f.2 }) hrestfields hwrcur
      hparams hrest (hfits.trans_eq (congrArg (8 * ·) hwrlen.symm))
    exact ⟨u, performAll_cons_eq_some_iff.2 ⟨hwr, hu⟩, hucur⟩

/-- Settles O55: the measured size is enough for the cursor the measure pass ends at. -/
theorem measurePassSizesWritePass : Obligations.MeasurePassSizesWritePass := by
  intro fields s t m hfields _ h
  exact performAll_writes_of_measures (s := s) hfields rfl rfl h ((t.requiredBytes_le_iff _).1 le_rfl)

end Sys2Proof.Machine
end

section
/-! The round trip (R221): after a write the read of the same kind at the same cursor makes the checks
the write has passed, and returns what was written. -/

namespace Sys2Proof.Machine

/-- The state after a commit with the cursor put back to where the command began. -/
def Effect.rewound (e : Effect) (s : State) : State := { e.done s with cur := s.cur }

section
variable {e : Effect} {s : State} {k : Nat}

/-- Back at the cursor, in a buffer of the same length, a span has the room it had before. -/
theorem Effect.rewound_spanFault (h : e.buflen = s.buflen) :
    (e.rewound s).spanFault k = s.spanFault k := by
  have hbounds : (e.rewound s).boundsFault k = s.boundsFault k := by
    rw [State.boundsFault, State.boundsFault, ← h]
    rfl
  rw [State.spanFault, State.spanFault, hbounds]
  rfl

end

section
variable {wr rd : Instr} (hwrmode : modeField (encode wr) = 0) (hrdmode : modeField (encode rd) = 1)
include hwrmode hrdmode

/-- A read command reads back what a write command wrote when, wherever the write commits, the read
finds no fault, advances by as much and answers as expected. -/
theorem readsBack_of_effect {expected : State → Response → Prop}
    (h : ∀ s, (effectOf wr s).fault = none →
      (effectOf rd ((effectOf wr s).rewound s)).fault = none ∧
      (effectOf rd ((effectOf wr s).rewound s)).resp.adv = (effectOf wr s).resp.adv ∧
      expected s (effectOf rd ((effectOf wr s).rewound s)).resp) : ReadsBack wr rd expected := by
  intro s t r ht hr hcode
  have hzero : faultCode (.next t) = some 0 := by rw [faultCode, hr, Option.map_some, hcode]
  obtain ⟨hf, rfl⟩ := done_of_faultCode_eq_zero ht hzero
  obtain rfl : (effectOf wr s).resp = r := Option.some.inj hr
  obtain ⟨hrd, hadv, hexpected⟩ := h s hf
  have hwrreset : wr ≠ .reset := ne_of_modeField_ne (by rw [hwrmode]; decide)
  have hrdreset : rd ≠ .reset := ne_of_modeField_ne (by rw [hrdmode]; decide)
  have hrdattach : rd ≠ .attach := ne_of_modeField_ne (by rw [hrdmode]; decide)
  have hcur : (effectOf rd ((effectOf wr s).rewound s)).cur = (effectOf wr s).cur := by
    rw [effectOf_cur _ hrdreset, effectOf_cur s hwrreset, hadv]
    rfl
  exact ⟨_, _, exec_of_fault_eq_none hrd, rfl, effectOf_resp_fault .., hadv, hcur,
    effectOf_buf _ (by rw [hrdmode]; decide) hrdattach, hexpected⟩

/-- The round trip of a kind of a fixed size, from the value read where the write wrote. -/
theorem readsBack_of_value {k : Nat} {value expected : State → Nat}
    (hwr : ∀ s, (effectOf wr s).fault = s.spanFault k ∧ (effectOf wr s).resp.adv = k)
    (hrd : ∀ s, (effectOf rd s).fault = s.spanFault k ∧
      (effectOf rd s).resp = Response.value k (value s))
    (hvalue : ∀ s, value ((effectOf wr s).rewound s) = expected s) :
    ReadsBack wr rd fun s q => q.rval = some (expected s) := by
  refine readsBack_of_effect hwrmode hrdmode fun s hf => ?_
  obtain ⟨hwrfault, hwradv⟩ := hwr s
  obtain ⟨hrdfault, hrdresp⟩ := hrd ((effectOf wr s).rewound s)
  have hbuflen := effectOf_buflen (i := wr) s (ne_of_modeField_ne (by rw [hwrmode]; decide))
  refine ⟨?_, ?_, ?_⟩
  · rw [hrdfault, Effect.rewound_spanFault hbuflen, ← hwrfault, hf]
  · rw [hrdresp, Response.value_adv, hwradv]
  · rw [hrdresp, ← hvalue]
    rfl

end

theorem readsBack_ubits (field : BitVec 6) :
    ReadsBack (.wrUbits field) (.rdUbits field)
      fun s q => q.rval = some (s.op.val % 2 ^ field.toNat) := by
  have hwrmode : modeField (encode (.wrUbits field)) = 0 := modeField_commandWord (by decide) _ _ _
  have hrdmode : modeField (encode (.rdUbits field)) = 1 := modeField_commandWord (by decide) _ _ _
  cases hw : Width.ofField field with
  | none =>
    refine readsBack_of_effect hwrmode hrdmode fun s hf => ?_
    rw [effectOf, State.widthEffect_of_ofField_eq_none hw] at hf
    cases hf
  | some w =>
    refine readsBack_of_value hwrmode hrdmode (k := w.val)
      (value := fun s => unpackBits s.buf s.cur w) (fun s => ?_) (fun s => ?_) fun s => ?_
    · rw [effectOf_wrUbits hw]
      exact ⟨rfl, rfl⟩
    · rw [effectOf_rdUbits hw]
      exact ⟨rfl, rfl⟩
    · rw [effectOf_wrUbits hw, ← Width.val_of_ofField hw]
      exact unpackBits_packBits ..

/-- The 64-bit codec gives back the value packed, reduced to its width (R137). -/
theorem unpackU64_packU64 (m : Memory) (off val : Nat) :
    unpackU64 (packU64 m off val) off = val % 2 ^ 64 := by
  have hbytes := unpackBytes_packBytes m off (leBytes val 8)
  rw [leBytes_length] at hbytes
  rw [unpackU64, packU64, hbytes, leValue_leBytes]

/-- The float codec gives back the pattern packed under the same byte order, reduced to its width. -/
theorem unpackF_packF_same (m : Memory) (off p n : Nat) (order : Bool) (scr scr' : List Byte) :
    unpackF (packF m off p n order scr) off n order scr' = p % 2 ^ (8 * n) := by
  rw [unpackF_packF, orderBytes_orderBytes, leValue_leBytes]

theorem readsBack_uvar : ReadsBack .wrUvar .rdUvar fun s q => q.rval = some s.op.val := by
  refine readsBack_of_effect rfl rfl fun s hf => ?_
  obtain ⟨hbounds, hceilings⟩ := Option.or_eq_none_iff.1 hf
  have hfits : s.SpanFits (8 * (varintEnc s.op.val).length) := by
    refine (State.fits_of_boundsFault_eq_none hbounds).resolve_left ?_
    have := varintBytes_pos s.op.val
    rw [varintEnc_length]
    omega
  have hdec := varintDec_packBytes s.buf (isVarint_varintEnc s.op.val) hfits
  rw [effectOf_rdUvar_of_eq_some (s := (effectOf .wrUvar s).rewound s) hdec]
  exact ⟨hceilings, rfl, rfl⟩

/-- A pack behind a span does not change what the span holds. -/
theorem unpackBits_packBytes_after (m : Memory) (off : Nat) (w : Width) (bs : List Byte) :
    unpackBits (packBytes m (off + w.val) bs) off w = unpackBits m off w := by
  refine Nat.eq_of_testBit_eq fun j => ?_
  rw [testBit_unpackBits, testBit_unpackBits, packBytes_bit]
  by_cases hj : j < w.val
  · rw [if_neg (by omega)]
  · simp [hj]

/-- The length of a packed string reads back whole when it has 16 bits (R187). -/
theorem unpackBits_packString (m : Memory) (off : Nat) {len : Nat} (bs : List Byte)
    (h : len ≤ 65535) : unpackBits (packString m off len bs) off Width.w16 = len := by
  have hprefix := unpackBits_packBytes_after (packBits m off len Width.w16) off Width.w16 bs
  rw [unpackBits_packBits] at hprefix
  exact hprefix.trans (Nat.mod_eq_of_lt (Nat.lt_succ_of_le h))

/-- What a string write that commits has checked (R188). -/
theorem checks_of_writeString {s : State} {nul : Bool} (hf : (effectOf (.wrStr nul) s).fault = none) :
    s.op.pin.length = s.lenBytes ∧ s.lenBytes ≤ 65535 ∧
      s.spanFault (stringBits s.lenBytes) = none := by
  rw [effectOf_wrStr_fault] at hf
  obtain ⟨hoperands, hf⟩ := Option.or_eq_none_iff.1 hf
  obtain ⟨hstring, hspan⟩ := Option.or_eq_none_iff.1 hf
  refine ⟨(State.stringLegal_of_stringOperandFault_eq_none hoperands).2, ?_, hspan⟩
  by_contra hlong
  rw [State.stringFault_eq_some (Nat.not_le.1 hlong)] at hstring
  cases hstring

/-- What a byte-array write that commits has checked (R201). -/
theorem checks_of_writeBytes {s : State} (hf : (effectOf .wrBytes s).fault = none) :
    s.op.pin.length = s.lenBytes ∧ s.spanFault (8 * s.lenBytes) = none :=
  (Option.or_eq_none_iff.1 hf).imp_left State.payloadFault_eq_none_iff.1

theorem State.lenBytes_beq_zero (s : State) : (s.lenBytes == 0) = decide (s.op.len = 0) := by
  rw [beq_eq_decide, State.lenBytes, decide_eq_decide]
  exact (BitVec.toNat_inj (x := s.op.len) (y := 0))

/-- The effect of `RD.STR` by the length it finds (R189). -/
theorem effectOf_rdStr_of_length {s : State} {len : Nat}
    (h : unpackBits s.buf s.cur Width.w16 = len) :
    effectOf .rdStr s =
      { s.advanceEffect ((s.boundsFault 16).or (s.spanFault (stringBits len))) (stringBits len) with
        resp := Response.string (stringBits len) (BitVec.ofNat 32 len) (len == 0)
          (unpackBytes s.buf (s.cur + 16) len) } := by
  subst h
  rfl

theorem readsBack_str (nul : Bool) : ReadsBack (.wrStr nul) .rdStr fun s q =>
    q.rlen = some s.op.len ∧ q.rnul = some (decide (s.op.len = 0)) ∧ q.pout = some s.op.pin := by
  have hwrmode : modeField (encode (.wrStr nul)) = 0 := modeField_commandWord (by decide) _ _ _
  refine readsBack_of_effect hwrmode rfl fun s hf => ?_
  obtain ⟨hpayload, hshort, hspan⟩ := checks_of_writeString hf
  have hlen : unpackBits ((effectOf (.wrStr nul) s).rewound s).buf s.cur Width.w16 = s.lenBytes :=
    unpackBits_packString s.buf s.cur s.op.pin hshort
  have hpin : unpackBytes ((effectOf (.wrStr nul) s).rewound s).buf (s.cur + 16) s.lenBytes = s.op.pin :=
    hpayload ▸ unpackBytes_packBytes (packBits s.buf s.cur s.lenBytes Width.w16) (s.cur + 16) s.op.pin
  have hfits := (State.room_of_spanFault_eq_none hspan).1.resolve_left (stringBits_pos _).ne'
  have hprefix : s.boundsFault 16 = none :=
    State.boundsFault_eq_none (hfits.mono (Nat.le_add_right 16 _))
  rw [effectOf_rdStr_of_length (s := (effectOf (.wrStr nul) s).rewound s) hlen]
  refine ⟨Option.or_eq_none_iff.2 ⟨hprefix, hspan⟩, rfl, ?_, ?_, congrArg some hpin⟩
  · exact congrArg some (BitVec.ofNat_toNat 32 s.op.len)
  · exact congrArg some s.lenBytes_beq_zero

theorem readsBack_bytes :
    ReadsBack .wrBytes .rdBytes fun s q => q.rlen = some s.op.len ∧ q.pout = some s.op.pin := by
  refine readsBack_of_effect rfl rfl fun s hf => ?_
  obtain ⟨hlen, hspan⟩ := checks_of_writeBytes hf
  have hpin : unpackBytes ((effectOf .wrBytes s).rewound s).buf s.cur s.lenBytes = s.op.pin :=
    hlen ▸ unpackBytes_packBytes s.buf s.cur s.op.pin
  exact ⟨hspan, rfl, rfl, congrArg some hpin⟩

/-- Settles O53: each kind from the codec it packs and unpacks with. -/
theorem readInvertsWrite : Obligations.ReadInvertsWrite :=
  ⟨readsBack_ubits,
    readsBack_of_value rfl rfl (fun _ => ⟨rfl, rfl⟩) (fun _ => ⟨rfl, rfl⟩)
      fun s => unpackBits_packBits s.buf s.cur s.op.val Width.w8,
    readsBack_of_value rfl rfl (fun _ => ⟨rfl, rfl⟩) (fun _ => ⟨rfl, rfl⟩)
      fun s => unpackBits_packBits s.buf s.cur s.op.val Width.w16,
    readsBack_of_value rfl rfl (fun _ => ⟨rfl, rfl⟩) (fun _ => ⟨rfl, rfl⟩)
      fun s => unpackBits_packBits s.buf s.cur s.op.val Width.w32,
    readsBack_of_value rfl rfl (fun _ => ⟨rfl, rfl⟩) (fun _ => ⟨rfl, rfl⟩)
      fun s => unpackU64_packU64 s.buf s.cur s.op.val,
    readsBack_uvar,
    readsBack_of_value rfl rfl (fun _ => ⟨rfl, rfl⟩) (fun _ => ⟨rfl, rfl⟩)
      fun s => unpackF_packF_same s.buf s.cur s.op.val 2 s.fbe _ _,
    readsBack_of_value rfl rfl (fun _ => ⟨rfl, rfl⟩) (fun _ => ⟨rfl, rfl⟩)
      fun s => unpackF_packF_same s.buf s.cur s.op.val 4 s.fbe _ _,
    readsBack_of_value rfl rfl (fun _ => ⟨rfl, rfl⟩) (fun _ => ⟨rfl, rfl⟩)
      fun s => unpackF_packF_same s.buf s.cur s.op.val 8 s.fbe _ _,
    readsBack_str, readsBack_bytes⟩

end Sys2Proof.Machine
end

section
/-! Overwriting (R223): every write packs one sequence of bits or bytes at the cursor, and a second pack
of the same size there leaves the buffer as if the first had not been. -/

namespace Sys2Proof.Machine

/-- A second pack of as many bytes overwrites the first (R102). -/
theorem packBytes_packBytes_same {m : Memory} {len off : Nat} {bs₁ bs₂ : List Byte} (h : m.wf len)
    (hlen : bs₁.length = bs₂.length) (hfits : 8 * bs₂.length = 0 ∨ off + 8 * bs₂.length ≤ 8 * len) :
    packBytes (packBytes m off bs₁) off bs₂ = packBytes m off bs₂ := by
  have hroom {bs : List Byte} (hbs : bs.length = bs₂.length) :
      off + 8 * bs.length ≤ 8 * len ∨ bs = [] := by
    rw [hbs, ← List.length_eq_zero_iff, hbs]
    omega
  refine Memory.ext_of_bits (packBytes_wf _ (packBytes_wf _ h (hroom hlen)) (hroom rfl))
    (packBytes_wf _ h (hroom rfl)) (by simp) (fun a => ?_) fun o => ?_
  · simp only [packBytes_lists, ← List.length_pos_iff_ne_nil, hlen, ← or_assoc, or_self]
  · simp only [packBytes_bit, hlen]
    split <;> rfl

theorem packBytes_append (m : Memory) (off : Nat) (bs₁ bs₂ : List Byte) :
    packBytes m off (bs₁ ++ bs₂) = packBytes (packBytes m off bs₁) (off + 8 * bs₁.length) bs₂ := by
  induction bs₁ generalizing m off with
  | nil => rfl
  | cons b bs₁ ih =>
    rw [List.cons_append, packBytes, ih, packBytes, List.length_cons, Nat.mul_add, Nat.add_assoc,
      Nat.add_comm 8]

/-- A string packed is its length as two bytes and then its payload (R185). -/
theorem packString_eq_packBytes {m : Memory} {len off : Nat} (l : Nat) (bs : List Byte) (h : m.wf len)
    (hfits : off + 16 ≤ 8 * len) : packString m off l bs = packBytes m off (leBytes l 2 ++ bs) := by
  rw [packBytes_append, packBytes_leBytes l (w := Width.w16) rfl h hfits, leBytes_length]
  rfl

/-- A second string of the same length overwrites the first. -/
theorem packString_packString_same {m : Memory} {len off : Nat} (l₁ l₂ : Nat) {bs₁ bs₂ : List Byte}
    (h : m.wf len) (hlen : bs₁.length = bs₂.length) (hfits : off + stringBits bs₂.length ≤ 8 * len) :
    packString (packString m off l₁ bs₁) off l₂ bs₂ = packString m off l₂ bs₂ := by
  have hfits : off + (16 + 8 * bs₂.length) ≤ 8 * len := hfits
  have hprefix : off + 16 ≤ 8 * len := by omega
  have hbytes (l : Nat) (bs : List Byte) : (leBytes l 2 ++ bs).length = 2 + bs.length := by simp
  have hwf : (packBytes m off (leBytes l₁ 2 ++ bs₁)).wf len :=
    packBytes_wf _ h (.inl (by rw [hbytes, hlen]; omega))
  rw [packString_eq_packBytes l₁ bs₁ h hprefix, packString_eq_packBytes l₂ bs₂ hwf hprefix,
    packString_eq_packBytes l₂ bs₂ h hprefix]
  exact packBytes_packBytes_same h (by rw [hbytes, hbytes, hlen]) (.inr (by rw [hbytes]; omega))

/-- A write of one pack over what it left before: only the second pack remains. -/
theorem buf_overwritten_of_packBits {i : Instr} {w : Width} {s : State}
    (he : ∀ s, effectOf i s = s.writeEffect w.val (packBits s.buf s.cur s.op.val w)) (o : Command)
    (hwf : s.buf.wf s.buflen) (hf : (effectOf i s).fault = none) :
    (effectOf i { (effectOf i s).rewound s with op := o }).buf =
      (effectOf i { s with op := o }).buf := by
  rw [he] at hf
  have hfits := (State.room_of_spanFault_eq_none hf).1.resolve_left (Nat.ne_of_gt w.property.1)
  rw [he, he, he]
  exact packBits_packBits_same s.op.val o.val hwf hfits

/-- A write of bytes over what it left before: only the second bytes remain. -/
theorem buf_overwritten_of_packBytes {i : Instr} {bytes : State → List Byte} {s : State} {o : Command}
    (he : ∀ s, (effectOf i s).buf = packBytes s.buf s.cur (bytes s)) (hwf : s.buf.wf s.buflen)
    (hbytes : bytes { (effectOf i s).rewound s with op := o } = bytes { s with op := o })
    (hlen : (bytes s).length = (bytes { s with op := o }).length)
    (hfits : 8 * (bytes { s with op := o }).length = 0 ∨
      s.SpanFits (8 * (bytes { s with op := o }).length)) :
    (effectOf i { (effectOf i s).rewound s with op := o }).buf =
      (effectOf i { s with op := o }).buf := by
  rw [he { (effectOf i s).rewound s with op := o }, he { s with op := o }, hbytes]
  calc packBytes (effectOf i s).buf s.cur (bytes { s with op := o })
      = packBytes (packBytes s.buf s.cur (bytes s)) s.cur (bytes { s with op := o }) := by rw [he]
    _ = packBytes s.buf s.cur (bytes { s with op := o }) := packBytes_packBytes_same hwf hlen hfits

section
variable {i : Instr} (hmode : modeField (encode i) = 0)
include hmode

/-- What a write checks and answers is decided by the operands, the cursor, the length of the buffer and
the parameters (R213). -/
theorem effectOf_write_congr {s s' : State} (hop : s'.op = s.op) (hcur : s'.cur = s.cur)
    (hbuflen : s'.buflen = s.buflen) (hparams : s'.params = s.params) :
    (effectOf i s').fault = (effectOf i s).fault ∧ (effectOf i s').resp = (effectOf i s).resp := by
  obtain ⟨buf, buflen, cur, cfg, flt, scr, disp, op, resp, host, params⟩ := s
  obtain ⟨buf', buflen', cur', cfg', flt', scr', disp', op', resp', host', params'⟩ := s'
  obtain rfl : op' = op := hop
  obtain rfl : cur' = cur := hcur
  obtain rfl : buflen' = buflen := hbuflen
  obtain rfl : params' = params := hparams
  cases i
  -- `simp only` takes the projections first: a bare `rfl` compares the two buffers packed
  case wrU8 | wrU16 | wrU32 | wrU64 | wrUvar | wrF16 | wrF32 | wrF64 | wrStr | wrBytes =>
    constructor <;> simp only [effectOf, State.writeEffect, State.writeFloatEffect,
      State.writeVarintEffect, State.writeStringEffect, State.advanceEffect] <;> rfl
  case wrUbits field =>
    simp only [effectOf, State.widthEffect]
    cases Width.ofField field
    · exact ⟨rfl, rfl⟩
    · simp only [State.writeEffect, State.advanceEffect, and_true]
      rfl
  all_goals cases (modeField_commandWord (by decide) _ _ _).symm.trans hmode

/-- A write over what a write of the same size left packs what it packs over the buffer before. -/
theorem effectOf_buf_overwritten {s : State} {o : Command} (hwf : s.buf.wf s.buflen)
    (hf : (effectOf i s).fault = none) (hf' : (effectOf i { s with op := o }).fault = none)
    (hadv : (effectOf i s).resp.adv = (effectOf i { s with op := o }).resp.adv) :
    (effectOf i { (effectOf i s).rewound s with op := o }).buf =
      (effectOf i { s with op := o }).buf := by
  cases i
  case wrUbits field =>
    cases hw : Width.ofField field with
    | none =>
      rw [effectOf, State.widthEffect_of_ofField_eq_none hw] at hf
      cases hf
    | some w => exact buf_overwritten_of_packBits (effectOf_wrUbits hw) o hwf hf
  case wrU8 => exact buf_overwritten_of_packBits (w := Width.w8) (fun _ => rfl) o hwf hf
  case wrU16 => exact buf_overwritten_of_packBits (w := Width.w16) (fun _ => rfl) o hwf hf
  case wrU32 => exact buf_overwritten_of_packBits (w := Width.w32) (fun _ => rfl) o hwf hf
  case wrU64 =>
    have hfits := (State.room_of_spanFault_eq_none hf).1
    exact buf_overwritten_of_packBytes (bytes := fun s => leBytes s.op.val 8) (fun _ => rfl) hwf rfl
      (by simp) (by rw [leBytes_length]; exact hfits)
  case wrUvar =>
    have hfits := State.fits_of_boundsFault_eq_none (Option.or_eq_none_iff.1 hf').1
    exact buf_overwritten_of_packBytes (bytes := fun s => varintEnc s.op.val) (fun _ => rfl) hwf rfl
      (Nat.eq_of_mul_eq_mul_left (by decide) hadv) hfits
  case wrF16 | wrF32 | wrF64 =>
    have hfits := (State.room_of_spanFault_eq_none hf).1
    exact buf_overwritten_of_packBytes (bytes := fun s => orderBytes s.fbe (leBytes s.op.val _))
      (fun s => packF_eq_packBytes_orderBytes s.buf s.cur s.op.val _ s.fbe s.scr) hwf rfl (by simp)
      (by rw [orderBytes_length, leBytes_length]; exact hfits)
  case wrStr nul =>
    obtain ⟨hpin, -, -⟩ := checks_of_writeString hf
    obtain ⟨hpin', -, hspan⟩ := checks_of_writeString hf'
    have hfits := (State.room_of_spanFault_eq_none hspan).1.resolve_left (stringBits_pos _).ne'
    have hlen : s.op.pin.length = o.pin.length := by
      have hbits : 16 + 8 * s.lenBytes = 16 + 8 * o.len.toNat := hadv
      have hpin' : o.pin.length = o.len.toNat := hpin'
      omega
    exact packString_packString_same _ _ hwf hlen (hpin' ▸ hfits)
  case wrBytes =>
    obtain ⟨hpin, -⟩ := checks_of_writeBytes hf
    obtain ⟨hpin', hspan⟩ := checks_of_writeBytes hf'
    have hlen : s.op.pin.length = o.pin.length :=
      hpin.trans ((Nat.eq_of_mul_eq_mul_left (by decide) hadv).trans hpin'.symm)
    exact buf_overwritten_of_packBytes (bytes := fun s => s.op.pin) (fun _ => rfl) hwf rfl hlen
      (hpin' ▸ (State.room_of_spanFault_eq_none hspan).1)
  all_goals cases (modeField_commandWord (by decide) _ _ _).symm.trans hmode

end

/-- Settles O56: the second write passes the checks it passes alone, and packs over the first. -/
theorem secondWriteOverwrites : Obligations.SecondWriteOverwrites := by
  intro i s o t u v k hmode hwf ht htcode htadv hu hucode huadv hv
  obtain ⟨hf, rfl⟩ := done_of_faultCode_eq_zero ht htcode
  obtain ⟨hf₁, rfl⟩ := done_of_faultCode_eq_zero hu hucode
  have hbuflen := effectOf_buflen (i := i) s (ne_of_modeField_ne (by rw [hmode]; decide))
  have hf₁ : (effectOf i { (effectOf i s).rewound s with op := o }).fault = none := hf₁
  have hsame := effectOf_write_congr hmode (s := { (effectOf i s).rewound s with op := o })
    (s' := { s with op := o }) rfl rfl hbuflen.symm rfl
  have hf' : (effectOf i { s with op := o }).fault = none := by
    rw [← hf₁]
    exact hsame.1
  obtain ⟨-, rfl⟩ := done_of_faultCode_eq_zero (i := i) (s := { s with op := o })
    hv ((congrArg faultCode hv).symm.trans (faultCode_exec_of_none hf'))
  refine effectOf_buf_overwritten hmode hwf hf hf' ?_
  rw [hsame.2]
  exact Option.some.inj (htadv.trans huadv.symm)

end Sys2Proof.Machine
end

section
/-! The order in which a command looks for faults (R241 to R245): its operands, the length limit of a
string, and then the bounds and the capacities. -/

namespace Sys2Proof.Machine

/-- The operands that a command refuses whatever the rest of the state (R243 (b) to (e)). -/
def Command.IllegalFor (c : Command) (i : Instr) : Prop :=
  match i with
  | .wrUbits field | .rdUbits field | .msUbits field => widthLegal field = false
  | .wrStr nul => ¬((nul = true → c.len.toNat = 0 ∧ c.pin = []) ∧ c.pin.length = c.len.toNat)
  | .msStr nul => nul = true ∧ c.len.toNat ≠ 0
  | .wrBytes | .attach => c.pin.length ≠ c.len.toNat
  | .setcfg => 1 < c.val
  | _ => False

/-- A string longer than its length field can say (R242). -/
def Command.TooLongFor (c : Command) (i : Instr) : Prop :=
  match i with
  | .wrStr _ | .msStr _ => 65535 < c.len.toNat
  | _ => False

/-- What the checks of the buffer and of the capacities may find: `OutOfBounds` in a write or a read
(R241), and `CapacityExceeded` under a finite capacity (R244). -/
inductive State.RangeFault (s : State) (i : Instr) : Option FaultKind → Prop
  | nothing : s.RangeFault i none
  | outOfBounds (hmode : modeField (encode i) = 0 ∨ modeField (encode i) = 1) :
      s.RangeFault i (some .outOfBounds)
  | capacityExceeded (hfinite : ¬s.Unbounded) : s.RangeFault i (some .capacityExceeded)

/-- What the checks of a command may find: each kind only when the checks before it in the order of R245
found nothing. -/
inductive State.FoundInOrder (s : State) (i : Instr) : Option FaultKind → Prop
  | illegal (hillegal : s.op.IllegalFor i) : s.FoundInOrder i (some .illegalCommand)
  | tooLong (hlegal : ¬s.op.IllegalFor i) (hlong : s.op.TooLongFor i) :
      s.FoundInOrder i (some .lengthExceeded)
  | range {o : Option FaultKind} (hlegal : ¬s.op.IllegalFor i) (hshort : ¬s.op.TooLongFor i)
      (hrange : s.RangeFault i o) : s.FoundInOrder i o

section
variable {s : State} {i : Instr} {o o' : Option FaultKind} {k v len : Nat}

theorem State.RangeFault.or (h : s.RangeFault i o) (h' : s.RangeFault i o') :
    s.RangeFault i (o.or o') := by
  cases h with
  | nothing => exact h'
  | outOfBounds hmode => exact .outOfBounds hmode
  | capacityExceeded hfinite => exact .capacityExceeded hfinite

theorem State.rangeFault_boundsFault (hmode : modeField (encode i) = 0 ∨ modeField (encode i) = 1) :
    s.RangeFault i (s.boundsFault k) := by
  rcases s.boundsFault_eq k with ⟨hf, -⟩ | ⟨hf, -⟩ <;> rw [hf]
  · exact .outOfBounds hmode
  · exact .nothing

theorem State.rangeFault_cursorFault : s.RangeFault i (s.cursorFault k) := by
  rcases s.cursorFault_eq k with ⟨hf, n, hn, -⟩ | ⟨hf, -⟩ <;> rw [hf]
  · exact .capacityExceeded fun hunbounded => nomatch hunbounded.1.symm.trans hn
  · exact .nothing

theorem State.rangeFault_varintFault : s.RangeFault i (s.varintFault v) := by
  rcases s.varintFault_eq v with ⟨hf, n, hn, -⟩ | ⟨hf, -⟩ <;> rw [hf]
  · exact .capacityExceeded fun hunbounded => nomatch hunbounded.2.1.symm.trans hn
  · exact .nothing

theorem State.rangeFault_bufCapFault : s.RangeFault i (s.bufCapFault len) := by
  rcases s.bufCapFault_eq len with ⟨hf, n, hn, -⟩ | ⟨hf, -⟩ <;> rw [hf]
  · exact .capacityExceeded fun hunbounded => nomatch hunbounded.2.2.symm.trans hn
  · exact .nothing

theorem State.rangeFault_spanFault (hmode : modeField (encode i) = 0 ∨ modeField (encode i) = 1) :
    s.RangeFault i (s.spanFault k) :=
  (State.rangeFault_boundsFault hmode).or State.rangeFault_cursorFault

theorem State.rangeFault_readVarint : s.RangeFault .rdUvar s.readVarintEffect.fault := by
  unfold State.readVarintEffect
  split
  · exact .outOfBounds (.inr rfl)
  · exact State.rangeFault_varintFault.or State.rangeFault_cursorFault

/-- The checks of a `UBITS` command: its width, then those of the effect of a legal width. -/
theorem State.foundInOrder_widthEffect {field : BitVec 6} {effect : Width → Effect}
    (hoperands : s.op.IllegalFor i ↔ widthLegal field = false) (hshort : ¬s.op.TooLongFor i)
    (hrange : ∀ w, s.RangeFault i (effect w).fault) :
    s.FoundInOrder i (s.widthEffect field effect).fault := by
  cases hlegal : widthLegal field with
  | false =>
    rw [State.widthEffect_of_ofField_eq_none (Width.ofField_eq_none (widthLegal_eq_false_iff.1 hlegal))]
    exact .illegal (hoperands.2 hlegal)
  | true =>
    have hwidth : 1 ≤ field.toNat ∧ field.toNat ≤ 32 := by simpa [widthLegal] using hlegal
    rw [State.widthEffect, Width.ofField_eq_some hwidth.1 hwidth.2]
    refine .range (fun hillegal => ?_) hshort (hrange _)
    exact Bool.false_ne_true ((hoperands.1 hillegal).symm.trans hlegal)

/-- The checks of a string command whose operands are legal. -/
theorem State.foundInOrder_stringFault (hlegal : ¬s.op.IllegalFor i)
    (htoolong : s.op.TooLongFor i ↔ 65535 < s.lenBytes) (hrange : s.RangeFault i o) :
    s.FoundInOrder i (s.stringFault.or o) := by
  rcases Nat.lt_or_ge 65535 s.lenBytes with hlong | hshort
  · rw [State.stringFault_eq_some hlong]
    exact .tooLong hlegal (htoolong.2 hlong)
  · rw [State.stringFault_eq_none hshort, Option.none_or]
    exact .range hlegal (fun h => Nat.not_lt.2 hshort (htoolong.1 h)) hrange

/-- The checks of a command with a payload of `LEN` bytes and no limit on it. -/
theorem State.foundInOrder_payloadFault
    (hoperands : s.op.IllegalFor i ↔ s.op.pin.length ≠ s.lenBytes) (hshort : ¬s.op.TooLongFor i)
    (hrange : s.RangeFault i o) : s.FoundInOrder i (s.payloadFault.or o) := by
  by_cases hpayload : s.op.pin.length = s.lenBytes
  · rw [State.payloadFault_eq_none_iff.2 hpayload, Option.none_or]
    exact .range (fun h => hoperands.1 h hpayload) hshort hrange
  · rw [State.payloadFault_eq_some hpayload]
    exact .illegal (hoperands.2 hpayload)

end

/-- Every command looks for its faults in the order of R245. -/
theorem effectOf_foundInOrder (i : Instr) (s : State) : s.FoundInOrder i (effectOf i s).fault := by
  cases i
  case wrUbits =>
    exact State.foundInOrder_widthEffect .rfl id fun _ =>
      State.rangeFault_spanFault (.inl (modeField_commandWord (by decide) _ _ _))
  case rdUbits =>
    exact State.foundInOrder_widthEffect .rfl id fun _ =>
      State.rangeFault_spanFault (.inr (modeField_commandWord (by decide) _ _ _))
  case msUbits => exact State.foundInOrder_widthEffect .rfl id fun _ => State.rangeFault_cursorFault
  case wrU8 | wrU16 | wrU32 | wrU64 | wrF16 | wrF32 | wrF64 =>
    exact .range id id (State.rangeFault_spanFault (.inl rfl))
  case rdU8 | rdU16 | rdU32 | rdU64 | rdF16 | rdF32 | rdF64 | rdBytes =>
    exact .range id id (State.rangeFault_spanFault (.inr rfl))
  case msU8 | msU16 | msU32 | msU64 | msF16 | msF32 | msF64 | msBytes =>
    exact .range id id State.rangeFault_cursorFault
  case wrUvar =>
    exact .range id id ((State.rangeFault_boundsFault (.inl rfl)).or
      (State.rangeFault_varintFault.or State.rangeFault_cursorFault))
  case rdUvar => exact .range id id State.rangeFault_readVarint
  case msUvar => exact .range id id (State.rangeFault_varintFault.or State.rangeFault_cursorFault)
  case wrStr nul =>
    rw [effectOf_wrStr_fault]
    by_cases hlegal : s.StringLegal nul
    · rw [State.stringOperandFault_eq_none hlegal, Option.none_or]
      exact State.foundInOrder_stringFault (not_not.2 hlegal) .rfl
        (State.rangeFault_spanFault (.inl (modeField_commandWord (by decide) _ _ _)))
    · rw [State.stringOperandFault_eq_some hlegal]
      exact .illegal hlegal
  case rdStr =>
    exact .range id id ((State.rangeFault_boundsFault (.inr rfl)).or (State.rangeFault_spanFault (.inr rfl)))
  case msStr nul =>
    have hf : (effectOf (.msStr nul) s).fault =
        (s.nullLenFault nul).or (s.stringFault.or (s.cursorFault (stringBits s.lenBytes))) := rfl
    by_cases hillegal : nul = true ∧ s.lenBytes ≠ 0
    · rw [hf, State.nullLenFault_eq_some hillegal.1 hillegal.2]
      exact .illegal hillegal
    · rw [hf, State.nullLenFault, if_neg hillegal, Option.none_or]
      exact State.foundInOrder_stringFault hillegal .rfl State.rangeFault_cursorFault
  case wrBytes => exact State.foundInOrder_payloadFault .rfl id (State.rangeFault_spanFault (.inl rfl))
  case reset => exact .range id id .nothing
  case attach => exact State.foundInOrder_payloadFault .rfl id State.rangeFault_bufCapFault
  case setcfg =>
    by_cases hval : 1 < s.op.val
    · have hf : (effectOf .setcfg s).fault = some .illegalCommand := if_pos hval
      exact hf ▸ .illegal hval
    · have hf : (effectOf .setcfg s).fault = none := if_neg hval
      exact hf ▸ .range hval id .nothing

end Sys2Proof.Machine
end

section
/-! Which command answers which fault, and when (R241 to R244). -/

namespace Sys2Proof.Machine

theorem FaultKind.code_inj {f g : FaultKind} : f.code = g.code ↔ f = g := by
  refine ⟨fun h => ?_, congrArg _⟩
  cases f <;> cases g <;> simp [FaultKind.code] at h ⊢

section
variable {i : Instr} {s : State}

theorem faultCode_exec_eq_code_iff {f : FaultKind} :
    faultCode (exec i s) = some f.code ↔ (effectOf i s).fault = some f := by
  refine ⟨fun h => ?_, faultCode_exec_of_some⟩
  cases hf : (effectOf i s).fault with
  | none => exact absurd (Option.some.inj (h.symm.trans (faultCode_exec_of_none hf))) f.code_ne_zero
  | some g =>
    exact congrArg some (FaultKind.code_inj.1 (Option.some.inj ((faultCode_exec_of_some hf).symm.trans h)))

end

section
variable {i : Instr} {s : State} {o : Option FaultKind} (h : s.FoundInOrder i o)
include h

theorem State.FoundInOrder.eq_illegalCommand_iff : o = some .illegalCommand ↔ s.op.IllegalFor i := by
  cases h with
  | illegal hillegal => exact iff_of_true rfl hillegal
  | tooLong hlegal => exact iff_of_false nofun hlegal
  | range hlegal _ hrange => exact iff_of_false (by rintro rfl; cases hrange) hlegal

theorem State.FoundInOrder.eq_lengthExceeded_iff :
    o = some .lengthExceeded ↔ ¬s.op.IllegalFor i ∧ s.op.TooLongFor i := by
  cases h with
  | illegal hillegal => exact iff_of_false nofun fun hlong => hlong.1 hillegal
  | tooLong hlegal hlong => exact iff_of_true rfl ⟨hlegal, hlong⟩
  | range _ hshort hrange => exact iff_of_false (by rintro rfl; cases hrange) fun hlong => hshort hlong.2

theorem State.FoundInOrder.mode_of_eq_outOfBounds (ho : o = some .outOfBounds) :
    modeField (encode i) = 0 ∨ modeField (encode i) = 1 := by
  subst ho
  cases h with | range _ _ hrange => cases hrange with | outOfBounds hmode => exact hmode

theorem State.FoundInOrder.not_unbounded_of_eq_capacityExceeded (ho : o = some .capacityExceeded) :
    ¬s.Unbounded := by
  subst ho
  cases h with | range _ _ hrange => cases hrange with | capacityExceeded hfinite => exact hfinite

end

theorem faultCode_exec_eq_three_iff {i : Instr} {s : State} :
    faultCode (exec i s) = some 3 ↔ s.op.IllegalFor i :=
  (faultCode_exec_eq_code_iff (f := .illegalCommand)).trans (effectOf_foundInOrder i s).eq_illegalCommand_iff

theorem faultCode_exec_eq_two_iff {i : Instr} {s : State} :
    faultCode (exec i s) = some 2 ↔ ¬s.op.IllegalFor i ∧ s.op.TooLongFor i :=
  (faultCode_exec_eq_code_iff (f := .lengthExceeded)).trans (effectOf_foundInOrder i s).eq_lengthExceeded_iff

theorem Command.len_eq_zero_iff {c : Command} : c.len = 0 ↔ c.len.toNat = 0 :=
  BitVec.toNat_eq

theorem isString_of_tooLongFor {c : Command} {i : Instr} (h : c.TooLongFor i) :
    ∃ nul, i = .wrStr nul ∨ i = .msStr nul := by
  cases i
  case wrStr nul => exact ⟨nul, .inl rfl⟩
  case msStr nul => exact ⟨nul, .inr rfl⟩
  all_goals cases h

/-- Settles O43: a string of legal operands is too long, and no other command has a length limit. -/
theorem lengthExceededExactly : Obligations.LengthExceededExactly := by
  refine ⟨fun nul s => ?_, fun nul s => ?_, fun i s h => ?_⟩
  · rw [faultCode_exec_eq_two_iff, Command.len_eq_zero_iff]
    refine and_congr_left fun _ => ?_
    exact not_and_not_right
  · rw [faultCode_exec_eq_two_iff, Command.len_eq_zero_iff, ← and_assoc]
    refine and_congr_left fun _ => not_not.trans (and_congr_left fun hpayload => ?_)
    refine forall_congr' fun _ => and_iff_left_of_imp fun hlen => ?_
    exact List.length_eq_zero_iff.1 (hpayload.trans hlen)
  · exact isString_of_tooLongFor (faultCode_exec_eq_two_iff.1 h).2

/-- Settles O44: only the bounds check finds `OutOfBounds`, and only a finite capacity is exceeded. -/
theorem faultsNeverRaised : Obligations.FaultsNeverRaised := by
  refine ⟨fun i s h => ?_, fun i s hunbounded h => ?_⟩
  · exact (effectOf_foundInOrder i s).mode_of_eq_outOfBounds (faultCode_exec_eq_one_iff.1 h)
  · exact (effectOf_foundInOrder i s).not_unbounded_of_eq_capacityExceeded
      ((faultCode_exec_eq_code_iff (f := .capacityExceeded)).1 h) hunbounded

end Sys2Proof.Machine
end

section
/-! The cases of R243 from the command record alone. -/

namespace Sys2Proof.Machine

theorem encode_inj {i j : Instr} : encode i = encode j ↔ i = j := by
  refine ⟨fun h => ?_, congrArg encode⟩
  exact Except.ok.inj ((decode_encode i).symm.trans (h ▸ decode_encode j))

theorem reservedWord_encode_iff {i : Instr} : ReservedWord (encode i) ↔ i.wellFormed = false := by
  refine ⟨fun h => ?_, reservedWord_encode⟩
  exact Bool.eq_false_iff.2 fun hwf => not_reservedWord_encode hwf h

/-- For the word of an instruction the cases of R243 are the operands it refuses. -/
theorem illegalRecord_iff_of_encode {c : Command} {i : Instr} (h : encode i = c.cmd) :
    IllegalRecord c ↔ c.IllegalFor i := by
  have hword (j : Instr) {w : Word} (hj : encode j = w) : c.cmd = w ↔ i = j := by
    rw [← h, ← hj, encode_inj]
  rw [IllegalRecord, hword (.wrStr false) (by decide), hword (.wrStr true) (by decide),
    hword .wrBytes (by decide), hword .attach (by decide), hword (.msStr true) (by decide),
    hword .setcfg (by decide), ← h, reservedWord_encode_iff, ne_eq c.len, Command.len_eq_zero_iff]
  cases i
  case wrStr nul =>
    cases nul
    · simp [Command.IllegalFor, Instr.wellFormed]
    · simp only [Command.IllegalFor, Instr.wellFormed, Instr.wrStr.injEq, reduceCtorEq, Bool.true_eq_false,
        or_self, or_false, or_true, ne_eq, true_and, false_and, false_or, forall_const, not_and, and_imp]
      tauto
  case msStr nul => cases nul <;> simp [Command.IllegalFor, Instr.wellFormed]
  all_goals simp [Command.IllegalFor, Instr.wellFormed]

/-- Settles O42: a word that selects no row is reserved, and an instruction answers the code of
`IllegalCommand` exactly for the operands it refuses. -/
theorem illegalCommandExactly : Obligations.IllegalCommandExactly := by
  intro s c rest hd hh
  rw [step_of_command hd hh]
  cases hdec : decode c.cmd with
  | error e =>
    have hres := reservedWord_of_decode_error hdec
    rw [State.perform_of_reservedWord (s := s.accept c rest) hres]
    exact iff_of_true rfl (.inl hres)
  | ok i =>
    rw [State.perform_of_decode (s := s.accept c rest) hdec, faultCode_exec_eq_three_iff]
    exact (illegalRecord_iff_of_encode (encode_of_decode hdec)).symm

end Sys2Proof.Machine
end

section
/-! Fault entry (R246) and the sticky bits (R251). -/

namespace Sys2Proof.Machine

/-- Fault entry with the code of the fault, and the sticky bit at its index (R240, R246). -/
theorem State.raise_eq_afterFault (s : State) (f : FaultKind) :
    s.raise f = s.afterFault f.code (1#4 <<< (f.code.toNat - 1)) := by
  cases f <;> rfl

theorem FaultKind.code_le (f : FaultKind) : f.code.toNat ≤ 4 := by
  cases f <;> decide

/-- Everything an accepted command can do: enter a fault, or commit. -/
theorem State.perform_cases {s t : State} (h : s.perform = .next t) :
    (∃ f, t = s.raise f) ∨ ∃ i, t = (effectOf i s).done s := by
  cases hd : decode s.op.cmd with
  | error e =>
    rw [State.perform, hd] at h
    exact .inl ⟨.illegalCommand, (Host.Outcome.next.inj h).symm⟩
  | ok i =>
    rw [State.perform_of_decode hd] at h
    exact (exec_cases h).imp (fun ⟨f, _, ht⟩ => ⟨f, ht⟩) fun ⟨_, ht⟩ => ⟨i, ht⟩

/-- Settles O41: the fault entered is its code with the bit of that code, and a commit answers no fault. -/
theorem faultChangesOnlyFlt : Obligations.FaultChangesOnlyFlt := by
  intro s t r ht hr hfault
  rcases State.perform_cases ht with ⟨f, rfl⟩ | ⟨i, rfl⟩ <;> obtain rfl := Option.some.inj hr
  · exact ⟨f.code_le, s.raise_eq_afterFault f⟩
  · exact absurd (effectOf_resp_fault i s) hfault

/-- A command leaves `FLT`, or sets the bit of the fault it answers. -/
theorem State.perform_flt {s t : State} (h : s.perform = .next t) :
    t.flt = s.flt ∨
      ∃ r, t.resp = some r ∧ r.fault ≠ 0 ∧ t.flt = s.flt ||| 1#4 <<< (r.fault.toNat - 1) := by
  rcases State.perform_cases h with ⟨f, rfl⟩ | ⟨i, rfl⟩
  · exact .inr ⟨_, s.raise_resp f, f.code_ne_zero, congrArg State.flt (s.raise_eq_afterFault f)⟩
  · exact .inl rfl

/-- Settles O45: by what the step does; accepting a command leaves `FLT`. -/
theorem fltIsSticky : Obligations.FltIsSticky := by
  intro s t ht hreset
  rcases step_cases ht with ⟨-, h⟩ | ⟨-, -, rfl⟩ | ⟨-, c, rest, -, h⟩ | ⟨hd, rest, hh, -⟩
  · exact State.perform_flt h
  · exact .inl rfl
  · exact State.perform_flt (s := s.accept c rest) h
  · exact absurd ⟨hd, hh⟩ (hreset rest)

end Sys2Proof.Machine
end

section
/-! Hardware reset (R270), and the answer of every step (R248, R277). -/

namespace Sys2Proof.Machine

theorem step_of_hardwareReset {s : State} {rest : List HostMove} (hd : s.disp = .idle)
    (hh : s.host = .hardwareReset :: rest) : step s = .next (s.hardwareReset rest) := by
  rw [step, hd, hh]

/-- The scratch region has its eight bytes after every reset, whatever they are (R31). -/
theorem scratchBytes_length (epoch : Nat) :
    ((List.range Config.scratchBytes).map (Config.scratchByte epoch)).length = 8 := by
  rw [List.length_map, List.length_range]

theorem State.reset_unbounded : State.reset.Unbounded := ⟨rfl, rfl, rfl⟩

/-- An accepted command ends in a next state, whichever of the two ways of `State.perform_cases` it ends. -/
theorem State.perform_answers (s : State) :
    ∃ t, s.perform = .next t ∧ t.disp = .idle ∧ t.params = s.params ∧ t.host = s.host := by
  obtain ⟨t, ht⟩ : ∃ t, s.perform = .next t := by
    cases hd : decode s.op.cmd with
    | error e => exact ⟨s.raise .illegalCommand, by rw [State.perform, hd]⟩
    | ok i => exact ⟨_, (State.perform_of_decode hd).trans (exec_eq_result i s)⟩
  refine ⟨t, ht, ?_⟩
  rcases State.perform_cases ht with ⟨f, rfl⟩ | ⟨i, rfl⟩
  · exact ⟨s.raise_disp f, s.raise_params f, s.raise_host f⟩
  · exact ⟨rfl, rfl, rfl⟩

/-- Settles O9: by the dispatcher and the next move; a command answers once accepted, and accepting it
takes that one move. -/
theorem everyStepAnswers : Obligations.EveryStepAnswers := by
  intro s
  cases hd : s.disp with
  | busy =>
    obtain ⟨t, ht, hidle, hparams, hhost⟩ := s.perform_answers
    exact ⟨t, (step_of_busy hd).trans ht, hidle, hparams, nofun, fun _ => hhost⟩
  | idle =>
    cases hh : s.host with
    | nil => exact ⟨s, step_of_idle_of_nil hd hh, hd, rfl, fun _ => hh, nofun⟩
    | cons move rest =>
      cases move with
      | command c =>
        obtain ⟨t, ht, hidle, hparams, hhost⟩ := (s.accept c rest).perform_answers
        exact ⟨t, (step_of_command hd hh).trans ht, hidle, hparams, fun _ => hhost, nofun⟩
      | hardwareReset =>
        exact ⟨s.hardwareReset rest, step_of_hardwareReset hd hh, s.hardwareReset_disp rest,
          s.hardwareReset_params rest, fun _ => s.hardwareReset_host rest, nofun⟩

/-- Settles O7: the step is the hardware reset of the state, whose registers have their reset values. -/
theorem hardwareResetSetsState : Obligations.HardwareResetSetsState := by
  intro s rest hd hh
  refine ⟨s.hardwareReset rest, step_of_hardwareReset hd hh, rfl, rfl, rfl, rfl, rfl, rfl, rfl, ?_, rfl, rfl⟩
  exact scratchBytes_length (s.buf.epoch + 1)

/-- Settles O8: the fields of `State.reset`, whose parameters are the default setting of R5. -/
theorem resetValues : Obligations.ResetValues :=
  ⟨rfl, rfl, rfl, rfl, rfl, rfl, rfl, State.reset_unbounded⟩

/-- Settles O59: the buffer lists no byte, the capacities are unbounded and there is no response. -/
theorem invariantAtReset : Obligations.InvariantAtReset where
  buf_wf := State.reset_wf
  scr_length := scratchBytes_length 0
  cur_lt := nofun
  buflen_le := nofun
  default_le := nofun
  resp_legal := nofun

end Sys2Proof.Machine
end
